-- ==== Sys2Proof/Word.lean ====
section
/-! DEFINITION. The word types of the block (00_scope.md R12, R13). -/

namespace Sys2Proof

/-- A register, a table entry, a command word, a binary32 pattern (00_scope.md R12). -/
abbrev Word := BitVec 32

/-- One byte of PBUF (10_state.md R43). -/
abbrev Byte := BitVec 8

/-- A byte address of the register bus (00_scope.md R12). -/
abbrev BusAddr := BitVec 20

end Sys2Proof
end

