-- ==== Sys2Proof/Syntax.lean ====
section
/-! DEFINITION. The commands of SQ command set version 1 (30_encoding.md R82) and the names their operands take
(30_encoding.md R81, R86). -/

namespace Sys2Proof

/-- A channel (00_scope.md R17): V for visibility components, W for weights. -/
inductive Channel
  | v
  | w
deriving DecidableEq, Repr

/-- An index 0..3 of an input or output register (30_encoding.md R81, fields SRC and DST). -/
inductive RegIdx
  | r0
  | r1
  | r2
  | r3
deriving DecidableEq, Repr

/-- An index 0..1 of a code register (30_encoding.md R81, field CSEL). -/
inductive CodeIdx
  | c0
  | c1
deriving DecidableEq, Repr

/-- One constructor per row of spec/opcode_table.json (30_encoding.md R82).
Widths are the counts the commands use, `w = WM1 + 1` (30_encoding.md R81); no word decodes to a width outside 1 to 32
(log entry 16). -/
inductive Instr
  /-- NOP (43_bitpack.md R179). -/
  | nop
  /-- CONFIG ch (40_distribution.md R100). -/
  | config (ch : Channel)
  /-- ENC ch, codeJ, inS (41_quantizer.md R137). -/
  | enc (ch : Channel) (src : RegIdx) (csel : CodeIdx)
  /-- DEC ch, outD, codeJ (41_quantizer.md R138). -/
  | dec (ch : Channel) (dst : RegIdx) (csel : CodeIdx)
  /-- PACK w, codeJ (43_bitpack.md R172). -/
  | pack (csel : CodeIdx) (width : Nat)
  /-- UNPACK codeJ, w (43_bitpack.md R174). -/
  | unpack (csel : CodeIdx) (width : Nat)
  /-- ENCV (41_quantizer.md R140). -/
  | encv
  /-- DECV (41_quantizer.md R141). -/
  | decv
  /-- ENCW (42_weight.md R162). -/
  | encw
  /-- DECW (42_weight.md R163). -/
  | decw
  /-- CDF ch, inS (40_distribution.md R110). -/
  | cdf (ch : Channel) (src : RegIdx)
  /-- LEVEL ch, outD (40_distribution.md R111). -/
  | level (ch : Channel) (dst : RegIdx)
  /-- RSTPTR [w][r] (43_bitpack.md R178). -/
  | rstptr (pw : Bool) (pr : Bool)
deriving DecidableEq, Repr

end Sys2Proof
end

