-- ==== Sys2Proof/Machine/Bits.lean ====
section
/-! DEFINITION. Bit fields, bit sequences and the numbers of the operand names (00_scope.md R13). -/

namespace Sys2Proof.Machine

/-- `v[lo + len − 1 : lo]` as an unsigned number (00_scope.md R13). -/
def field (v : Word) (lo len : Nat) : Nat := (v.extractLsb' lo len).toNat

/-- `ceil(n / 8)` (00_scope.md R13). -/
def bytesFor (n : Nat) : Nat := (n + 7) / 8

/-- The number whose bit `i` is `f i` for `i < n`: the sum of `f i × 2^i` (43_bitpack.md R173). -/
def bitsToNat (f : Nat → Bool) : Nat → Nat
  | 0 => 0
  | n + 1 => bitsToNat f n + (f n).toNat * 2 ^ n

/-- The channel number, 0 for V and 1 for W (00_scope.md R17). -/
def channelNum : Channel → Nat
  | .v => 0
  | .w => 1

/-- The channel number as an ERR_INFO word (60_exceptions.md R191, NOT_CONFIGURED). -/
def channelWord (ch : Channel) : Word := BitVec.ofNat 32 (channelNum ch)

/-- The number of an input or output register (30_encoding.md R81). -/
def regNum : RegIdx → Nat
  | .r0 => 0
  | .r1 => 1
  | .r2 => 2
  | .r3 => 3

/-- The number of a code register (30_encoding.md R81). -/
def codeNum : CodeIdx → Nat
  | .c0 => 0
  | .c1 => 1

/-- The channel that a CH field names (30_encoding.md R81). -/
def channelOfNum : Nat → Channel
  | 0 => .v
  | _ => .w

/-- The input or output register that a two-bit field names (30_encoding.md R81). -/
def regOfNum : Nat → RegIdx
  | 0 => .r0
  | 1 => .r1
  | 2 => .r2
  | _ => .r3

/-- The code register that a CSEL field names (30_encoding.md R81). -/
def codeOfNum : Nat → CodeIdx
  | 0 => .c0
  | _ => .c1

end Sys2Proof.Machine
end

