-- ==== Sys2Proof/WellFormed.lean ====
section
/-! DEFINITION. Which instruction terms are commands: the operand types bound every field but the width. -/

namespace Sys2Proof

/-- A width a PACK or UNPACK can carry: `PW_MIN = 1` to `PW_MAX = 32` (00_scope.md R7, 30_encoding.md R81). -/
def widthOk (w : Nat) : Bool := 1 ≤ w && w ≤ 32

/-- The instruction has an encoding (30_encoding.md R80 to R82). -/
def Instr.wellFormed : Instr → Bool
  | .nop => true
  | .config _ => true
  | .enc _ _ _ => true
  | .dec _ _ _ => true
  | .pack _ width => widthOk width
  | .unpack _ width => widthOk width
  | .encv => true
  | .decv => true
  | .encw => true
  | .decw => true
  | .cdf _ _ => true
  | .level _ _ => true
  | .rstptr _ _ => true

end Sys2Proof
end

