-- ==== Sys2Proof/Decode.lean ====
section
/-! DEFINITION. The decoder of 30_encoding.md R80 to R84, total on every 32-bit word, and the encoder of R86. -/

namespace Sys2Proof

/-- Why a word is no command; both raise ILLEGAL_CMD (30_encoding.md R83, R84). -/
inductive DecodeError
  /-- The opcode is above 0x0C. -/
  | unknownOpcode (op : Nat)
  /-- A bit outside the opcode's fields is not 0. -/
  | reservedBits (op : Nat)
deriving DecidableEq, Repr

/-- CH, bit 8 (30_encoding.md R80, R81). -/
def chField (c : Word) : Channel := Machine.channelOfNum (Machine.field c 8 1)

/-- SRC, bits 10:9 (30_encoding.md R80, R81). -/
def srcField (c : Word) : RegIdx := Machine.regOfNum (Machine.field c 9 2)

/-- DST, bits 12:11 (30_encoding.md R80, R81). -/
def dstField (c : Word) : RegIdx := Machine.regOfNum (Machine.field c 11 2)

/-- CSEL, bit 13 (30_encoding.md R80, R81). -/
def cselField (c : Word) : CodeIdx := Machine.codeOfNum (Machine.field c 13 1)

/-- `w = WM1 + 1`, WM1 bits 20:16 (30_encoding.md R80, R81). -/
def widthField (c : Word) : Nat := Machine.field c 16 5 + 1

/-- The mask of the bits that must match, by opcode (30_encoding.md R82). -/
def rowMask : Nat → Option Word
  | 0x00 => some 0xFFFFFFFF#32
  | 0x01 => some 0xFFFFFEFF#32
  | 0x02 => some 0xFFFFD8FF#32
  | 0x03 => some 0xFFFFC6FF#32
  | 0x04 => some 0xFFE0DFFF#32
  | 0x05 => some 0xFFE0DFFF#32
  | 0x06 => some 0xFFFFFFFF#32
  | 0x07 => some 0xFFFFFFFF#32
  | 0x08 => some 0xFFFFFFFF#32
  | 0x09 => some 0xFFFFFFFF#32
  | 0x0A => some 0xFFFFF8FF#32
  | 0x0B => some 0xFFFFE6FF#32
  | 0x0C => some 0xFCFFFFFF#32
  | _ => none

/-- The command of an opcode with the fields of `c` (30_encoding.md R82). -/
def instrOf (c : Word) : Nat → Option Instr
  | 0x00 => some .nop
  | 0x01 => some (.config (chField c))
  | 0x02 => some (.enc (chField c) (srcField c) (cselField c))
  | 0x03 => some (.dec (chField c) (dstField c) (cselField c))
  | 0x04 => some (.pack (cselField c) (widthField c))
  | 0x05 => some (.unpack (cselField c) (widthField c))
  | 0x06 => some .encv
  | 0x07 => some .decv
  | 0x08 => some .encw
  | 0x09 => some .decw
  | 0x0A => some (.cdf (chField c) (srcField c))
  | 0x0B => some (.level (chField c) (dstField c))
  | 0x0C => some (.rstptr (c.getLsbD 24) (c.getLsbD 25))
  | _ => none

/-- OP, bits 7:0 (30_encoding.md R80). -/
def opField (c : Word) : Nat := Machine.field c 0 8

/-- The decoding procedure (30_encoding.md R83): the opcode, then the bits that must match, then the fields. -/
def decode (c : Word) : Except DecodeError Instr :=
  match rowMask (opField c), instrOf c (opField c) with
  | some mask, some i => if c &&& mask = BitVec.ofNat 32 (opField c) then .ok i else .error (.reservedBits (opField c))
  | _, _ => .error (.unknownOpcode (opField c))

/-- The opcode of an instruction (30_encoding.md R82). -/
def opcodeOf : Instr → Nat
  | .nop => 0x00
  | .config _ => 0x01
  | .enc _ _ _ => 0x02
  | .dec _ _ _ => 0x03
  | .pack _ _ => 0x04
  | .unpack _ _ => 0x05
  | .encv => 0x06
  | .decv => 0x07
  | .encw => 0x08
  | .decw => 0x09
  | .cdf _ _ => 0x0A
  | .level _ _ => 0x0B
  | .rstptr _ _ => 0x0C

/-- The operand fields of an instruction in their places (30_encoding.md R86). -/
def operandBits : Instr → Nat
  | .nop => 0
  | .config ch => Machine.channelNum ch * 2 ^ 8
  | .enc ch s j => Machine.channelNum ch * 2 ^ 8 + Machine.regNum s * 2 ^ 9 + Machine.codeNum j * 2 ^ 13
  | .dec ch d j => Machine.channelNum ch * 2 ^ 8 + Machine.regNum d * 2 ^ 11 + Machine.codeNum j * 2 ^ 13
  | .pack j w => Machine.codeNum j * 2 ^ 13 + (w - 1) * 2 ^ 16
  | .unpack j w => Machine.codeNum j * 2 ^ 13 + (w - 1) * 2 ^ 16
  | .encv => 0
  | .decv => 0
  | .encw => 0
  | .decw => 0
  | .cdf ch s => Machine.channelNum ch * 2 ^ 8 + Machine.regNum s * 2 ^ 9
  | .level ch d => Machine.channelNum ch * 2 ^ 8 + Machine.regNum d * 2 ^ 11
  | .rstptr pw pr => pw.toNat * 2 ^ 24 + pr.toNat * 2 ^ 25

/-- The command word of an instruction (30_encoding.md R86). -/
def encode (i : Instr) : Word := BitVec.ofNat 32 (opcodeOf i + operandBits i)

/-- What the decoder reads from a table row's word of `nbits` bits, the bits above them 0 (30_encoding.md R80: every
command is one 32-bit word, so a word is laid out as itself). -/
def decodeTableWord (nbits w : Nat) : Option Instr :=
  match decode (BitVec.ofNat 32 (w % 2 ^ nbits)) with
  | .ok i => some i
  | .error _ => none

end Sys2Proof
end

