-- ==== Sys2Proof/Machine/Binary32.lean ====
section
/-! DEFINITION. IEEE 754 binary32 patterns and the primitives of 00_scope.md R15, in exact integer arithmetic.
A finite value is an integer multiple of `2^−149`, the smallest subnormal; `scaled` is that integer. -/

namespace Sys2Proof.Machine

/-- The one NaN pattern the block writes (00_scope.md R15). -/
def qnan : Word := 0x7FC00000#32

/-- 1.0 (00_scope.md R15, `ONE`). -/
def one32 : Word := 0x3F800000#32

/-- The magnitude pattern of an infinity (00_scope.md R15). -/
def infMag : Nat := 0x7F800000

/-- The sign bit is 1 (00_scope.md R15). -/
def neg (v : Word) : Bool := v.getLsbD 31

/-- The biased exponent, bits 30:23 (00_scope.md R15). -/
def expo (v : Word) : Nat := field v 23 8

/-- The fraction, bits 22:0 (00_scope.md R15). -/
def frac (v : Word) : Nat := field v 0 23

/-- The pattern without its sign, bits 30:0. -/
def magnitude (v : Word) : Nat := field v 0 31

/-- Exponent all ones and fraction non-zero, quiet or signalling (00_scope.md R15). -/
def isNaN (v : Word) : Bool := expo v == 255 && frac v != 0

/-- Exponent all ones and fraction zero (00_scope.md R15). -/
def isInf (v : Word) : Bool := expo v == 255 && frac v == 0

/-- Neither NaN nor infinite. -/
def isFinite (v : Word) : Bool := expo v != 255

/-- Exponent and fraction zero (00_scope.md R15). -/
def isZero (v : Word) : Bool := expo v == 0 && frac v == 0

/-- `|v| × 2^149` of a finite `v`, exactly. -/
def scaledMag (v : Word) : Nat :=
  if expo v = 0 then frac v else (2 ^ 23 + frac v) * 2 ^ (expo v - 1)

/-- `v × 2^149` of a finite `v`, exactly. -/
def scaled (v : Word) : Int := if neg v then -(scaledMag v : Int) else (scaledMag v : Int)

/-- The real value of a finite `v`. -/
def realValue (v : Word) : ℚ := (scaled v : ℚ) / 2 ^ 149

/-- The rank of a non-NaN `v` in the real order, infinities included and `−0 = +0`
(00_scope.md R15: comparisons are on the real value). -/
def realRank (v : Word) : Int := if neg v then -(magnitude v : Int) else (magnitude v : Int)

/-- `real(a) ≤ real(b)` for non-NaN `a` and `b` (00_scope.md R15). -/
def le32 (a b : Word) : Bool := realRank a ≤ realRank b

/-- The pattern of a sign and a magnitude pattern. -/
def withSign (sign : Bool) (mag : Nat) : Word := BitVec.ofNat 32 (mag + if sign then 2 ^ 31 else 0)

/-- `n / d` rounded to the nearest integer, ties to even. -/
def roundHalfEven (n d : Nat) : Nat :=
  if 2 * (n % d) < d then n / d
  else if d < 2 * (n % d) then n / d + 1
  else n / d + (n / d) % 2

/-- The number of low bits that binary32 cannot hold of a magnitude of `n / d` units of `2^−149`. -/
def dropBits (n d : Nat) : Nat := Nat.log2 (n / d) - 23

/-- The magnitude pattern nearest to `n / d` units of `2^−149`, ties to even, subnormals kept, overflow to infinity
(00_scope.md R15). Patterns count upward by one unit in the last place, so a carry out of the fraction lands in
the exponent. -/
def roundMag (n d : Nat) : Nat :=
  min (dropBits n d * 2 ^ 23 + roundHalfEven n (d * 2 ^ dropBits n d)) infMag

/-- The binary32 quotient, nearest even (00_scope.md R15, `fdiv32`); a NaN or infinite divisor, a zero divisor and
`inf / inf` as in IEEE 754, PRESUMED and reached by no command (log entry 11). -/
def fdiv32 (a b : Word) : Word :=
  let sign := Bool.xor (neg a) (neg b)
  if isNaN a || isNaN b then qnan
  else if isInf a then (if isInf b then qnan else withSign sign infMag)
  else if isInf b then withSign sign 0
  else if isZero b then (if isZero a then qnan else withSign sign infMag)
  else withSign sign (roundMag (scaledMag a * 2 ^ 149) (scaledMag b))

/-- The binary32 product, nearest even (00_scope.md R15, `fmul32`); a NaN or infinite operand as in IEEE 754, PRESUMED
and reached by no command (log entry 11). -/
def fmul32 (a b : Word) : Word :=
  let sign := Bool.xor (neg a) (neg b)
  if isNaN a || isNaN b then qnan
  else if isInf a then (if isZero b then qnan else withSign sign infMag)
  else if isInf b then (if isZero a then qnan else withSign sign infMag)
  else withSign sign (roundMag (scaledMag a * scaledMag b) (2 ^ 149))

/-- The minimum of two weights, a NaN making it QNAN (42_weight.md R160, `fmin32`). -/
def fmin32 (a b : Word) : Word :=
  if isNaN a || isNaN b then qnan
  else if isZero a && isZero b then (if neg a || neg b then 0x80000000#32 else 0x00000000#32)
  else if le32 a b then a else b

/-- `validF(f)`: not NaN, not infinite, and a zero or not negative (41_quantizer.md R133). -/
def validFactor (f : Word) : Bool := !isNaN f && !isInf f && (isZero f || !neg f)

/-- `eff(f)`: 1.0 in place of a zero factor (41_quantizer.md R133). -/
def effFactor (f : Word) : Word := if isZero f then one32 else f

end Sys2Proof.Machine
end

