-- ==== Sys2Proof/Machine/Ideal.lean ====
section
/-! DEFINITION. The distributions (40_distribution.md R104, R105, R108, R109): the exact Uniform functions, the real
cumulative distribution functions, and the named properties Q1 to Q5 and T1 to T3 (R106, R107) that a pair of functions
CDFQ and INVT may have. Nothing here is run on a non-Uniform kind: the real functions stand in propositions only. -/

namespace Sys2Proof

/-- The distribution kinds (40_distribution.md R108), numbered 0 to 3. -/
inductive DistKind
  | uniform
  | gaussian
  | truncatedGaussian
  | studentsT
deriving DecidableEq, Repr

end Sys2Proof

namespace Sys2Proof.Machine

/-- The kind a DIST field names; none for 4 to 7, which CONFIG rejects (10_state.md R29, 40_distribution.md R101). -/
def kindOfNum : Nat → Option DistKind
  | 0 => some .uniform
  | 1 => some .gaussian
  | 2 => some .truncatedGaussian
  | 3 => some .studentsT
  | _ => none

/-- The kind has a parameter that CONFIG checks (40_distribution.md R100, R101). -/
def kindHasParam : DistKind → Bool
  | .uniform => false
  | .gaussian => false
  | .truncatedGaussian => true
  | .studentsT => true

/-- The parameter is finite and greater than 0 (40_distribution.md R100, R101). -/
def positiveFinite (p : Word) : Bool := !isNaN p && !isInf p && !isZero p && !neg p

/-- The parameter is one that CONFIG accepts for the kind (40_distribution.md R101). -/
def paramOk (k : DistKind) (p : Word) : Bool := !kindHasParam k || positiveFinite p

/-- CDFQ of kind Uniform, exact (40_distribution.md R104): `floor((x + 1) / 2 × 2^32)` with `x = scaled x / 2^149`. -/
def uniformCdf (x : Word) : Word :=
  if le32 x 0xBF800000#32 then 0x00000000#32
  else if le32 one32 x then 0xFFFFFFFF#32
  else BitVec.ofNat 32 ((scaled x + 2 ^ 149).toNat / 2 ^ 118)

/-- INVT of kind Uniform, exact (40_distribution.md R105): `(2i + 1) / 2^b − 1`. -/
def uniformInv (b i : Nat) : Word :=
  let num : Int := 2 * (i : Int) + 1 - 2 ^ b
  withSign (decide (num < 0)) (roundMag (num.natAbs * 2 ^ (149 - b)) 1)

/-! ## The real cumulative distribution functions (40_distribution.md R108) -/

/-- `y = Φ(x) = (1 + erf(x / √2)) / 2` with `erf z = 2 / √π × ∫ e^(−u²)` over `[0, z]` (40_distribution.md R108, kind 1;
the integral form of erf is PRESUMED, log entry 12). -/
def IsPhi (x y : ℝ) : Prop :=
  y = (1 + 2 / Real.sqrt Real.pi * ∫ u in (0 : ℝ)..(x / Real.sqrt 2), Real.exp (-(u ^ 2))) / 2

/-- `r = I_z(a, b)`, the regularized incomplete beta function, as a quotient of integrals
(40_distribution.md R108, kind 3; the integral form is PRESUMED, log entry 12). -/
def IsRegIncBeta (z a b r : ℝ) : Prop :=
  r = (∫ u in (0 : ℝ)..z, u ^ (a - 1) * (1 - u) ^ (b - 1)) / ∫ u in (0 : ℝ)..1, u ^ (a - 1) * (1 - u) ^ (b - 1)

/-- `y = F(x)` for Student's t with `ν` degrees of freedom and `x ≥ 0` (40_distribution.md R108, kind 3). -/
def IsStudentUpper (nu x y : ℝ) : Prop :=
  ∃ r, IsRegIncBeta (nu / (nu + x ^ 2)) (nu / 2) (1 / 2) r ∧ y = 1 - r / 2

/-- `y = F(x)` for the kind with real parameter `p` (40_distribution.md R108, R109). -/
def IsCdf (k : DistKind) (p x y : ℝ) : Prop :=
  match k with
  | .uniform => (x ≤ -1 ∧ y = 0) ∨ (-1 < x ∧ x < 1 ∧ y = (x + 1) / 2) ∨ (1 ≤ x ∧ y = 1)
  | .gaussian => IsPhi x y
  | .truncatedGaussian =>
      (x ≤ -p ∧ y = 0) ∨ (p ≤ x ∧ y = 1) ∨
        (-p < x ∧ x < p ∧ ∃ fx lo hi, IsPhi x fx ∧ IsPhi (-p) lo ∧ IsPhi p hi ∧ y = (fx - lo) / (hi - lo))
  | .studentsT => (0 ≤ x ∧ IsStudentUpper p x y) ∨ (x < 0 ∧ IsStudentUpper p (-x) (1 - y))

/-- `CDFQ*`: the ideal probability code of a probability (40_distribution.md R106). -/
def IsIdealCode (y : ℝ) (code : Int) : Prop := code = min ⌊y * 2 ^ 32⌋ 0xFFFFFFFF

/-- `w` is the finite binary32 value nearest to `z`, ties to even, so it saturates at the largest finite value
(40_distribution.md R107, `INVT*`). -/
def IsNearestFinite (z : ℝ) (w : Word) : Prop :=
  isFinite w = true ∧ ∀ v : Word, isFinite v = true →
    |(realValue w : ℝ) - z| ≤ |(realValue v : ℝ) - z| ∧
      (|(realValue w : ℝ) - z| = |(realValue v : ℝ) - z| → realValue w ≠ realValue v → frac w % 2 = 0)

/-! ## The functions of a distribution and their named properties (40_distribution.md R106, R107) -/

/-- CDFQ and INVT with their error bounds CDF_TOL (probability-code units) and INV_TOL (real units)
(00_scope.md R10, R11, 92_eei_decisions.md D17). (Q1) and the first half of (T1), that they are total and read only their
arguments, is their type. -/
structure DistFns where
  cdfq : DistKind → Word → Word → Word
  invt : DistKind → Word → Nat → Nat → Word
  cdfTol : Nat
  invTol : ℚ

/-- (Q2) monotone in the real order (40_distribution.md R106). -/
def DistFns.Monotone (d : DistFns) (k : DistKind) (p : Word) : Prop :=
  ∀ x y : Word, isNaN x = false → isNaN y = false → realRank x ≤ realRank y → (d.cdfq k p x).toNat ≤ (d.cdfq k p y).toNat

/-- (Q3) the values at the ends (40_distribution.md R106). -/
def DistFns.Ends (d : DistFns) (k : DistKind) (p : Word) : Prop :=
  d.cdfq k p 0xFF800000#32 = 0x00000000#32 ∧ d.cdfq k p 0x7F800000#32 = 0xFFFFFFFF#32 ∧
    (k = .truncatedGaussian → ∀ x : Word, isNaN x = false →
      (realRank x ≤ -realRank p → d.cdfq k p x = 0x00000000#32) ∧
        (realRank p ≤ realRank x → d.cdfq k p x = 0xFFFFFFFF#32))

/-- (Q4) accurate (40_distribution.md R106). -/
def DistFns.CdfAccurate (d : DistFns) (k : DistKind) (p : Word) : Prop :=
  ∀ (x : Word) (y : ℝ) (code : Int), isFinite x = true → IsCdf k (realValue p : ℝ) (realValue x : ℝ) y →
    0 ≤ y → y ≤ 1 → IsIdealCode y code → |((d.cdfq k p x).toNat : Int) - code| ≤ d.cdfTol

/-- The largest finite binary32 value (40_distribution.md R107). -/
def maxFinite : Word := 0x7F7FFFFF#32

/-- The least finite binary32 value (40_distribution.md R107). -/
def minFinite : Word := 0xFF7FFFFF#32

/-- There are enough binary32 values between `−t` and `t` for the `2^b` bins; with fewer, (Q2), (Q3) and (Q5) contradict
each other (log entry 9). -/
def binsFit (k : DistKind) (p : Word) (b : Nat) : Bool :=
  match k with
  | .truncatedGaussian => 2 ^ (b - 1) ≤ magnitude p
  | _ => true

/-- The quantile `F^{−1}((2i + 1) / 2^(b+1))` of entry `i` is above the largest finite value (40_distribution.md R107). -/
def QuantileAbove (k : DistKind) (p : Word) (b i : Nat) : Prop :=
  ∃ z : ℝ, (realValue maxFinite : ℝ) < z ∧ IsCdf k (realValue p : ℝ) z ((2 * (i : ℝ) + 1) / 2 ^ (b + 1))

/-- The quantile of entry `i` is below the least finite value (40_distribution.md R107). -/
def QuantileBelow (k : DistKind) (p : Word) (b i : Nat) : Prop :=
  ∃ z : ℝ, z < (realValue minFinite : ℝ) ∧ IsCdf k (realValue p : ℝ) z ((2 * (i : ℝ) + 1) / 2 ^ (b + 1))

/-- (T1) saturates entry `i` to the same value as another entry that (Q5) is asked of. -/
def SharesSaturation (k : DistKind) (p : Word) (b i : Nat) : Prop :=
  ∃ j : Nat, j ≠ i ∧ j + 2 ≤ 2 ^ b ∧
    ((QuantileAbove k p b i ∧ QuantileAbove k p b j) ∨ (QuantileBelow k p b i ∧ QuantileBelow k p b j))

/-- (Q5) is asked of entry `i` as the rule writes it: everywhere but where it contradicts the other properties. It does
for TruncatedGaussian where the bins do not fit (log entry 9), and where the quantiles of two entries leave the binary32
range on one side, as for StudentsT with a very small `ν`: (T1) saturates both entries to one value (90_conflicts.md C4),
which cannot lie in two bins. That (Q5) yields there to the saturation is DESIGN CHOICE (log entry 19). -/
def OwnBin (k : DistKind) (p : Word) (b i : Nat) : Prop := binsFit k p b = true ∧ ¬SharesSaturation k p b i

/-- The bin of CDFQ of entry `i`. -/
def DistFns.binOf (d : DistFns) (k : DistKind) (p : Word) (b i : Nat) : Nat :=
  (d.cdfq k p (d.invt k p b i)).toNat / 2 ^ (32 - b)

/-- (Q5) CDFQ of a table entry lies in the entry's bin (40_distribution.md R106). Where (Q5) contradicts the other
properties, only what R113 needs is asked: it lies in a bin below the top one with the same entry (DESIGN CHOICE, log
entries 9 and 19). -/
def DistFns.BinConsistent (d : DistFns) (k : DistKind) (p : Word) : Prop :=
  ∀ b i : Nat, 2 ≤ b → b ≤ 16 → i + 2 ≤ 2 ^ b →
    (OwnBin k p b i → d.binOf k p b i = i) ∧
      d.binOf k p b i + 2 ≤ 2 ^ b ∧ d.invt k p b (d.binOf k p b i) = d.invt k p b i

/-- (T1) every entry is finite (40_distribution.md R107). -/
def DistFns.EntriesFinite (d : DistFns) (k : DistKind) (p : Word) : Prop :=
  ∀ b i : Nat, 2 ≤ b → b ≤ 16 → i < 2 ^ b → isFinite (d.invt k p b i) = true

/-- (T1) a value beyond the binary32 range saturates: where the quantile `F^{−1}((2i + 1) / 2^(b+1))` is above the largest
finite value or below the least, the entry is that value (40_distribution.md R107, 92_eei_decisions.md D18; that the value
is the exact quantile is DEDUCED, log entry 20). -/
def DistFns.EntriesSaturate (d : DistFns) (k : DistKind) (p : Word) : Prop :=
  ∀ b i : Nat, 2 ≤ b → b ≤ 16 → i < 2 ^ b →
    (QuantileAbove k p b i → d.invt k p b i = maxFinite) ∧ (QuantileBelow k p b i → d.invt k p b i = minFinite)

/-- (T2) the entries do not decrease (40_distribution.md R107). -/
def DistFns.EntriesSorted (d : DistFns) (k : DistKind) (p : Word) : Prop :=
  ∀ b i : Nat, 2 ≤ b → b ≤ 16 → i + 1 < 2 ^ b → realRank (d.invt k p b i) ≤ realRank (d.invt k p b (i + 1))

/-- (T3) accurate (40_distribution.md R107): `z` is the quantile `F^{−1}((2i + 1) / 2^(b+1))`. -/
def DistFns.InvAccurate (d : DistFns) (k : DistKind) (p : Word) : Prop :=
  ∀ (b i : Nat) (z : ℝ) (w : Word), 2 ≤ b → b ≤ 16 → i < 2 ^ b →
    IsCdf k (realValue p : ℝ) z ((2 * (i : ℝ) + 1) / 2 ^ (b + 1)) → IsNearestFinite z w →
    |realValue (d.invt k p b i) - realValue w| ≤ d.invTol

/-- The parameter of a kind without one is not used (40_distribution.md R100, 10_state.md R32, 92_eei_decisions.md D19). -/
def DistFns.ParamUnused (d : DistFns) (k : DistKind) (p : Word) : Prop :=
  kindHasParam k = false → ∀ q : Word, (∀ x, d.cdfq k p x = d.cdfq k q x) ∧ ∀ b i, d.invt k p b i = d.invt k q b i

/-- All the named properties for one kind and parameter. -/
structure DistFns.Lawful (d : DistFns) (k : DistKind) (p : Word) : Prop where
  monotone : d.Monotone k p
  ends : d.Ends k p
  cdfAccurate : d.CdfAccurate k p
  binConsistent : d.BinConsistent k p
  entriesFinite : d.EntriesFinite k p
  entriesSaturate : d.EntriesSaturate k p
  entriesSorted : d.EntriesSorted k p
  invAccurate : d.InvAccurate k p
  paramUnused : d.ParamUnused k p

/-- What the model assumes of the open functions: the named properties, for every non-Uniform kind and every parameter
that CONFIG accepts (40_distribution.md R100, R106, R107, log entries 8 to 10, 19, 20). -/
def DistFns.Legal (d : DistFns) : Prop :=
  ∀ (k : DistKind) (p : Word), k ≠ .uniform → paramOk k p = true → d.Lawful k p

end Sys2Proof.Machine
end

