-- ==== Sys2Proof/Machine/StudentTail.lean ====
section
/-! DEFINITION. The real tail of Student's t (40_distribution.md R108, kind 3): the integral under its distribution
function takes every value up to its whole, so beyond any point the tail has a quantile for every smaller tail mass. The
existence proof of Machine/OpenDist.lean rests on it; no meaning does. -/

namespace Sys2Proof.Machine

open MeasureTheory intervalIntegral

/-- The integrand of the incomplete beta function with second parameter 1/2. -/
noncomputable def betaDensity (a u : ℝ) : ℝ := u ^ (a - 1) * (1 - u) ^ ((1 / 2 : ℝ) - 1)

theorem betaDensity_nonneg {a u : ℝ} (h0 : 0 ≤ u) (h1 : u ≤ 1) : 0 ≤ betaDensity a u :=
  mul_nonneg (Real.rpow_nonneg h0 _) (Real.rpow_nonneg (by linarith) _)

theorem integrable_low {a c : ℝ} (ha : 0 < a) (hc0 : 0 ≤ c) (hc : c < 1) :
    IntervalIntegrable (betaDensity a) volume 0 c := by
  apply (intervalIntegrable_rpow' (by linarith)).mul_continuousOn
  intro u hu
  rw [Set.uIcc_of_le hc0] at hu
  apply ContinuousAt.continuousWithinAt
  exact ContinuousAt.rpow_const (by fun_prop) (.inl (by linarith [hu.2]))

theorem integrable_high {a c : ℝ} (hc0 : 0 < c) (hc : c ≤ 1) : IntervalIntegrable (betaDensity a) volume c 1 := by
  have h : IntervalIntegrable (fun u : ℝ => (1 - u) ^ ((1 / 2 : ℝ) - 1)) volume c 1 := by
    have := (intervalIntegrable_rpow' (a := 1 - c) (b := 1 - 1) (r := (1 / 2 : ℝ) - 1) (by norm_num)).comp_sub_left 1
    simpa using this
  apply h.continuousOn_mul
  intro u hu
  rw [Set.uIcc_of_le hc] at hu
  apply ContinuousAt.continuousWithinAt
  exact ContinuousAt.rpow_const continuousAt_id (.inl (by simp; linarith [hu.1]))

/-- The mass takes every value on the way up to `x0`. -/
theorem exists_mass {a x0 m : ℝ} (ha : 0 < a) (h0 : 0 ≤ x0) (h1 : x0 < 1) (hm : 0 < m)
    (hle : m ≤ ∫ u in (0 : ℝ)..x0, betaDensity a u) :
    ∃ x, 0 < x ∧ x ≤ x0 ∧ ∫ u in (0 : ℝ)..x, betaDensity a u = m := by
  have hcont : ContinuousOn (fun x => ∫ u in (0 : ℝ)..x, betaDensity a u) (Set.Icc 0 x0) := by
    have hint := integrable_low ha h0 h1
    rw [intervalIntegrable_iff_integrableOn_Icc_of_le h0, ← Set.uIcc_of_le h0] at hint
    simpa only [Set.uIcc_of_le h0] using continuousOn_primitive_interval hint
  obtain ⟨x, hx, hxe⟩ := intermediate_value_Icc h0 hcont (show m ∈ _ from ⟨by simpa using hm.le, hle⟩)
  refine ⟨x, lt_of_le_of_ne hx.1 ?_, hx.2, hxe⟩
  rintro rfl
  simp only [integral_same] at hxe
  linarith

/-- The point of the right half whose argument of the incomplete beta function is `x`. -/
theorem studentUpper_of_mass {nu x r : ℝ} (hnu : 0 < nu) (hx0 : 0 < x) (hx1 : x < 1)
    (hr : r = (∫ u in (0 : ℝ)..x, betaDensity (nu / 2) u) / ∫ u in (0 : ℝ)..1, betaDensity (nu / 2) u) :
    IsStudentUpper nu (Real.sqrt (nu * (1 - x) / x)) (1 - r / 2) := by
  have hz : 0 ≤ nu * (1 - x) / x := div_nonneg (mul_nonneg hnu.le (by linarith)) hx0.le
  have hx : nu / (nu + Real.sqrt (nu * (1 - x) / x) ^ 2) = x := by
    rw [Real.sq_sqrt hz]
    field_simp
    ring
  exact ⟨r, by rw [hx]; exact hr, rfl⟩

/-- Beyond any point of the right half, the distribution function takes every value between that of a point there and 1. -/
theorem student_tail_closed {nu c z y y' : ℝ} (hnu : 0 < nu) (hc : 0 ≤ c) (hz : c < z) (h : IsStudentUpper nu z y)
    (hy : y ≤ y') (hy' : y' < 1) : ∃ z', c < z' ∧ IsStudentUpper nu z' y' := by
  obtain ⟨r, hr, rfl⟩ := h
  have hz0 : 0 < z := lt_of_le_of_lt hc hz
  have hden : 0 < nu + z ^ 2 := by positivity
  obtain ⟨w, hw⟩ : ∃ w, w = nu / (nu + z ^ 2) := ⟨_, rfl⟩
  have hw0 : 0 < w := by rw [hw]; positivity
  have hw1 : w < 1 := by
    rw [hw, div_lt_one hden]
    have : 0 < z ^ 2 := by positivity
    linarith
  have hr' : r = (∫ u in (0 : ℝ)..w, betaDensity (nu / 2) u) / ∫ u in (0 : ℝ)..1, betaDensity (nu / 2) u := by
    rw [hw]
    exact hr
  have hH : 0 ≤ ∫ u in (0 : ℝ)..w, betaDensity (nu / 2) u := integral_nonneg hw0.le fun u hu =>
    betaDensity_nonneg hu.1 (le_trans hu.2 hw1.le)
  generalize hwhole : (∫ u in (0 : ℝ)..1, betaDensity (nu / 2) u) = whole at hr'
  have hpos : 0 < whole := by
    have hrpos : 0 < (∫ u in (0 : ℝ)..w, betaDensity (nu / 2) u) / whole := by
      rw [← hr']
      linarith
    rcases div_pos_iff.1 hrpos with h | h
    · exact h.2
    · linarith [h.1]
  have hle : 2 * (1 - y') * whole ≤ ∫ u in (0 : ℝ)..w, betaDensity (nu / 2) u := by
    rw [← le_div_iff₀ hpos, ← hr']
    linarith
  obtain ⟨x, hx0, hxw, hxe⟩ := exists_mass (half_pos hnu) hw0.le hw1 (mul_pos (by linarith) hpos) hle
  have hx1 : x < 1 := lt_of_le_of_lt hxw hw1
  refine ⟨Real.sqrt (nu * (1 - x) / x), lt_of_lt_of_le hz (Real.le_sqrt_of_sq_le ?_), ?_⟩
  · rw [le_div_iff₀ hx0]
    have h1 : z ^ 2 * w = nu * (1 - w) := by
      rw [hw]
      field_simp
      ring
    have h2 : z ^ 2 * x ≤ z ^ 2 * w := mul_le_mul_of_nonneg_left hxw (by positivity)
    have h3 : nu * x ≤ nu * w := mul_le_mul_of_nonneg_left hxw hnu.le
    linarith
  · have := studentUpper_of_mass (r := 2 * (1 - y')) hnu hx0 hx1 (by
      rw [hxe, hwhole, mul_div_assoc, div_self hpos.ne', mul_one])
    rwa [show 1 - 2 * (1 - y') / 2 = y' by ring] at this

end Sys2Proof.Machine
end

