-- ==== Sys2Proof/Machine/OpenDist.lean ====
section
/-! DEFINITION. The named properties of 40_distribution.md R106 and R107 can be met together: a pair of functions that
has them. It shows that the type of `Config.openDist` is not empty and is used for nothing else: no meaning reads it, no
value of it is the block's, and it cannot be evaluated. -/

namespace Sys2Proof.Machine

/-- The pattern of a rank. -/
def ofRank (j : Int) : Word := withSign (decide (j < 0)) j.natAbs

/-- A CDF linear in the rank over `[−h, h]`. -/
def rankCdf (h : Nat) (x : Word) : Word :=
  if realRank x ≤ -(h : Int) then 0x00000000#32
  else if (h : Int) ≤ realRank x then 0xFFFFFFFF#32
  else BitVec.ofNat 32 ((realRank x + h).toNat * 2 ^ 32 / (2 * h))

/-- How far above the lowest rank of `[−h, h]` the highest rank of bin `i` lies, or of the nearest bin below it that has
a rank. -/
def binTop (h b i : Nat) : Nat := ((i + 1) * (2 * h) - 1) / 2 ^ b

/-- The half-width of the rank-linear witness for a kind and parameter. -/
def witnessHalf (k : DistKind) (p : Word) : Nat := if k = .truncatedGaussian then magnitude p else infMag

/-- The entry of a bin that is linear in the rank. -/
def rankInv (h b i : Nat) : Word := ofRank ((binTop h b i : Int) - h)

/-- The least depth at which the last entry that (Q5) is asked of saturates; 17 where there is none. -/
noncomputable def saturationDepth (p : Word) : Nat :=
  sInf ({b | 2 ≤ b ∧ QuantileAbove .studentsT p b (2 ^ b - 2)} ∪ {17})

/-- The greatest code that the witness CDF of StudentsT gives a finite value: the last of the second bin from the top at
the least depth that saturates, so that it lies below the top bin at every depth that does. -/
noncomputable def studentTop (p : Word) : Nat := 2 ^ 32 - 1 - 2 ^ (32 - saturationDepth p)

/-- The witness CDF of StudentsT: linear in the rank, up to its greatest code. -/
noncomputable def studentCdf (p x : Word) : Word :=
  if (infMag : Int) ≤ realRank x then 0xFFFFFFFF#32
  else BitVec.ofNat 32 (min (rankCdf infMag x).toNat (studentTop p))

open Classical in
/-- The witness entries of StudentsT: saturated exactly where (T1) asks it, and linear in the rank elsewhere. -/
noncomputable def studentInv (p : Word) (b i : Nat) : Word :=
  if QuantileAbove .studentsT p b i then maxFinite
  else if QuantileBelow .studentsT p b i then minFinite
  else rankInv infMag b i

/-- A pair of functions with every named property. -/
noncomputable def witnessDist : DistFns where
  cdfq k p x := if k = .studentsT then studentCdf p x else rankCdf (witnessHalf k p) x
  invt k p b i := if k = .studentsT then studentInv p b i else rankInv (witnessHalf k p) b i
  cdfTol := 2 ^ 32
  invTol := 2 ^ 130

theorem withSign_toNat (s : Bool) (m : Nat) (h : m < 2 ^ 31) :
    (withSign s m).toNat = m + if s then 2 ^ 31 else 0 := by
  unfold withSign
  cases s
  · simp; omega
  · simp; omega

theorem magnitude_eq (v : Word) : magnitude v = v.toNat % 2 ^ 31 := by
  simp [magnitude, field]

theorem neg_eq (v : Word) : neg v = decide (2 ^ 31 ≤ v.toNat) := by
  unfold neg
  have := v.isLt
  rw [show v.getLsbD 31 = v.msb by simp [BitVec.msb_eq_getLsbD_last]]
  rw [BitVec.msb_eq_decide]

theorem expo_eq (v : Word) : expo v = v.toNat % 2 ^ 31 / 2 ^ 23 := by
  simp [expo, field, Nat.shiftRight_eq_div_pow]
  omega

theorem frac_eq (v : Word) : frac v = v.toNat % 2 ^ 23 := by
  simp [frac, field]

theorem magnitude_withSign (s : Bool) (m : Nat) (h : m < 2 ^ 31) : magnitude (withSign s m) = m := by
  rw [magnitude_eq, withSign_toNat s m h]
  cases s <;> simp <;> omega

theorem neg_withSign (s : Bool) (m : Nat) (h : m < 2 ^ 31) : neg (withSign s m) = s := by
  rw [neg_eq, withSign_toNat s m h]
  cases s <;> simp <;> omega

theorem realRank_ofRank (j : Int) (h : j.natAbs < 2 ^ 31) : realRank (ofRank j) = j := by
  unfold realRank ofRank
  rw [neg_withSign _ _ h, magnitude_withSign _ _ h]
  by_cases hj : j < 0
  · rw [decide_eq_true hj, if_pos rfl]; omega
  · rw [decide_eq_false hj, if_neg (by simp)]; omega

theorem isFinite_iff (v : Word) : isFinite v = true ↔ magnitude v < infMag := by
  unfold isFinite infMag
  rw [expo_eq, magnitude_eq]
  simp
  omega

theorem isNaN_iff (v : Word) : isNaN v = true ↔ infMag < magnitude v := by
  unfold isNaN infMag
  rw [expo_eq, magnitude_eq, frac_eq]
  simp
  omega

theorem rankCdf_toNat_le (h : Nat) {x y : Word} (hxy : realRank x ≤ realRank y) :
    (rankCdf h x).toNat ≤ (rankCdf h y).toNat := by
  unfold rankCdf
  split_ifs with h1 h2 h3 h4 h5 h6 h7 h8 <;> try (simp; done)
  all_goals try omega
  · exact Nat.le_of_lt_succ (by simpa using (BitVec.isLt (BitVec.ofNat 32 _)))
  · have hb : ∀ z : Int, -(h : Int) < z → z < h → (z + h).toNat * 2 ^ 32 / (2 * h) < 2 ^ 32 := by
      intro z hz1 hz2
      rw [Nat.div_lt_iff_lt_mul (by omega)]
      have : (z + h).toNat < 2 * h := by omega
      nlinarith
    rw [BitVec.toNat_ofNat, BitVec.toNat_ofNat, Nat.mod_eq_of_lt (hb _ (by omega) (by omega)),
      Nat.mod_eq_of_lt (hb _ (by omega) (by omega))]
    apply Nat.div_le_div_right
    apply Nat.mul_le_mul_right
    omega

theorem scaledMag_le (v : Word) (hv : isFinite v = true) : scaledMag v < 2 ^ 277 := by
  unfold isFinite at hv
  have he : expo v < 255 := by
    have : expo v < 256 := by rw [expo_eq]; omega
    simp at hv
    omega
  have hf : frac v < 2 ^ 23 := by rw [frac_eq]; omega
  unfold scaledMag
  split_ifs with h0
  · exact lt_trans hf (Nat.pow_lt_pow_right (by norm_num) (by norm_num))
  · calc (2 ^ 23 + frac v) * 2 ^ (expo v - 1) < 2 ^ 24 * 2 ^ (expo v - 1) := by
          apply Nat.mul_lt_mul_of_pos_right <;> [omega; positivity]
      _ ≤ 2 ^ 24 * 2 ^ 253 := Nat.mul_le_mul_left _ (Nat.pow_le_pow_right (by norm_num) (by omega))
      _ = 2 ^ 277 := by rw [← pow_add]

theorem abs_realValue_le (v : Word) (hv : isFinite v = true) : |realValue v| ≤ 2 ^ 128 := by
  have h := scaledMag_le v hv
  have hs : |(scaled v : ℚ)| = (scaledMag v : ℚ) := by
    unfold scaled
    split_ifs <;> simp
  unfold realValue
  rw [abs_div, hs, abs_of_pos (by positivity : (0 : ℚ) < 2 ^ 149), div_le_iff₀ (by positivity)]
  have : (scaledMag v : ℚ) < 2 ^ 277 := by exact_mod_cast h
  calc (scaledMag v : ℚ) ≤ 2 ^ 277 := le_of_lt this
    _ = 2 ^ 128 * 2 ^ 149 := by rw [← pow_add]

theorem magnitude_pos_of_positiveFinite {p : Word} (h : positiveFinite p = true) :
    0 < magnitude p ∧ magnitude p < infMag ∧ realRank p = magnitude p := by
  simp only [positiveFinite, Bool.and_eq_true, Bool.not_eq_true'] at h
  obtain ⟨⟨⟨hn, hi⟩, hz⟩, hg⟩ := h
  have e := expo_eq p
  have f := frac_eq p
  have m := magnitude_eq p
  simp only [isNaN, isInf, isZero, Bool.and_eq_false_iff, beq_eq_false_iff_ne, bne_eq_false_iff_eq, ne_eq] at hn hi hz
  refine ⟨?_, ?_, by simp [realRank, hg]⟩
  · omega
  · unfold infMag; omega

theorem witnessHalf_pos (k : DistKind) (p : Word) (hp : paramOk k p = true) : 0 < witnessHalf k p := by
  unfold witnessHalf
  split_ifs with h
  · subst h
    exact (magnitude_pos_of_positiveFinite (by simpa [paramOk, kindHasParam] using hp)).1
  · simp [infMag]

theorem witnessHalf_le (k : DistKind) (p : Word) (hp : paramOk k p = true) : witnessHalf k p ≤ infMag := by
  unfold witnessHalf
  split_ifs with h
  · subst h
    exact le_of_lt (magnitude_pos_of_positiveFinite (by simpa [paramOk, kindHasParam] using hp)).2.1
  · exact le_refl _

theorem binTop_spec (h b i : Nat) (hh : 0 < h) :
    binTop h b i * 2 ^ b < (i + 1) * (2 * h) ∧ (i + 1) * (2 * h) ≤ (binTop h b i + 1) * 2 ^ b := by
  have hb : 0 < 2 ^ b := by positivity
  have hpos : 0 < (i + 1) * (2 * h) := by positivity
  unfold binTop
  have h1 := Nat.div_add_mod ((i + 1) * (2 * h) - 1) (2 ^ b)
  have h2 := Nat.mod_lt ((i + 1) * (2 * h) - 1) hb
  rw [Nat.mul_comm] at h1
  have h3 := Nat.succ_mul (((i + 1) * (2 * h) - 1) / 2 ^ b) (2 ^ b)
  simp only [Nat.succ_eq_add_one] at h3
  rw [h3]
  omega

theorem binTop_mono (h b : Nat) {i j : Nat} (hij : i ≤ j) : binTop h b i ≤ binTop h b j := by
  unfold binTop
  apply Nat.div_le_div_right
  have : (i + 1) * (2 * h) ≤ (j + 1) * (2 * h) := Nat.mul_le_mul_right _ (by omega)
  omega

theorem binTop_lt (h b i : Nat) (hh : 0 < h) (hi : i < 2 ^ b) : binTop h b i < 2 * h := by
  by_contra hc
  have h3 : 2 * h * 2 ^ b ≤ binTop h b i * 2 ^ b := Nat.mul_le_mul_right _ (by omega)
  have h4 : (i + 1) * (2 * h) ≤ 2 ^ b * (2 * h) := Nat.mul_le_mul_right _ (by omega)
  have h5 := (binTop_spec h b i hh).1
  rw [Nat.mul_comm (2 ^ b)] at h4
  omega

/-- The bin of the code of the rank `u` above the lowest of `2h`. -/
theorem binOf_rank (h b u : Nat) (hb : b ≤ 32) :
    u * 2 ^ 32 / (2 * h) / 2 ^ (32 - b) = u * 2 ^ b / (2 * h) := by
  have hM : 0 < 2 ^ (32 - b) := by positivity
  have hpow : 2 ^ 32 = 2 ^ b * 2 ^ (32 - b) := by rw [← pow_add]; congr 1; omega
  rw [Nat.div_div_eq_div_mul, hpow, ← Nat.mul_assoc, Nat.mul_div_mul_right _ _ hM]

/-- The highest rank of a bin lies in a bin with the same highest rank, and in its own where every bin has a rank. -/
theorem binTop_bin (h b i : Nat) (hh : 0 < h) :
    binTop h b i * 2 ^ b / (2 * h) ≤ i ∧ binTop h b (binTop h b i * 2 ^ b / (2 * h)) = binTop h b i ∧
      (2 ^ b ≤ 2 * h → binTop h b i * 2 ^ b / (2 * h) = i) := by
  obtain ⟨h1, h2⟩ := binTop_spec h b i hh
  have hb : 0 < 2 ^ b := by positivity
  have hle : binTop h b i * 2 ^ b / (2 * h) ≤ i :=
    Nat.le_of_lt_succ ((Nat.div_lt_iff_lt_mul (by omega)).2 h1)
  refine ⟨hle, Nat.le_antisymm (binTop_mono h b hle) ?_, fun hfit => Nat.le_antisymm hle ?_⟩
  · have h3 := Nat.lt_div_mul_add (a := binTop h b i * 2 ^ b) (b := 2 * h) (by omega)
    rw [← Nat.succ_mul, Nat.succ_eq_add_one] at h3
    rw [show binTop h b (binTop h b i * 2 ^ b / (2 * h)) =
      ((binTop h b i * 2 ^ b / (2 * h) + 1) * (2 * h) - 1) / 2 ^ b from rfl, Nat.le_div_iff_mul_le hb]
    omega
  · rw [Nat.le_div_iff_mul_le (by omega)]
    have h3 := Nat.succ_mul (binTop h b i) (2 ^ b)
    have h4 := Nat.succ_mul i (2 * h)
    simp only [Nat.succ_eq_add_one] at h3 h4
    omega

theorem witness_studentInv (p : Word) (b i : Nat) : witnessDist.invt .studentsT p b i = studentInv p b i := by
  simp [witnessDist]

theorem witness_studentCdf (p x : Word) : witnessDist.cdfq .studentsT p x = studentCdf p x := by
  simp [witnessDist]

theorem two_pow_le_of_le (b : Nat) (h : b ≤ 16) : 2 ^ b ≤ 65536 := by
  calc 2 ^ b ≤ 2 ^ 16 := Nat.pow_le_pow_right (by norm_num) h
    _ = 65536 := by norm_num

/-- Every rank-linear witness entry is a finite value. -/
theorem witness_rank (k : DistKind) (p : Word) (hp : paramOk k p = true) (b i : Nat) (hb : b ≤ 16) (hi : i < 2 ^ b) :
    ((binTop (witnessHalf k p) b i : Int) - witnessHalf k p).natAbs < infMag := by
  have hpos := witnessHalf_pos k p hp
  have hle := witnessHalf_le k p hp
  have hlt := binTop_lt _ b i hpos hi
  by_cases hk : k = .truncatedGaussian
  · subst hk
    have hm := magnitude_pos_of_positiveFinite (p := p) (by simpa [paramOk, kindHasParam] using hp)
    simp only [witnessHalf, if_true] at *
    omega
  · have hinf : witnessHalf k p = infMag := by simp [witnessHalf, hk]
    rw [hinf] at hlt ⊢
    have h16 := two_pow_le_of_le b hb
    have h2 := (binTop_spec infMag b i (by norm_num [infMag])).2
    have : 0 < binTop infMag b i := by
      by_contra hc
      have h0 : binTop infMag b i = 0 := by omega
      rw [h0] at h2
      have : 1 * (2 * infMag) ≤ (i + 1) * (2 * infMag) := Nat.mul_le_mul_right _ (by omega)
      unfold infMag at *
      omega
    omega

/-- Every rank-linear witness entry is finite and has its rank. -/
theorem rankInv_spec (k : DistKind) (p : Word) (hp : paramOk k p = true) (b i : Nat) (hb : b ≤ 16) (hi : i < 2 ^ b) :
    isFinite (rankInv (witnessHalf k p) b i) = true ∧
      realRank (rankInv (witnessHalf k p) b i) = (binTop (witnessHalf k p) b i : Int) - witnessHalf k p := by
  have h := witness_rank k p hp b i hb hi
  have hlt := lt_trans h (by norm_num [infMag] : infMag < 2 ^ 31)
  refine ⟨?_, realRank_ofRank _ hlt⟩
  rw [isFinite_iff]
  show magnitude (withSign _ _) < _
  rw [magnitude_withSign _ _ hlt]
  exact h

theorem witness_invt (k : DistKind) (p : Word) (hk : k ≠ .studentsT) (b i : Nat) :
    witnessDist.invt k p b i = rankInv (witnessHalf k p) b i := if_neg hk

theorem witness_cdfq (k : DistKind) (p : Word) (hk : k ≠ .studentsT) (x : Word) :
    witnessDist.cdfq k p x = rankCdf (witnessHalf k p) x := if_neg hk

/-- The code of the rank `u` above the lowest. -/
theorem rankCdf_toNat {h : Nat} (hh : 0 < h) {x : Word} {u : Nat} (hu : u < 2 * h)
    (hx : realRank x = (u : Int) - h) : (rankCdf h x).toNat = u * 2 ^ 32 / (2 * h) := by
  unfold rankCdf
  rw [hx]
  split_ifs with h1 h2
  · have : u = 0 := by omega
    simp [this]
  · omega
  · have : ((u : Int) - h + h).toNat = u := by omega
    rw [this, BitVec.toNat_ofNat, Nat.mod_eq_of_lt]
    rw [Nat.div_lt_iff_lt_mul (by omega)]
    nlinarith

/-- The code of a rank-linear entry. -/
theorem rankCdf_rankInv (k : DistKind) (p : Word) (hp : paramOk k p = true) (b i : Nat) (hb : b ≤ 16) (hi : i < 2 ^ b) :
    (rankCdf (witnessHalf k p) (rankInv (witnessHalf k p) b i)).toNat =
      binTop (witnessHalf k p) b i * 2 ^ 32 / (2 * witnessHalf k p) := by
  have hpos := witnessHalf_pos k p hp
  rw [rankCdf_toNat hpos (binTop_lt _ b i hpos hi) (rankInv_spec k p hp b i hb hi).2]

theorem realRank_maxFinite : realRank maxFinite = 0x7F7FFFFF := by decide

theorem realRank_minFinite : realRank minFinite = -0x7F7FFFFF := by decide

/-! ## Where a quantile leaves the binary32 range -/

theorem realValue_maxFinite : realValue maxFinite = 16777215 * 2 ^ 104 := by
  have h : scaled maxFinite = 16777215 * 2 ^ 253 := by decide +kernel
  unfold realValue
  rw [h]
  push_cast
  rw [div_eq_iff (by positivity)]
  ring

theorem realValue_minFinite : realValue minFinite = -(16777215 * 2 ^ 104) := by
  have h : scaled minFinite = -(16777215 * 2 ^ 253) := by decide +kernel
  unfold realValue
  rw [h]
  push_cast
  rw [div_eq_iff (by positivity)]
  ring

theorem realValue_le_maxFinite (v : Word) (hv : isFinite v = true) : realValue v ≤ realValue maxFinite := by
  have h : (scaled v : ℚ) ≤ 16777215 * 2 ^ 253 := by
    have hm : scaledMag v ≤ 16777215 * 2 ^ 253 := by
      have he : expo v < 255 := by
        have : expo v < 256 := by rw [expo_eq]; omega
        unfold isFinite at hv
        simp at hv
        omega
      have hf : frac v < 2 ^ 23 := by rw [frac_eq]; omega
      unfold scaledMag
      split_ifs with h0
      · exact le_trans (by omega) (Nat.le_mul_of_pos_right _ (by positivity))
      · exact Nat.mul_le_mul (by omega) (Nat.pow_le_pow_right (by norm_num) (by omega))
    have hs : (scaled v : ℚ) ≤ (scaledMag v : ℚ) := by
      unfold scaled
      split_ifs
      · push_cast
        have : (0 : ℚ) ≤ (scaledMag v : ℚ) := by positivity
        linarith
      · push_cast
        exact le_refl _
    refine le_trans hs ?_
    exact_mod_cast hm
  rw [realValue_maxFinite]
  unfold realValue
  rw [div_le_iff₀ (by positivity)]
  refine le_trans h (le_of_eq ?_)
  ring

/-- The cumulative probabilities of bin midpoints, for the depths of a channel. -/
theorem midpoint_bounds {b i : Nat} (hb : b ≤ 16) (hi : i < 2 ^ b) :
    (1 / 2 ^ 17 : ℝ) ≤ (2 * (i : ℝ) + 1) / 2 ^ (b + 1) ∧ (2 * (i : ℝ) + 1) / 2 ^ (b + 1) ≤ 1 - 1 / 2 ^ 17 := by
  have hpow : (2 : ℝ) ^ (b + 1) ≤ 2 ^ 17 := pow_le_pow_right₀ (by norm_num) (by omega)
  have hpos : (0 : ℝ) < 2 ^ (b + 1) := by positivity
  have hi' : (i : ℝ) + 1 ≤ 2 ^ b := by exact_mod_cast hi
  have hinv : (1 / 2 ^ 17 : ℝ) ≤ 1 / 2 ^ (b + 1) := one_div_le_one_div_of_le hpos hpow
  have h2 : (2 : ℝ) ^ (b + 1) = 2 * 2 ^ b := by rw [pow_succ']
  have h0 : (0 : ℝ) ≤ (i : ℝ) := by positivity
  constructor
  · refine le_trans hinv ?_
    apply div_le_div_of_nonneg_right _ hpos.le
    linarith
  · have : (2 * (i : ℝ) + 1) / 2 ^ (b + 1) ≤ 1 - 1 / 2 ^ (b + 1) := by
      rw [le_sub_iff_add_le, ← add_div, div_le_one hpos]
      linarith
    linarith

/-- Far out, the standard normal distribution function is within `2^−17` of its limits. -/
theorem isPhi_tail {c : ℝ} (hc : 20 ≤ c) :
    Real.sqrt Real.pi / 2 - 1 / 2 ^ 20 ≤ ∫ u in (0 : ℝ)..c, Real.exp (-(u ^ 2)) := by
  have hint : MeasureTheory.Integrable (fun u : ℝ => Real.exp (-(u ^ 2))) := by
    simpa using integrable_exp_neg_mul_sq (b := 1) one_pos
  have hwhole : ∫ u in Set.Ioi (0 : ℝ), Real.exp (-(u ^ 2)) = Real.sqrt Real.pi / 2 := by
    simpa using integral_gaussian_Ioi 1
  have hexp : MeasureTheory.IntegrableOn (fun u : ℝ => Real.exp (-u)) (Set.Ioi c) := integrableOn_exp_neg_Ioi c
  have htail : ∫ u in Set.Ioi c, Real.exp (-(u ^ 2)) ≤ Real.exp (-c) := by
    rw [← integral_exp_neg_Ioi c]
    apply MeasureTheory.setIntegral_mono_on hint.integrableOn hexp measurableSet_Ioi
    intro u hu
    have : c < u := hu
    apply Real.exp_le_exp.2
    nlinarith
  have hsplit := intervalIntegral.integral_interval_add_Ioi (a := (0 : ℝ)) (b := c) hint.integrableOn hint.integrableOn
  have hsmall : Real.exp (-c) ≤ 1 / 2 ^ 20 := by
    have h1 : (2 : ℝ) ≤ Real.exp 1 := by
      have := Real.add_one_le_exp (1 : ℝ)
      linarith
    have h2 : (2 : ℝ) ^ 20 ≤ Real.exp c := by
      calc (2 : ℝ) ^ 20 ≤ Real.exp 1 ^ 20 := pow_le_pow_left₀ (by norm_num) h1 20
        _ = Real.exp 20 := by rw [← Real.exp_nat_mul]; norm_num
        _ ≤ Real.exp c := Real.exp_le_exp.2 hc
    rw [Real.exp_neg, one_div]
    exact inv_anti₀ (by positivity) h2
  linarith

/-- Above `2^10` the standard normal distribution function is above every bin midpoint. -/
theorem isPhi_high {z y : ℝ} (h : IsPhi z y) (hz : 2 ^ 10 ≤ z) : 1 - 1 / 2 ^ 17 < y := by
  have hpi : (1 : ℝ) ≤ Real.sqrt Real.pi := Real.one_le_sqrt.2 (by linarith [Real.pi_gt_three])
  have h2 : Real.sqrt 2 ≤ 2 := Real.sqrt_le_iff.2 ⟨by norm_num, by norm_num⟩
  have h2pos : 0 < Real.sqrt 2 := Real.sqrt_pos.2 (by norm_num)
  have hc : 20 ≤ z / Real.sqrt 2 := by
    rw [le_div_iff₀ h2pos]
    linarith
  have ht := isPhi_tail hc
  rw [h]
  generalize (∫ u in (0 : ℝ)..(z / Real.sqrt 2), Real.exp (-(u ^ 2))) = a at ht
  have hpos : (0 : ℝ) < Real.sqrt Real.pi := by linarith
  have hk : 2 / Real.sqrt Real.pi * (Real.sqrt Real.pi / 2 - 1 / 2 ^ 20) ≤ 2 / Real.sqrt Real.pi * a :=
    mul_le_mul_of_nonneg_left ht (by positivity)
  have he : 2 / Real.sqrt Real.pi * (Real.sqrt Real.pi / 2 - 1 / 2 ^ 20) =
      1 - 1 / Real.sqrt Real.pi * (1 / 2 ^ 19) := by
    field_simp
  have hle : 1 / Real.sqrt Real.pi ≤ 1 := by
    rw [div_le_one hpos]
    exact hpi
  have : 1 / Real.sqrt Real.pi * (1 / 2 ^ 19 : ℝ) ≤ 1 * (1 / 2 ^ 19) := mul_le_mul_of_nonneg_right hle (by positivity)
  rw [he] at hk
  norm_num at *
  linarith

/-- The standard normal distribution function is symmetric. -/
theorem isPhi_neg {z y : ℝ} (h : IsPhi z y) : IsPhi (-z) (1 - y) := by
  have hs : ∫ u in (0 : ℝ)..(-z / Real.sqrt 2), Real.exp (-(u ^ 2)) =
      -∫ u in (0 : ℝ)..(z / Real.sqrt 2), Real.exp (-(u ^ 2)) := by
    have := intervalIntegral.integral_comp_neg (a := (0 : ℝ)) (b := z / Real.sqrt 2) fun u => Real.exp (-(u ^ 2))
    simp only [neg_sq, neg_zero] at this
    rw [this, neg_div, intervalIntegral.integral_symm]
  unfold IsPhi at *
  rw [hs, h]
  ring

/-- The regularized incomplete beta function is at most 1 on `[0, 1]`. -/
theorem isRegIncBeta_le_one {z a b r : ℝ} (h : IsRegIncBeta z a b r) (hz0 : 0 ≤ z) (hz1 : z ≤ 1) : r ≤ 1 := by
  rw [h]
  have hnn : ∀ u : ℝ, 0 ≤ u → u ≤ 1 → 0 ≤ u ^ (a - 1) * (1 - u) ^ (b - 1) := fun u h0 h1 =>
    mul_nonneg (Real.rpow_nonneg h0 _) (Real.rpow_nonneg (by linarith) _)
  by_cases hint : IntervalIntegrable (fun u : ℝ => u ^ (a - 1) * (1 - u) ^ (b - 1)) MeasureTheory.volume 0 1
  · have hl := hint.mono_set (c := 0) (d := z) (by
      rw [Set.uIcc_of_le hz0, Set.uIcc_of_le (by norm_num : (0 : ℝ) ≤ 1)]
      exact Set.Icc_subset_Icc_right hz1)
    have hr := hint.mono_set (c := z) (d := 1) (by
      rw [Set.uIcc_of_le hz1, Set.uIcc_of_le (by norm_num : (0 : ℝ) ≤ 1)]
      exact Set.Icc_subset_Icc_left hz0)
    have hadd := intervalIntegral.integral_add_adjacent_intervals hl hr
    have h1 : 0 ≤ ∫ u in z..1, u ^ (a - 1) * (1 - u) ^ (b - 1) :=
      intervalIntegral.integral_nonneg hz1 fun u hu => hnn u (le_trans hz0 hu.1) hu.2
    have h0 : 0 ≤ ∫ u in (0 : ℝ)..z, u ^ (a - 1) * (1 - u) ^ (b - 1) :=
      intervalIntegral.integral_nonneg hz0 fun u hu => hnn u hu.1 (le_trans hu.2 hz1)
    exact div_le_one_of_le₀ (by linarith) (by linarith)
  · rw [intervalIntegral.integral_undef hint, div_zero]
    norm_num

/-- Student's distribution function is at least 1/2 on the right half. -/
theorem isStudentUpper_ge {nu x y : ℝ} (hnu : 0 < nu) (h : IsStudentUpper nu x y) : 1 / 2 ≤ y := by
  obtain ⟨r, hr, rfl⟩ := h
  have hx : 0 < nu + x ^ 2 := by positivity
  have := isRegIncBeta_le_one hr (by positivity) ((div_le_one hx).2 (by nlinarith))
  linarith

theorem realValue_pos {p : Word} (h : positiveFinite p = true) : 0 < realValue p ∧ isFinite p = true := by
  have hm := magnitude_pos_of_positiveFinite h
  simp only [positiveFinite, Bool.and_eq_true, Bool.not_eq_true'] at h
  obtain ⟨_, hg⟩ := h
  have hs : 0 < scaledMag p := by
    have e := expo_eq p
    have f := frac_eq p
    have m := magnitude_eq p
    unfold scaledMag
    split_ifs
    · omega
    · positivity
  refine ⟨?_, (isFinite_iff p).2 hm.2.1⟩
  unfold realValue scaled
  rw [hg]
  have : (0 : ℚ) < (scaledMag p : ℚ) := by exact_mod_cast hs
  simp
  positivity

/-! ## The saturated entries of StudentsT -/

theorem two_pow_ne_odd {b : Nat} (hb : 2 ≤ b) (i : Nat) : 2 * i + 1 ≠ 2 ^ b := by
  have : 2 ^ b = 2 * 2 ^ (b - 1) := by rw [← pow_succ']; congr 1; omega
  omega

theorem midpoint_le {b i b' i' : Nat} (h : (2 * i + 1) * 2 ^ b' ≤ (2 * i' + 1) * 2 ^ b) :
    (2 * (i : ℝ) + 1) / 2 ^ (b + 1) ≤ (2 * (i' : ℝ) + 1) / 2 ^ (b' + 1) := by
  have h' : (2 * (i : ℝ) + 1) * 2 ^ b' ≤ (2 * (i' : ℝ) + 1) * 2 ^ b := by exact_mod_cast h
  rw [div_le_div_iff₀ (by positivity) (by positivity), pow_succ, pow_succ]
  linarith

theorem midpoint_pos_lt {b i : Nat} (hi : i < 2 ^ b) :
    0 < (2 * (i : ℝ) + 1) / 2 ^ (b + 1) ∧ (2 * (i : ℝ) + 1) / 2 ^ (b + 1) < 1 := by
  have hi' : (i : ℝ) + 1 ≤ 2 ^ b := by exact_mod_cast hi
  refine ⟨by positivity, ?_⟩
  rw [div_lt_one (by positivity), pow_succ']
  linarith

theorem realValue_minFinite_neg : (realValue minFinite : ℝ) = -(realValue maxFinite : ℝ) := by
  rw [realValue_minFinite, realValue_maxFinite]
  push_cast
  ring

theorem realValue_maxFinite_nonneg : (0 : ℝ) ≤ (realValue maxFinite : ℝ) := by
  rw [realValue_maxFinite]
  push_cast
  positivity

theorem studentAbove_iff (p : Word) (b i : Nat) : QuantileAbove .studentsT p b i ↔
    ∃ z : ℝ, (realValue maxFinite : ℝ) < z ∧ IsStudentUpper (realValue p : ℝ) z ((2 * (i : ℝ) + 1) / 2 ^ (b + 1)) := by
  have h0 := realValue_maxFinite_nonneg
  constructor
  · rintro ⟨z, hz, ⟨_, h⟩ | ⟨hneg, _⟩⟩
    · exact ⟨z, hz, h⟩
    · linarith
  · rintro ⟨z, hz, h⟩
    exact ⟨z, hz, .inl ⟨by linarith, h⟩⟩

theorem studentBelow_iff (p : Word) (b i : Nat) : QuantileBelow .studentsT p b i ↔
    ∃ z : ℝ, (realValue maxFinite : ℝ) < z ∧
      IsStudentUpper (realValue p : ℝ) z (1 - (2 * (i : ℝ) + 1) / 2 ^ (b + 1)) := by
  have h0 := realValue_maxFinite_nonneg
  unfold QuantileBelow
  rw [realValue_minFinite_neg]
  constructor
  · rintro ⟨z, hz, ⟨hpos, _⟩ | ⟨_, h⟩⟩
    · linarith
    · exact ⟨-z, by linarith, h⟩
  · rintro ⟨z, hz, h⟩
    exact ⟨-z, by linarith, .inr ⟨by linarith, by rwa [neg_neg]⟩⟩

theorem realValue_param_pos {p : Word} (hp : paramOk .studentsT p = true) : (0 : ℝ) < (realValue p : ℝ) := by
  exact_mod_cast (realValue_pos (p := p) (by simpa [paramOk, kindHasParam] using hp)).1

/-- A quantile above the range leaves every higher quantile there, at any depth. -/
theorem studentAbove_mono {p : Word} (hp : paramOk .studentsT p = true) {b i b' i' : Nat} (hi : i' < 2 ^ b')
    (hle : (2 * i + 1) * 2 ^ b' ≤ (2 * i' + 1) * 2 ^ b) (h : QuantileAbove .studentsT p b i) :
    QuantileAbove .studentsT p b' i' := by
  rw [studentAbove_iff] at h ⊢
  obtain ⟨z, hz, hu⟩ := h
  exact student_tail_closed (realValue_param_pos hp) realValue_maxFinite_nonneg hz hu (midpoint_le hle)
    (midpoint_pos_lt hi).2

/-- A quantile below the range leaves every lower quantile there. -/
theorem studentBelow_mono {p : Word} (hp : paramOk .studentsT p = true) {b i i' : Nat} (hi : i < 2 ^ b) (hle : i' ≤ i)
    (h : QuantileBelow .studentsT p b i) : QuantileBelow .studentsT p b i' := by
  rw [studentBelow_iff] at h ⊢
  obtain ⟨z, hz, hu⟩ := h
  have := midpoint_le (b := b) (b' := b) (i := i') (i' := i) (Nat.mul_le_mul_right _ (by omega))
  have := (midpoint_pos_lt (b := b) (i := i') (by omega)).1
  exact student_tail_closed (realValue_param_pos hp) realValue_maxFinite_nonneg hz hu (by linarith) (by linarith)

/-- No quantile leaves the range on both sides. -/
theorem studentAbove_not_below {p : Word} (hp : paramOk .studentsT p = true) {b i : Nat} (hb : 2 ≤ b)
    (ha : QuantileAbove .studentsT p b i) : ¬QuantileBelow .studentsT p b i := by
  intro hl
  rw [studentAbove_iff] at ha
  rw [studentBelow_iff] at hl
  obtain ⟨_, _, ha⟩ := ha
  obtain ⟨_, _, hl⟩ := hl
  have h1 := isStudentUpper_ge (realValue_param_pos hp) ha
  have h2 := isStudentUpper_ge (realValue_param_pos hp) hl
  have he : (2 * (i : ℝ) + 1) / 2 ^ (b + 1) = 1 / 2 := by linarith
  rw [div_eq_iff (by positivity), pow_succ'] at he
  have : (2 * (i : ℝ) + 1) = 2 ^ b := by linarith
  exact two_pow_ne_odd hb i (by exact_mod_cast this)

/-- The entry of StudentsT, by where its quantile lies. -/
theorem studentInv_cases (p : Word) (b i : Nat) :
    (QuantileAbove .studentsT p b i ∧ studentInv p b i = maxFinite) ∨
    (QuantileBelow .studentsT p b i ∧ studentInv p b i = minFinite) ∨
    (¬QuantileAbove .studentsT p b i ∧ ¬QuantileBelow .studentsT p b i ∧ studentInv p b i = rankInv infMag b i) := by
  unfold studentInv
  split_ifs with h1 h2
  · exact .inl ⟨h1, rfl⟩
  · exact .inr (.inl ⟨h2, rfl⟩)
  · exact .inr (.inr ⟨h1, h2, rfl⟩)

theorem studentInv_of_above {p : Word} {b i : Nat} (h : QuantileAbove .studentsT p b i) : studentInv p b i = maxFinite :=
  if_pos h

theorem studentInv_of_below {p : Word} (hp : paramOk .studentsT p = true) {b i : Nat} (hb : 2 ≤ b)
    (h : QuantileBelow .studentsT p b i) : studentInv p b i = minFinite := by
  unfold studentInv
  rw [if_neg fun ha => studentAbove_not_below hp hb ha h, if_pos h]

/-- The least depth that saturates: it does where it is at most 16, and no smaller one does. -/
theorem saturationDepth_spec (p : Word) : 2 ≤ saturationDepth p ∧ saturationDepth p ≤ 17 ∧
    (saturationDepth p ≤ 16 → QuantileAbove .studentsT p (saturationDepth p) (2 ^ saturationDepth p - 2)) ∧
    ∀ b, 2 ≤ b → QuantileAbove .studentsT p b (2 ^ b - 2) → saturationDepth p ≤ b := by
  have hmem : saturationDepth p ∈ ({b | 2 ≤ b ∧ QuantileAbove .studentsT p b (2 ^ b - 2)} ∪ {17} : Set Nat) :=
    Nat.sInf_mem ⟨17, .inr rfl⟩
  refine ⟨?_, Nat.sInf_le (.inr rfl), fun h => ?_, fun b hb h => Nat.sInf_le (.inl ⟨hb, h⟩)⟩
  · rcases hmem with h | h
    · exact h.1
    · rw [h]
      norm_num
  · rcases hmem with h | h'
    · exact h.2
    · rw [h'] at h
      omega

theorem two_pow_split {a b : Nat} (h : a ≤ b) : 2 ^ b = 2 ^ a * 2 ^ (b - a) := by
  rw [← pow_add]
  congr 1
  omega

/-- At a depth that saturates, the greatest code lies in a saturated bin below the top one. -/
theorem studentTop_bin {p : Word} (hp : paramOk .studentsT p = true) {b : Nat} (hb : b ≤ 16)
    (hd : saturationDepth p ≤ b) : studentTop p / 2 ^ (32 - b) = 2 ^ b - 1 - 2 ^ (b - saturationDepth p) ∧
      2 ^ (b - saturationDepth p) * 4 ≤ 2 ^ b ∧
      QuantileAbove .studentsT p b (2 ^ b - 1 - 2 ^ (b - saturationDepth p)) := by
  obtain ⟨h2, _, hsat, _⟩ := saturationDepth_spec p
  have habove := hsat (le_trans hd hb)
  unfold studentTop
  generalize saturationDepth p = d at *
  have e1 : 2 ^ (32 - d) = 2 ^ (b - d) * 2 ^ (32 - b) := by rw [← pow_add]; congr 1; omega
  have e2 : 2 ^ 32 = 2 ^ b * 2 ^ (32 - b) := by rw [← pow_add]; congr 1; omega
  have e3 : 2 ^ b = 2 ^ d * 2 ^ (b - d) := two_pow_split hd
  have hd4 : 4 ≤ 2 ^ d := by
    calc 4 = 2 ^ 2 := by norm_num
      _ ≤ 2 ^ d := Nat.pow_le_pow_right (by norm_num) h2
  have hM : 0 < 2 ^ (b - d) := by positivity
  have hU : 0 < 2 ^ (32 - b) := by positivity
  have h4 : 2 ^ (b - d) * 4 ≤ 2 ^ b := by
    rw [e3, Nat.mul_comm]
    exact Nat.mul_le_mul_right _ hd4
  refine ⟨?_, h4, studentAbove_mono hp (by omega) ?_ habove⟩
  · rw [e1, e2]
    generalize 2 ^ (b - d) = m at *
    generalize 2 ^ (32 - b) = u at *
    generalize 2 ^ b = n at *
    have h5 : (n - 1 - m) * u = n * u - u - m * u := by rw [Nat.sub_mul, Nat.sub_mul, Nat.one_mul]
    have h6 : (m + 1) * u ≤ n * u := Nat.mul_le_mul_right _ (by omega)
    rw [Nat.add_mul, Nat.one_mul] at h6
    rw [show n * u - 1 - m * u = (u - 1) + (n - 1 - m) * u by omega, Nat.add_mul_div_right _ _ hU,
      Nat.div_eq_of_lt (by omega), Nat.zero_add]
  · rw [e3]
    generalize 2 ^ (b - d) = m at *
    generalize 2 ^ d = n at *
    have h7 : m ≤ n * m := Nat.le_mul_of_pos_left _ (by omega)
    have h8 : 4 * m ≤ n * m := Nat.mul_le_mul_right _ hd4
    have e4 : 2 * (n - 2) + 1 = 2 * n - 3 := by omega
    have e5 : 2 * (n * m - 1 - m) + 1 = 2 * (n * m) - 2 * m - 1 := by omega
    rw [e4, e5, Nat.sub_mul, Nat.sub_mul, Nat.sub_mul]
    have : (2 * n) * (n * m) = 2 * (n * m) * n := by ring
    have : 3 * (n * m) = 2 * m * n + m * n := by ring
    have : n ≤ m * n := Nat.le_mul_of_pos_left _ hM
    omega

theorem studentCdf_finite (p : Word) {x : Word} (hx : realRank x < infMag) :
    (studentCdf p x).toNat = min (rankCdf infMag x).toNat (studentTop p) := by
  unfold studentCdf
  rw [if_neg (by omega), BitVec.toNat_ofNat, Nat.mod_eq_of_lt (lt_of_le_of_lt (min_le_left _ _) (BitVec.isLt _))]

theorem studentTop_pos (p : Word) : 1 ≤ studentTop p ∧ studentTop p ≤ 2 ^ 32 - 2 := by
  obtain ⟨h2, h17, _⟩ := saturationDepth_spec p
  have h1 : 2 ^ (32 - saturationDepth p) ≤ 2 ^ 30 := Nat.pow_le_pow_right (by norm_num) (by omega)
  have h3 : 0 < 2 ^ (32 - saturationDepth p) := by positivity
  unfold studentTop
  omega

theorem studentCdf_maxFinite (p : Word) : (studentCdf p maxFinite).toNat = studentTop p := by
  rw [studentCdf_finite p (by rw [realRank_maxFinite]; norm_num [infMag]),
    show (rankCdf infMag maxFinite).toNat = 2 ^ 32 - 2 by decide]
  exact min_eq_right (studentTop_pos p).2

theorem studentCdf_minFinite (p : Word) : (studentCdf p minFinite).toNat = 1 := by
  rw [studentCdf_finite p (by rw [realRank_minFinite]; norm_num [infMag]),
    show (rankCdf infMag minFinite).toNat = 1 by decide]
  exact min_eq_left (studentTop_pos p).1

/-- Where a bin is not saturated, its codes are at most the greatest code. -/
theorem studentTop_ge {p : Word} (hp : paramOk .studentsT p = true) {b i : Nat} (hb : b ≤ 16) (hi : i + 2 ≤ 2 ^ b)
    (ha : ¬QuantileAbove .studentsT p b i) : (i + 1) * 2 ^ (32 - b) ≤ studentTop p + 1 := by
  have e2 : 2 ^ 32 = 2 ^ b * 2 ^ (32 - b) := by rw [← pow_add]; congr 1; omega
  by_cases hd : saturationDepth p ≤ b
  · obtain ⟨hbin, h4, hab⟩ := studentTop_bin hp hb hd
    have hlt : i < 2 ^ b - 1 - 2 ^ (b - saturationDepth p) := by
      by_contra hc
      exact ha (studentAbove_mono hp (by omega) (Nat.mul_le_mul_right _ (by omega)) hab)
    rw [← hbin] at hlt
    have := Nat.mul_le_mul_right (2 ^ (32 - b)) (show i + 1 ≤ studentTop p / 2 ^ (32 - b) by omega)
    have := Nat.div_mul_le_self (studentTop p) (2 ^ (32 - b))
    omega
  · have h1 : 2 ^ (32 - saturationDepth p) ≤ 2 ^ (32 - b) := Nat.pow_le_pow_right (by norm_num) (by omega)
    have h2 : (i + 1 + 1) * 2 ^ (32 - b) ≤ 2 ^ b * 2 ^ (32 - b) := Nat.mul_le_mul_right _ (by omega)
    rw [Nat.add_mul, Nat.one_mul, ← e2] at h2
    unfold studentTop
    omega

theorem student_binConsistent (p : Word) (hp : paramOk .studentsT p = true) :
    witnessDist.BinConsistent .studentsT p := by
  intro b i hb2 hb16 hi
  have hbin : witnessDist.binOf .studentsT p b i = (studentCdf p (studentInv p b i)).toNat / 2 ^ (32 - b) := by
    unfold DistFns.binOf
    rw [witness_studentInv, witness_studentCdf]
  have h16 := two_pow_le_of_le b hb16
  rw [hbin, witness_studentInv, witness_studentInv]
  rcases studentInv_cases p b i with ⟨ha, he⟩ | ⟨hl, he⟩ | ⟨ha, _, he⟩
  · have hd := (saturationDepth_spec p).2.2.2 b hb2
      (studentAbove_mono hp (by omega) (Nat.mul_le_mul_right _ (by omega)) ha)
    obtain ⟨ht, h4, hab⟩ := studentTop_bin hp hb16 hd
    have hM : 0 < 2 ^ (b - saturationDepth p) := by positivity
    rw [he, studentCdf_maxFinite, ht, studentInv_of_above hab]
    refine ⟨fun hown => ?_, by omega, rfl⟩
    by_contra hne
    exact hown.2 ⟨_, hne, by omega, .inl ⟨ha, hab⟩⟩
  · have h0 : 1 / 2 ^ (32 - b) = 0 := Nat.div_eq_of_lt (Nat.one_lt_two_pow (by omega))
    have hl0 := studentBelow_mono hp (by omega) (Nat.zero_le i) hl
    rw [he, studentCdf_minFinite, h0, studentInv_of_below hp hb2 hl0]
    refine ⟨fun hown => ?_, by omega, rfl⟩
    by_contra hne
    exact hown.2 ⟨0, hne, by omega, .inr ⟨hl, hl0⟩⟩
  · obtain ⟨hfin, hrank⟩ := rankInv_spec .studentsT p hp b i hb16 (by omega)
    have hcode := rankCdf_rankInv .studentsT p hp b i hb16 (by omega)
    have hw : witnessHalf .studentsT p = infMag := rfl
    rw [hw] at hfin hrank hcode
    obtain ⟨_, _, hown⟩ := binTop_bin infMag b i (by norm_num [infMag])
    have hin := hown (by unfold infMag; omega)
    have hlt := binTop_lt infMag b i (by norm_num [infMag]) (by omega)
    have hdiv : (rankCdf infMag (rankInv infMag b i)).toNat / 2 ^ (32 - b) = i := by
      rw [hcode, binOf_rank _ _ _ (by omega), hin]
    have hle : (rankCdf infMag (rankInv infMag b i)).toNat ≤ studentTop p := by
      have h1 := (Nat.div_lt_iff_lt_mul (by positivity)).1 (show _ / 2 ^ (32 - b) < i + 1 by rw [hdiv]; omega)
      have h2 := studentTop_ge hp hb16 hi ha
      omega
    rw [he, studentCdf_finite p (by omega), min_eq_left hle, hdiv]
    exact ⟨fun _ => rfl, hi, he⟩

theorem witness_binConsistent (k : DistKind) (p : Word) (hp : paramOk k p = true) :
    witnessDist.BinConsistent k p := by
  by_cases hk : k = .studentsT
  · subst hk
    exact student_binConsistent p hp
  · intro b i hb2 hb16 hi
    have hpos := witnessHalf_pos k p hp
    have hbin : witnessDist.binOf k p b i = binTop (witnessHalf k p) b i * 2 ^ b / (2 * witnessHalf k p) := by
      unfold DistFns.binOf
      rw [witness_cdfq k p hk, witness_invt k p hk, rankCdf_rankInv k p hp b i hb16 (by omega), binOf_rank _ _ _ (by omega)]
    obtain ⟨h1, h2, h3⟩ := binTop_bin (witnessHalf k p) b i hpos
    rw [hbin]
    refine ⟨fun hown => h3 ?_, by omega, by rw [witness_invt k p hk, witness_invt k p hk]; unfold rankInv; rw [h2]⟩
    have h16 := two_pow_le_of_le b hb16
    by_cases hkt : k = .truncatedGaussian
    · subst hkt
      have hfit := hown.1
      simp only [binsFit, decide_eq_true_eq] at hfit
      simp only [witnessHalf, if_true]
      have : 2 ^ b = 2 * 2 ^ (b - 1) := by rw [← pow_succ']; congr 1; omega
      omega
    · simp only [witnessHalf, if_neg hkt, infMag]
      omega

/-- No quantile of a bounded or of the normal distribution leaves the binary32 range, and those of StudentsT that do are
saturated. -/
theorem witness_saturates (k : DistKind) (p : Word) (hk : k ≠ .uniform) (hp : paramOk k p = true) :
    witnessDist.EntriesSaturate k p := by
  intro b i hb2 hb16 hi
  have hmax : (2 ^ 10 : ℝ) ≤ (realValue maxFinite : ℝ) := by
    rw [realValue_maxFinite]
    push_cast
    norm_num
  have h17 : (0 : ℝ) < 1 / 2 ^ 17 := by positivity
  obtain ⟨lo, hi'⟩ := midpoint_bounds hb16 hi
  cases k with
  | uniform => exact absurd rfl hk
  | gaussian =>
    refine ⟨fun ⟨z, h, hz⟩ => ?_, fun ⟨z, h, hz⟩ => ?_⟩
    · have := isPhi_high hz (by linarith)
      linarith
    · rw [realValue_minFinite_neg] at h
      have := isPhi_high (isPhi_neg hz) (by linarith)
      linarith
  | truncatedGaussian =>
    obtain ⟨hpos, hfin⟩ := realValue_pos (p := p) (by simpa [paramOk, kindHasParam] using hp)
    have hle : (realValue p : ℝ) ≤ (realValue maxFinite : ℝ) := by exact_mod_cast realValue_le_maxFinite p hfin
    refine ⟨fun ⟨z, h, hz⟩ => ?_, fun ⟨z, h, hz⟩ => ?_⟩
    · rcases hz with ⟨_, h0⟩ | ⟨_, h1⟩ | ⟨h1, h2, _⟩ <;> linarith
    · rw [realValue_minFinite_neg] at h
      rcases hz with ⟨_, h0⟩ | ⟨_, h1⟩ | ⟨h1, h2, _⟩ <;> linarith
  | studentsT =>
    rw [witness_studentInv]
    exact ⟨studentInv_of_above, studentInv_of_below hp hb2⟩

theorem studentCdf_toNat_le (p : Word) {x y : Word} (h : realRank x ≤ realRank y) :
    (studentCdf p x).toNat ≤ (studentCdf p y).toNat := by
  by_cases hy : realRank y < infMag
  · rw [studentCdf_finite p hy, studentCdf_finite p (lt_of_le_of_lt h hy)]
    exact min_le_min_right _ (rankCdf_toNat_le _ h)
  · have hlt := (studentCdf p x).isLt
    rw [show studentCdf p y = 0xFFFFFFFF#32 from if_pos (by omega)]
    simp
    omega

theorem witness_finite (k : DistKind) (p : Word) (hp : paramOk k p = true) : witnessDist.EntriesFinite k p := by
  intro b i hb2 hb hi
  have hfin := (rankInv_spec k p hp b i hb hi).1
  by_cases hk : k = .studentsT
  · subst hk
    rw [witness_studentInv]
    rcases studentInv_cases p b i with ⟨_, he⟩ | ⟨_, he⟩ | ⟨_, _, he⟩ <;> rw [he]
    · decide
    · decide
    · exact hfin
  · rw [witness_invt k p hk]
    exact hfin

/-- A finite value lies between the least and the largest one. -/
theorem realRank_finite {v : Word} (h : isFinite v = true) :
    realRank minFinite ≤ realRank v ∧ realRank v ≤ realRank maxFinite := by
  rw [isFinite_iff] at h
  rw [realRank_maxFinite, realRank_minFinite]
  unfold infMag at h
  unfold realRank
  split_ifs <;> omega

theorem witness_sorted (k : DistKind) (p : Word) (hp : paramOk k p = true) : witnessDist.EntriesSorted k p := by
  intro b i hb2 hb hi
  have hlin : realRank (rankInv (witnessHalf k p) b i) ≤ realRank (rankInv (witnessHalf k p) b (i + 1)) := by
    rw [(rankInv_spec k p hp b i hb (by omega)).2, (rankInv_spec k p hp b (i + 1) hb hi).2]
    have := binTop_mono (witnessHalf k p) b (Nat.le_succ i)
    simp only [Nat.succ_eq_add_one] at this
    omega
  by_cases hk : k = .studentsT
  · subst hk
    have h1 := (realRank_finite (witness_finite .studentsT p hp b i hb2 hb (by omega))).2
    have h2 := (realRank_finite (witness_finite .studentsT p hp b (i + 1) hb2 hb hi)).1
    rw [witness_studentInv] at h1 h2 ⊢
    rw [witness_studentInv]
    rcases studentInv_cases p b (i + 1) with ⟨_, he⟩ | ⟨hl, _⟩ | ⟨ha, _, he⟩
    · rw [he]
      exact h1
    · rw [studentInv_of_below hp hb2 (studentBelow_mono hp hi (Nat.le_succ i) hl)]
      exact h2
    · rcases studentInv_cases p b i with ⟨ha', _⟩ | ⟨_, he'⟩ | ⟨_, _, he'⟩
      · exact absurd (studentAbove_mono hp hi (Nat.mul_le_mul_right _ (by omega)) ha') ha
      · rw [he']
        exact h2
      · rw [he, he']
        exact hlin
  · rw [witness_invt k p hk, witness_invt k p hk]
    exact hlin

theorem witness_ends (k : DistKind) (p : Word) (hp : paramOk k p = true) : witnessDist.Ends k p := by
  have hpos := witnessHalf_pos k p hp
  have hle := witnessHalf_le k p hp
  have r1 : realRank 0xFF800000#32 = -(infMag : Int) := by decide
  have r2 : realRank 0x7F800000#32 = (infMag : Int) := by decide
  by_cases hk : k = .studentsT
  · subst hk
    rw [DistFns.Ends, witness_studentCdf, witness_studentCdf]
    refine ⟨BitVec.eq_of_toNat_eq ?_, if_pos (by rw [r2]), nofun⟩
    rw [studentCdf_finite p (by rw [r1]; norm_num [infMag]), show (rankCdf infMag 0xFF800000#32).toNat = 0 by decide]
    simp
  · refine ⟨?_, ?_, ?_⟩
    · rw [witness_cdfq k p hk]
      unfold rankCdf
      rw [r1, if_pos (by omega)]
    · rw [witness_cdfq k p hk]
      unfold rankCdf
      rw [r2, if_neg (by omega), if_pos (by omega)]
    · rintro rfl x _
      have hm := magnitude_pos_of_positiveFinite (p := p) (by simpa [paramOk, kindHasParam] using hp)
      have hw : witnessHalf .truncatedGaussian p = magnitude p := by simp [witnessHalf]
      rw [witness_cdfq _ p hk]
      unfold rankCdf
      rw [hw]
      exact ⟨fun h => by rw [if_pos (by omega)], fun h => by rw [if_neg (by omega), if_pos (by omega)]⟩

theorem witnessDist_legal : witnessDist.Legal := by
  intro k p hk hp
  refine ⟨?_, witness_ends k p hp, ?_, witness_binConsistent k p hp, witness_finite k p hp, witness_saturates k p hk hp,
    witness_sorted k p hp, ?_, ?_⟩
  · intro x y _ _ hxy
    by_cases hs : k = .studentsT
    · subst hs
      rw [witness_studentCdf, witness_studentCdf]
      exact studentCdf_toNat_le p hxy
    · rw [witness_cdfq k p hs, witness_cdfq k p hs]
      exact rankCdf_toNat_le _ hxy
  · intro x y code _ _ hy0 hy1 hc
    have hlt := (witnessDist.cdfq k p x).isLt
    have h1 : 0 ≤ code := by
      rw [hc]
      exact le_min (Int.floor_nonneg.mpr (by positivity)) (by norm_num)
    have h2 : code ≤ 0xFFFFFFFF := by rw [hc]; exact min_le_right _ _
    show _ ≤ ((2 ^ 32 : Nat) : Int)
    rw [abs_le]
    constructor <;> push_cast <;> omega
  · intro b i z w hb2 hb hi _ hw
    calc _ ≤ |realValue (witnessDist.invt k p b i)| + |realValue w| := abs_sub _ _
      _ ≤ 2 ^ 128 + 2 ^ 128 :=
        add_le_add (abs_realValue_le _ (witness_finite k p hp b i hb2 hb hi)) (abs_realValue_le w hw.1)
      _ ≤ 2 ^ 130 := by norm_num
  · intro hu q
    cases k with
    | uniform => exact absurd rfl hk
    | gaussian =>
      refine ⟨fun x => ?_, fun b i => ?_⟩
      · rw [witness_cdfq .gaussian p nofun, witness_cdfq .gaussian q nofun]
        rfl
      · rw [witness_invt .gaussian p nofun, witness_invt .gaussian q nofun]
        rfl
    | truncatedGaussian => exact absurd hu (by decide)
    | studentsT => exact absurd hu (by decide)

/-- The named properties contradict nothing. -/
theorem exists_legal : ∃ d : DistFns, d.Legal := ⟨witnessDist, witnessDist_legal⟩

end Sys2Proof.Machine
end

