-- ==== Sys2Proof/Config.lean ====
section
/-! DEFINITION. The implementation parameters (00_scope.md section 3) and the free values: what the spec leaves open is
an opaque constant that nothing in Lean can evaluate. -/

namespace Sys2Proof

/-- `QBITS_MIN` (00_scope.md R6). -/
def Config.qbitsMin : Nat := 2

/-- `QBITS_MAX` (00_scope.md R6). -/
def Config.qbitsMax : Nat := 16

/-- `MAX_POL` (00_scope.md R9). -/
def Config.maxPol : Nat := 4

/-- The entries of a quantization table (10_state.md R42). -/
def Config.tableSize : Nat := 65536

/-- A legal `PBUF_BYTES`: a multiple of 4 from 4 to 65536 (00_scope.md R8). -/
def Config.pbufBytesOk (n : Nat) : Bool := n % 4 == 0 && decide (4 ≤ n) && decide (n ≤ 65536)

/-- Functions with the named properties of 40_distribution.md R106 and R107. -/
abbrev Config.LegalDist : Type := { d : Machine.DistFns // d.Legal }

/-- What compiled code would run for the open functions: nothing that ends, since the spec gives them no values. No
proof uses it, and it shows only that `Config.LegalDist` is not empty. -/
def Config.unending (h : Nonempty Config.LegalDist) (n : Nat) : Config.LegalDist := Config.unending h (n + 1)
partial_fixpoint

/-- FREE VALUE (log entry 8): CDFQ and INVT of the non-Uniform kinds with their tolerances. Of them the model assumes the
named properties of 40_distribution.md R106 and R107 and nothing else; the argument only says that such functions exist. -/
opaque Config.openDist [Inhabited Config.LegalDist] : Config.LegalDist

/-- The open functions with their properties. -/
def Config.legalDist : Config.LegalDist :=
  @Config.openDist ⟨Config.unending (nonempty_subtype.2 Machine.exists_legal) 0⟩

/-- The open functions of this block (00_scope.md R10, R11). -/
def Config.dist : Machine.DistFns := Config.legalDist.val

/-- The open functions have the named properties (40_distribution.md R106, R107). -/
theorem Config.dist_legal : Config.dist.Legal := Config.legalDist.property

/-- FREE VALUE (log entry 4): byte `j` of PBUF after the `k`-th reset, until it is written
(70_reset_and_hazards.md R221, R222). -/
opaque Config.pbufAtReset (k j : Nat) : Byte

/-- FREE VALUE (log entry 5): entry `i` of a channel's table after the `k`-th reset, until CONFIG
(70_reset_and_hazards.md R221, R222). -/
opaque Config.tableAtReset (k : Nat) (ch : Channel) (i : Nat) : Word

end Sys2Proof
end

