-- ==== Sys2Proof/Machine/State.lean ====
section
/-! DEFINITION. The state of the block (10_state.md R20) as plain data, and its reset values
(70_reset_and_hazards.md R221). -/

namespace Sys2Proof.Machine

/-- No fault is raised by any step: the block never halts (70_reset_and_hazards.md R230), a command that fails takes the
error entry (60_exceptions.md R196), and a misaligned access is answered with a bus error (20_memory.md R65), recorded in
`State.answer`. Safe: the set is closed and empty, so no run stops in a fault. -/
inductive Fault
deriving DecidableEq, Repr

/-- Why a step has no meaning. -/
inductive Refusal
  /-- Raised by an arm of `exec` whose instruction has no meaning yet, and by nothing else; safe. No arm raises it. -/
  | notModelled (mnemonic : String)
deriving DecidableEq, Repr

/-- The error causes (60_exceptions.md R191). -/
inductive Cause
  /-- 0x00 NONE: no error recorded. -/
  | none
  /-- 0x01 ILLEGAL_CMD. -/
  | illegalCmd
  /-- 0x02 CFG_BITS. -/
  | cfgBits
  /-- 0x03 CFG_DIST. -/
  | cfgDist
  /-- 0x04 CFG_PARAM. -/
  | cfgParam
  /-- 0x05 CFG_NPOL. -/
  | cfgNpol
  /-- 0x06 NOT_CONFIGURED. -/
  | notConfigured
  /-- 0x07 FACTOR. -/
  | factor
  /-- 0x08 RANGE_CODE. -/
  | rangeCode
  /-- 0x09 PACK_CODE. -/
  | packCode
  /-- 0x0A PBUF_OVERFLOW. -/
  | pbufOverflow
  /-- 0x0B PBUF_UNDERRUN. -/
  | pbufUnderrun
  /-- 0x0C DEC_OVERFLOW. -/
  | decOverflow
  /-- 0x0D CDF_NAN. -/
  | cdfNan
deriving DecidableEq, Repr

/-- The active configuration `A[ch]` (10_state.md R40). -/
structure ActiveConfig where
  /-- The bit depth `b`, 2 to 16. -/
  bits : Nat
  /-- The distribution kind. -/
  dist : DistKind
  /-- The latched parameter pattern. -/
  param : Word
  /-- The number of polarizations, 1 to MAX_POL; 1 for channel V. -/
  npol : Nat
deriving DecidableEq, Repr

/-- What the block holds for one channel. -/
structure ChannelState where
  /-- VCFG or WCFG, its reserved bits 0 (10_state.md R29, R30). -/
  cfg : Word
  /-- VPARAM or WPARAM (10_state.md R32). -/
  param : Word
  /-- VFACTOR or WFACTOR (10_state.md R31). -/
  factor : Word
  /-- `A[ch]` (10_state.md R40). -/
  active : ActiveConfig
  /-- `CFGOK[ch]` (10_state.md R41). -/
  cfgok : Bool
  /-- `TAB[ch]` (10_state.md R42): none while no CONFIG has written it since reset, else its entries from 0, every
  entry above the list being +0 (log entry 5). -/
  table : Option (List Word)
deriving DecidableEq, Repr

/-- Four 32-bit registers: IN0 to IN3 or OUT0 to OUT3 (10_state.md R35, R36). -/
structure Quad where
  q0 : Word
  q1 : Word
  q2 : Word
  q3 : Word
deriving DecidableEq, Repr

/-- One access of the host: a bus access (20_memory.md R60) or an assertion of the reset input
(70_reset_and_hazards.md R220). -/
inductive HostAccess
  | read (addr : BusAddr)
  | write (addr : BusAddr) (data : Word)
  | reset
deriving DecidableEq, Repr

/-- What the bus answered to the host's latest access. -/
inductive BusAnswer
  /-- No access since reset. -/
  | none
  /-- The data of a BusRead (20_memory.md R60). -/
  | data (w : Word)
  /-- A BusWrite has completed (20_memory.md R72). -/
  | done
  /-- `BusFault(addr)`: the bus error response to a misaligned access; a read returns data 0 (20_memory.md R65). -/
  | busFault (addr : BusAddr)
deriving DecidableEq, Repr

/-- The written bytes of PBUF by byte index (10_state.md R43), in the canonical form `Memory.wf`. -/
abbrev Memory := List Host.Cell

/-- The state of the block (10_state.md R20), and three fields of the model's own: `accesses`, `answer`, `resets`. -/
structure State where
  /-- CTRL, its reserved bits 0 (10_state.md R25). -/
  ctrl : Word
  /-- STATUS.ERR (10_state.md R26). -/
  err : Bool
  /-- ERR_CAUSE (10_state.md R28). -/
  errCause : Cause
  /-- ERR_INFO (10_state.md R28). -/
  errInfo : Word
  /-- ERR_CMD (10_state.md R28). -/
  errCmd : Word
  /-- Channel V. -/
  chanV : ChannelState
  /-- Channel W. -/
  chanW : ChannelState
  /-- DITHER_STATE (10_state.md R33). -/
  dither : Word
  /-- PROB (10_state.md R34). -/
  prob : Word
  /-- IN0 to IN3 (10_state.md R35). -/
  inp : Quad
  /-- OUT0 to OUT3 (10_state.md R36). -/
  out : Quad
  /-- CODE0 (10_state.md R37). -/
  code0 : Word
  /-- CODE1 (10_state.md R37). -/
  code1 : Word
  /-- WPTR (10_state.md R38). -/
  wptr : Word
  /-- RPTR (10_state.md R39). -/
  rptr : Word
  /-- PBUF_BYTES, the constant of PBUF_SIZE (10_state.md R45, 00_scope.md R8); no step changes it (log entry 1). -/
  pbufBytes : Nat
  /-- PBUF (10_state.md R43). -/
  pbuf : Memory
  /-- MODEL's own: the host accesses still to come, oldest first (log entry 2). -/
  accesses : List HostAccess
  /-- MODEL's own: the answer to the latest access (log entry 3). -/
  answer : BusAnswer
  /-- MODEL's own: how many times reset was asserted, the index of the free reset contents (log entry 7). -/
  resets : Nat
deriving DecidableEq, Repr

/-- The registers of a channel at reset (70_reset_and_hazards.md R221); `active` is DESIGN CHOICE (log entry 6) and
nothing reads it before CONFIG. -/
def ChannelState.reset : ChannelState where
  cfg := 0x00000000#32
  param := 0x00000000#32
  factor := 0x00000000#32
  active := { bits := 2, dist := .uniform, param := 0x00000000#32, npol := 1 }
  cfgok := false
  table := none

/-- The reset state of a block with a given PBUF_BYTES, a given number of reset assertions and given accesses to come
(70_reset_and_hazards.md R220, R221). -/
def State.resetWith (pbufBytes resets : Nat) (accesses : List HostAccess) : State where
  ctrl := 0x00000001#32
  err := false
  errCause := .none
  errInfo := 0x00000000#32
  errCmd := 0x00000000#32
  chanV := ChannelState.reset
  chanW := ChannelState.reset
  dither := 0x00000001#32
  prob := 0x00000000#32
  inp := ⟨0x00000000#32, 0x00000000#32, 0x00000000#32, 0x00000000#32⟩
  out := ⟨0x00000000#32, 0x00000000#32, 0x00000000#32, 0x00000000#32⟩
  code0 := 0x00000000#32
  code1 := 0x00000000#32
  wptr := 0x00000000#32
  rptr := 0x00000000#32
  pbufBytes := pbufBytes
  pbuf := []
  accesses := accesses
  answer := .none
  resets := resets

/-- The block right after reset (70_reset_and_hazards.md R221) at the reference PBUF_BYTES = 65536 (00_scope.md R8,
log entry 1), with no access to come: it waits for the host (R223). -/
def State.reset : State := State.resetWith 65536 0 []

end Sys2Proof.Machine
end

