-- ==== Sys2Proof/Machine/Ops.lean ====
section
/-! DEFINITION. The operations the commands share: PBUF and its bit stream (20_memory.md R62, R66, 43_bitpack.md R170 to
R173), the channels, taking an error and returning from one (60_exceptions.md R196, R200). -/

namespace Sys2Proof.Machine

/-! ## PBUF -/

/-- The byte written at an index, if one was. -/
def Memory.lookup (j : Nat) : Memory → Option Byte
  | [] => none
  | (k, b) :: m => if k = j then some b else Memory.lookup j m

/-- Write a byte, keeping the indexes strictly rising. -/
def Memory.write (j : Nat) (b : Byte) : Memory → Memory
  | [] => [(j, b)]
  | (k, c) :: m => if j < k then (j, b) :: (k, c) :: m else if j = k then (j, b) :: m else (k, c) :: Memory.write j b m

/-- The canonical form: indexes strictly rising. An unwritten byte holds no value of its own, so no entry can repeat
one (log entry 4). -/
def Memory.wf (m : Memory) : Bool := decide (m.Pairwise fun x y => x.1 < y.1)

/-- Every written byte is one of the first `n`. -/
def Memory.within (n : Nat) (m : Memory) : Bool := m.all fun x => decide (x.1 < n)

/-- Write `f j` at every index `j` of the `n` from `start`. -/
def Memory.writeRange (f : Nat → Byte) (start : Nat) : Nat → Memory → Memory
  | 0, m => m
  | n + 1, m => Memory.writeRange f (start + 1) n (Memory.write start (f start) m)

/-- `PBUF_BITS` (00_scope.md R8). -/
def State.pbufBits (s : State) : Nat := 8 * s.pbufBytes

/-- PBUF byte `j`; an unwritten byte reads as its free reset value (70_reset_and_hazards.md R222, log entry 4). -/
def State.pbufByte (s : State) (j : Nat) : Byte :=
  match Memory.lookup j s.pbuf with
  | some b => b
  | none => Config.pbufAtReset s.resets j

/-- `PbufBit(k)` (20_memory.md R66). -/
def State.pbufBit (s : State) (k : Nat) : Bool := (s.pbufByte (k / 8)).getLsbD (k % 8)

/-- `StreamBits(k, w)` (43_bitpack.md R173). -/
def State.streamBits (s : State) (k w : Nat) : Nat := bitsToNat (fun i => s.pbufBit (k + i)) w

/-- Byte `j` after the append of the bits of `c` to the stream positions `old` to `new − 1` (43_bitpack.md R171). -/
def packedByte (s : State) (old new : Nat) (c : Word) (j : Nat) : Byte :=
  BitVec.ofNat 8 (bitsToNat (fun t =>
    if 8 * j + t < old then s.pbufBit (8 * j + t)
    else if 8 * j + t < new then c.getLsbD (8 * j + t - old)
    else false) 8)

/-- `PackBits(c, w)` (43_bitpack.md R171). -/
def State.packBits (s : State) (c : Word) (w : Nat) : State :=
  { s with
    pbuf := Memory.writeRange (packedByte s s.wptr.toNat (s.wptr.toNat + w) c) (s.wptr.toNat / 8)
      (bytesFor (s.wptr.toNat + w) - s.wptr.toNat / 8) s.pbuf
    wptr := BitVec.ofNat 32 (s.wptr.toNat + w) }

/-- The word of PBUF bytes `4k` to `4k + 3`, little-endian (20_memory.md R62). -/
def State.pbufWord (s : State) (k : Nat) : Word :=
  BitVec.ofNat 32 (bitsToNat (fun i => s.pbufBit (32 * k + i)) 32)

/-- Byte `m` of a word, little-endian (20_memory.md R62). -/
def byteOfWord (w : Word) (m : Nat) : Byte := w.extractLsb' (8 * m) 8

/-- Replace PBUF bytes `4k` to `4k + 3` (20_memory.md R62). -/
def State.setPbufWord (s : State) (k : Nat) (w : Word) : State :=
  { s with pbuf := Memory.writeRange (fun j => byteOfWord w (j - 4 * k)) (4 * k) 4 s.pbuf }

/-! ## Channels -/

/-- What the block holds for a channel (00_scope.md R17). -/
def State.chan (s : State) : Channel → ChannelState
  | .v => s.chanV
  | .w => s.chanW

/-- Replace what the block holds for a channel. -/
def State.setChan (s : State) (ch : Channel) (c : ChannelState) : State :=
  match ch with
  | .v => { s with chanV := c }
  | .w => { s with chanW := c }

/-! ## Taking an error and returning from one -/

/-- A cause and its ERR_INFO value (60_exceptions.md R191). -/
structure CmdError where
  cause : Cause
  info : Word
deriving DecidableEq, Repr

/-- The error entry for command word `c` (60_exceptions.md R196). -/
def State.errorEntry (s : State) (e : CmdError) (c : Word) : State :=
  { s with err := true, errCause := e.cause, errInfo := e.info, errCmd := c }

/-- The return from an error: clear STATUS.ERR and ERR_CAUSE, keep ERR_INFO and ERR_CMD (60_exceptions.md R200). -/
def State.clearError (s : State) : State := { s with err := false, errCause := .none }

/-- The end of a command: its staged writes where it completes, the error entry on the state before it where it raised
an error (00_scope.md R16, 60_exceptions.md R196). ERR_CMD is the one word of the instruction (log entry 13). -/
def complete (i : Instr) (s : State) (staged : Except CmdError State) : Host.Outcome State Fault Refusal :=
  match staged with
  | .ok t => .next t
  | .error e => .next (s.errorEntry e (encode i))

/-- The first check of a command that uses a channel (10_state.md R41, 60_exceptions.md R197). -/
def whenConfigured (s : State) (ch : Channel) (body : Except CmdError State) : Except CmdError State :=
  if (s.chan ch).cfgok then body else .error ⟨.notConfigured, channelWord ch⟩

/-- The check of an append of `w` bits (43_bitpack.md R172, 41_quantizer.md R140, 42_weight.md R162). -/
def whenRoom (s : State) (w : Nat) (body : Except CmdError State) : Except CmdError State :=
  if s.wptr.toNat + w ≤ s.pbufBits then body else .error ⟨.pbufOverflow, s.wptr⟩

/-- The check of a read of `w` bits (43_bitpack.md R173). -/
def whenData (s : State) (w : Nat) (body : Except CmdError State) : Except CmdError State :=
  if s.rptr.toNat + w ≤ s.wptr.toNat then body else .error ⟨.pbufUnderrun, s.rptr⟩

/-- Advance RPTR by the bits read (43_bitpack.md R174). -/
def State.advanceRptr (s : State) (w : Nat) : State := { s with rptr := BitVec.ofNat 32 (s.rptr.toNat + w) }

end Sys2Proof.Machine
end

