-- ==== Sys2Proof/Machine/Operands.lean ====
section
/-! DEFINITION. The operand forms: IN, OUT and CODE registers, the fields of CFG, the minimum of the weights
(10_state.md R29 to R37, 42_weight.md R160). -/

namespace Sys2Proof.Machine

/-- One register of four. -/
def Quad.get (q : Quad) : RegIdx → Word
  | .r0 => q.q0
  | .r1 => q.q1
  | .r2 => q.q2
  | .r3 => q.q3

/-- Write one register of four. -/
def Quad.set (q : Quad) (i : RegIdx) (x : Word) : Quad :=
  match i with
  | .r0 => { q with q0 := x }
  | .r1 => { q with q1 := x }
  | .r2 => { q with q2 := x }
  | .r3 => { q with q3 := x }

/-- Write the first `n` registers of four (42_weight.md R163). -/
def Quad.fill (q : Quad) (n : Nat) (x : Word) : Quad where
  q0 := if 0 < n then x else q.q0
  q1 := if 1 < n then x else q.q1
  q2 := if 2 < n then x else q.q2
  q3 := if 3 < n then x else q.q3

/-- `WMIN(n)`, the minimum of the first `n` registers, folded from IN0; `WMIN(1)` is IN0 unchanged (42_weight.md R160). -/
def Quad.wmin (q : Quad) (n : Nat) : Word := ([q.q1, q.q2, q.q3].take (n - 1)).foldl fmin32 q.q0

/-- `CODE[j]` (10_state.md R37). -/
def State.code (s : State) : CodeIdx → Word
  | .c0 => s.code0
  | .c1 => s.code1

/-- `CODE[j] <- x` (10_state.md R37). -/
def State.setCode (s : State) (j : CodeIdx) (x : Word) : State :=
  match j with
  | .c0 => { s with code0 := x }
  | .c1 => { s with code1 := x }

/-- `OUT[d] <- x` (10_state.md R36). -/
def State.setOut (s : State) (d : RegIdx) (x : Word) : State := { s with out := s.out.set d x }

/-- BITS of VCFG or WCFG, bits 4:0 (10_state.md R29, R30). -/
def cfgBits (c : Word) : Nat := field c 0 5

/-- DIST of VCFG or WCFG, bits 10:8 (10_state.md R29, R30). -/
def cfgDist (c : Word) : Nat := field c 8 3

/-- NPOL of WCFG, bits 18:16 (10_state.md R30). -/
def cfgNpol (c : Word) : Nat := field c 16 3

/-- The implemented bits of CFG[ch]: BITS and DIST, and NPOL for channel W (10_state.md R29, R30). -/
def cfgMask : Channel → Word
  | .v => 0x0000071F#32
  | .w => 0x0007071F#32

end Sys2Proof.Machine
end

