-- ==== Sys2Proof/Machine/BitPack.lean ====
section
/-! DEFINITION. The bit packer: PACK, UNPACK, RSTPTR, NOP (43_bitpack.md). -/

namespace Sys2Proof.Machine

/-- PACK, staged (43_bitpack.md R172): a code with bits above `w` is an error, never truncated. -/
def stagePack (j : CodeIdx) (w : Nat) (s : State) : Except CmdError State :=
  if w < 32 && decide (2 ^ w ≤ (s.code j).toNat) then .error ⟨.packCode, s.code j⟩
  else whenRoom s w (.ok (s.packBits (s.code j) w))

/-- UNPACK, staged (43_bitpack.md R174). -/
def stageUnpack (j : CodeIdx) (w : Nat) (s : State) : Except CmdError State :=
  whenData s w (.ok ((s.setCode j (BitVec.ofNat 32 (s.streamBits s.rptr.toNat w))).advanceRptr w))

/-- RSTPTR, staged (43_bitpack.md R178). -/
def stageRstptr (pw pr : Bool) (s : State) : Except CmdError State :=
  .ok { s with
    wptr := if pw then 0x00000000#32 else s.wptr
    rptr := if pr then 0x00000000#32 else s.rptr }

/-- PACK (43_bitpack.md R172). -/
def execPack (j : CodeIdx) (w : Nat) (s : State) : Host.Outcome State Fault Refusal :=
  complete (.pack j w) s (stagePack j w s)

/-- UNPACK (43_bitpack.md R174). -/
def execUnpack (j : CodeIdx) (w : Nat) (s : State) : Host.Outcome State Fault Refusal :=
  complete (.unpack j w) s (stageUnpack j w s)

/-- RSTPTR (43_bitpack.md R178). -/
def execRstptr (pw pr : Bool) (s : State) : Host.Outcome State Fault Refusal :=
  complete (.rstptr pw pr) s (stageRstptr pw pr s)

/-- NOP (43_bitpack.md R179). -/
def execNop (s : State) : Host.Outcome State Fault Refusal := complete .nop s (.ok s)

end Sys2Proof.Machine
end

