-- ==== Sys2Proof/Machine/Flags.lean ====
section
/-! DEFINITION. The bits of CTRL and STATUS, the interrupt line and the read-only views (10_state.md R25, R26, R28, R44,
R45, R50, 60_exceptions.md R191). -/

namespace Sys2Proof.Machine

/-- CTRL.DITHER_EN, bit 0 (10_state.md R25). -/
def State.ditherEn (s : State) : Bool := s.ctrl.getLsbD 0

/-- CTRL.ERR_IE, bit 1 (10_state.md R25). -/
def State.errIe (s : State) : Bool := s.ctrl.getLsbD 1

/-- The implemented bits of CTRL (10_state.md R25). -/
def ctrlMask : Word := 0x00000003#32

/-- The irq line (10_state.md R50, 60_exceptions.md R202). -/
def State.irq (s : State) : Bool := s.err && s.errIe

/-- STATUS: ERR, V_READY, W_READY (10_state.md R26). -/
def State.statusWord (s : State) : Word :=
  BitVec.ofNat 32 (s.err.toNat + 2 * s.chanV.cfgok.toNat + 4 * s.chanW.cfgok.toNat)

/-- The cause codes (60_exceptions.md R191). -/
def causeCode : Cause → Word
  | .none => 0x00000000#32
  | .illegalCmd => 0x00000001#32
  | .cfgBits => 0x00000002#32
  | .cfgDist => 0x00000003#32
  | .cfgParam => 0x00000004#32
  | .cfgNpol => 0x00000005#32
  | .notConfigured => 0x00000006#32
  | .factor => 0x00000007#32
  | .rangeCode => 0x00000008#32
  | .packCode => 0x00000009#32
  | .pbufOverflow => 0x0000000A#32
  | .pbufUnderrun => 0x0000000B#32
  | .decOverflow => 0x0000000C#32
  | .cdfNan => 0x0000000D#32

/-- PLEN, `ceil(WPTR / 8)` (10_state.md R44). -/
def State.plen (s : State) : Word := BitVec.ofNat 32 (bytesFor s.wptr.toNat)

/-- PBUF_SIZE (10_state.md R45). -/
def State.pbufSize (s : State) : Word := BitVec.ofNat 32 s.pbufBytes

/-- The constant of ID (10_state.md R23). -/
def idValue : Word := 0x44595343#32

/-- The constant of VERSION (10_state.md R24). -/
def versionValue : Word := 0x00000001#32

end Sys2Proof.Machine
end

