-- ==== Sys2Proof/Machine/Tables.lean ====
section
/-! DEFINITION. The inverse-CDF lookup engine: CDFQ, INVT and the quantization tables (00_scope.md R10, R11,
10_state.md R42, 40_distribution.md R103). -/

namespace Sys2Proof.Machine

/-- `CDFQ(kind, param, x)` (00_scope.md R10): exact for Uniform (40_distribution.md R104), open for the other kinds
(R106, log entry 8), of which Gaussian does not use the parameter (10_state.md R32). -/
def cdfq (k : DistKind) (p x : Word) : Word :=
  match k with
  | .uniform => uniformCdf x
  | .gaussian => Config.dist.cdfq .gaussian p x
  | .truncatedGaussian => Config.dist.cdfq .truncatedGaussian p x
  | .studentsT => Config.dist.cdfq .studentsT p x

/-- `INVT(kind, param, b, i)` (00_scope.md R11): exact for Uniform (40_distribution.md R105), open for the other kinds
(R107, log entry 8), of which Gaussian does not use the parameter (10_state.md R32). -/
def invt (k : DistKind) (p : Word) (b i : Nat) : Word :=
  match k with
  | .uniform => uniformInv b i
  | .gaussian => Config.dist.invt .gaussian p b i
  | .truncatedGaussian => Config.dist.invt .truncatedGaussian p b i
  | .studentsT => Config.dist.invt .studentsT p b i

/-- `f i, f (i + 1), …`, `n` of them. -/
def listFrom (f : Nat → Word) (i : Nat) : Nat → List Word
  | 0 => []
  | n + 1 => f i :: listFrom f (i + 1) n

/-- The entries `0..N − 1` of the table of a configuration (40_distribution.md R103). -/
def buildTable (a : ActiveConfig) : List Word := listFrom (invt a.dist a.param a.bits) 0 (2 ^ a.bits)

/-- `TAB[ch][i]`: a built table's entries, +0 above them (40_distribution.md R100); before any CONFIG the free reset
contents (70_reset_and_hazards.md R222, log entry 5). -/
def State.tabEntry (s : State) (ch : Channel) (i : Nat) : Word :=
  match (s.chan ch).table with
  | some l => l.getD i 0x00000000#32
  | none => Config.tableAtReset s.resets ch i

end Sys2Proof.Machine
end

