-- ==== Sys2Proof/Machine/Quant.lean ====
section
/-! DEFINITION. The functions the quantizing and decoding commands share: draw, the dither, QUANT and DEQ
(41_quantizer.md R131 to R136). -/

namespace Sys2Proof.Machine

/-- The state after one draw, which is the value drawn: xorshift32 with shifts 13, 17, 5 (41_quantizer.md R131). -/
def drawNext (x : Word) : Word :=
  let x1 := x ^^^ (x <<< 13)
  let x2 := x1 ^^^ (x1 >>> 17)
  x2 ^^^ (x2 <<< 5)

/-- The dither of a draw `r` in probability-code units, `(r >> b) − 2^(31 − b)` (41_quantizer.md R132). -/
def ditherOf (b : Nat) (r : Word) : Int := (r.toNat / 2 ^ b : Nat) - (2 ^ (31 - b) : Nat)

/-- `clamp(floor((P + D) / M), 0, N − 2)` (41_quantizer.md R134). -/
def quantIndex (b : Nat) (p d : Int) : Nat := (min (max ((p + d) / (2 ^ (32 - b) : Nat)) 0) ((2 ^ b : Nat) - 2)).toNat

/-- A code and the dither state after it. -/
structure Quantized where
  code : Nat
  seed : Word
deriving DecidableEq, Repr

/-- The sentinel code `N − 1` (00_scope.md R18). -/
def sentinel (a : ActiveConfig) : Nat := 2 ^ a.bits - 1

/-- The probability code of a value under a factor (41_quantizer.md R134). -/
def probOf (a : ActiveConfig) (x f : Word) : Word := cdfq a.dist a.param (fdiv32 x (effFactor f))

/-- `QUANT(ch, x, f)` under the active configuration, DITHER_EN and DITHER_STATE (41_quantizer.md R134): a NaN gives the
sentinel and draws nothing; any other value is divided by the effective factor, mapped to its probability code,
dithered, and clamped. -/
def quantize (a : ActiveConfig) (ditherEn : Bool) (seed x f : Word) : Quantized :=
  if isNaN x then ⟨sentinel a, seed⟩
  else if ditherEn then
    ⟨quantIndex a.bits (probOf a x f).toNat (ditherOf a.bits (drawNext seed)), drawNext seed⟩
  else ⟨quantIndex a.bits (probOf a x f).toNat 0, seed⟩

/-- `DEQ(ch, c, f)` (41_quantizer.md R136). -/
def dequantize (s : State) (ch : Channel) (c : Nat) (f : Word) : Except CmdError Word :=
  if c = sentinel (s.chan ch).active then .ok qnan
  else if !validFactor f then .error ⟨.factor, f⟩
  else
    let v := fmul32 (s.tabEntry ch c) (effFactor f)
    if isInf v then .error ⟨.decOverflow, BitVec.ofNat 32 c⟩ else .ok v

/-- The factor check of an encode: needed when some value is not NaN (41_quantizer.md R133, R137, R140). -/
def whenFactor (needed : Bool) (f : Word) (body : Except CmdError State) : Except CmdError State :=
  if needed && !validFactor f then .error ⟨.factor, f⟩ else body

/-- Go on with a decoded value, or raise its error (41_quantizer.md R136, R141). -/
def withValue (r : Except CmdError Word) (body : Word → Except CmdError State) : Except CmdError State :=
  match r with
  | .ok v => body v
  | .error e => .error e

end Sys2Proof.Machine
end

