-- ==== Sys2Proof/Machine/Distribution.lean ====
section
/-! DEFINITION. The distribution model and table engine: CONFIG, CDF, LEVEL (40_distribution.md). -/

namespace Sys2Proof.Machine

/-- The number of polarizations a CONFIG latches: the NPOL field for channel W, 1 for channel V
(40_distribution.md R100). -/
def requestedNpol (ch : Channel) (cfg : Word) : Nat :=
  match ch with
  | .v => 1
  | .w => cfgNpol cfg

/-- The validation of a request, in the order BITS, DIST, PARAM, NPOL (40_distribution.md R100, R101). -/
def validate (ch : Channel) (cfg param : Word) : Except CmdError ActiveConfig :=
  if cfgBits cfg < Config.qbitsMin || Config.qbitsMax < cfgBits cfg then
    .error ⟨.cfgBits, BitVec.ofNat 32 (cfgBits cfg)⟩
  else
    match kindOfNum (cfgDist cfg) with
    | none => .error ⟨.cfgDist, BitVec.ofNat 32 (cfgDist cfg)⟩
    | some k =>
      if !paramOk k param then .error ⟨.cfgParam, param⟩
      else if requestedNpol ch cfg < 1 || Config.maxPol < requestedNpol ch cfg then
        .error ⟨.cfgNpol, BitVec.ofNat 32 (requestedNpol ch cfg)⟩
      else .ok { bits := cfgBits cfg, dist := k, param := param, npol := requestedNpol ch cfg }

/-- Latch an accepted configuration: A[ch], all entries of TAB[ch], CFGOK[ch] (40_distribution.md R100). -/
def latch (s : State) (ch : Channel) (a : ActiveConfig) : State :=
  s.setChan ch { s.chan ch with active := a, table := some (buildTable a), cfgok := true }

/-- CONFIG, staged (40_distribution.md R100, R102). -/
def stageConfig (ch : Channel) (s : State) : Except CmdError State :=
  match validate ch (s.chan ch).cfg (s.chan ch).param with
  | .ok a => .ok (latch s ch a)
  | .error e => .error e

/-- CDF, staged (40_distribution.md R110). -/
def stageCdf (ch : Channel) (src : RegIdx) (s : State) : Except CmdError State :=
  whenConfigured s ch
    (if isNaN (s.inp.get src) then .error ⟨.cdfNan, s.inp.get src⟩
     else .ok { s with prob := cdfq (s.chan ch).active.dist (s.chan ch).active.param (s.inp.get src) })

/-- LEVEL, staged (40_distribution.md R111): the entry of the bin of PROB. -/
def stageLevel (ch : Channel) (dst : RegIdx) (s : State) : Except CmdError State :=
  whenConfigured s ch (.ok (s.setOut dst (s.tabEntry ch (s.prob.toNat / 2 ^ (32 - (s.chan ch).active.bits)))))

/-- CONFIG (40_distribution.md R100). -/
def execConfig (ch : Channel) (s : State) : Host.Outcome State Fault Refusal :=
  complete (.config ch) s (stageConfig ch s)

/-- CDF (40_distribution.md R110). -/
def execCdf (ch : Channel) (src : RegIdx) (s : State) : Host.Outcome State Fault Refusal :=
  complete (.cdf ch src) s (stageCdf ch src s)

/-- LEVEL (40_distribution.md R111). -/
def execLevel (ch : Channel) (dst : RegIdx) (s : State) : Host.Outcome State Fault Refusal :=
  complete (.level ch dst) s (stageLevel ch dst s)

end Sys2Proof.Machine
end

