-- ==== Sys2Proof/Machine/Quantizer.lean ====
section
/-! DEFINITION. The stochastic quantizer: ENC, DEC, ENCV, DECV (41_quantizer.md). -/

namespace Sys2Proof.Machine

/-- ENC, staged (41_quantizer.md R137). -/
def stageEnc (ch : Channel) (src : RegIdx) (j : CodeIdx) (s : State) : Except CmdError State :=
  whenConfigured s ch
    (let x := s.inp.get src
     let f := (s.chan ch).factor
     let q := quantize (s.chan ch).active s.ditherEn s.dither x f
     whenFactor (!isNaN x) f
       (.ok ({ s with dither := q.seed }.setCode j (BitVec.ofNat 32 q.code))))

/-- DEC, staged (41_quantizer.md R138). -/
def stageDec (ch : Channel) (dst : RegIdx) (j : CodeIdx) (s : State) : Except CmdError State :=
  whenConfigured s ch
    (if sentinel (s.chan ch).active < (s.code j).toNat then .error ⟨.rangeCode, s.code j⟩
     else withValue (dequantize s ch (s.code j).toNat (s.chan ch).factor) fun v => .ok (s.setOut dst v))

/-- ENCV, staged (41_quantizer.md R140): the real part is quantized, drawn for and packed first. -/
def stageEncv (s : State) : Except CmdError State :=
  whenConfigured s .v
    (let a := s.chanV.active
     let f := s.chanV.factor
     let q0 := quantize a s.ditherEn s.dither s.inp.q0 f
     let q1 := quantize a s.ditherEn q0.seed s.inp.q1 f
     whenRoom s (2 * a.bits)
       (whenFactor (!isNaN s.inp.q0 || !isNaN s.inp.q1) f
         (.ok (({ s with
             dither := q1.seed
             code0 := BitVec.ofNat 32 q0.code
             code1 := BitVec.ofNat 32 q1.code }.packBits (BitVec.ofNat 32 q0.code) a.bits).packBits
               (BitVec.ofNat 32 q1.code) a.bits))))

/-- DECV, staged (41_quantizer.md R141): the real code comes first in the stream. -/
def stageDecv (s : State) : Except CmdError State :=
  whenConfigured s .v
    (let b := s.chanV.active.bits
     let c0 := s.streamBits s.rptr.toNat b
     let c1 := s.streamBits (s.rptr.toNat + b) b
     whenData s (2 * b)
       (withValue (dequantize s .v c0 s.chanV.factor) fun v0 =>
         withValue (dequantize s .v c1 s.chanV.factor) fun v1 =>
           .ok ({ s with
             code0 := BitVec.ofNat 32 c0
             code1 := BitVec.ofNat 32 c1
             out := { s.out with q0 := v0, q1 := v1 } }.advanceRptr (2 * b))))

/-- ENC (41_quantizer.md R137). -/
def execEnc (ch : Channel) (src : RegIdx) (j : CodeIdx) (s : State) : Host.Outcome State Fault Refusal :=
  complete (.enc ch src j) s (stageEnc ch src j s)

/-- DEC (41_quantizer.md R138). -/
def execDec (ch : Channel) (dst : RegIdx) (j : CodeIdx) (s : State) : Host.Outcome State Fault Refusal :=
  complete (.dec ch dst j) s (stageDec ch dst j s)

/-- ENCV (41_quantizer.md R140). -/
def execEncv (s : State) : Host.Outcome State Fault Refusal := complete .encv s (stageEncv s)

/-- DECV (41_quantizer.md R141). -/
def execDecv (s : State) : Host.Outcome State Fault Refusal := complete .decv s (stageDecv s)

end Sys2Proof.Machine
end

