-- ==== Sys2Proof/Machine/Weight.lean ====
section
/-! DEFINITION. The weight quantizer: ENCW, DECW (42_weight.md). -/

namespace Sys2Proof.Machine

/-- ENCW, staged (42_weight.md R162). -/
def stageEncw (s : State) : Except CmdError State :=
  whenConfigured s .w
    (let a := s.chanW.active
     let f := s.chanW.factor
     let x := s.inp.wmin a.npol
     let q := quantize a s.ditherEn s.dither x f
     whenRoom s a.bits
       (whenFactor (!isNaN x) f
         (.ok ({ s with
           dither := q.seed
           code0 := BitVec.ofNat 32 q.code }.packBits (BitVec.ofNat 32 q.code) a.bits))))

/-- DECW, staged (42_weight.md R163): the value is replicated to the first `n` outputs. -/
def stageDecw (s : State) : Except CmdError State :=
  whenConfigured s .w
    (let a := s.chanW.active
     let c := s.streamBits s.rptr.toNat a.bits
     whenData s a.bits
       (withValue (dequantize s .w c s.chanW.factor) fun v =>
         .ok ({ s with
           code0 := BitVec.ofNat 32 c
           out := s.out.fill a.npol v }.advanceRptr a.bits)))

/-- ENCW (42_weight.md R162). -/
def execEncw (s : State) : Host.Outcome State Fault Refusal := complete .encw s (stageEncw s)

/-- DECW (42_weight.md R163). -/
def execDecw (s : State) : Host.Outcome State Fault Refusal := complete .decw s (stageDecw s)

end Sys2Proof.Machine
end

