-- ==== Sys2Proof/Machine/Dispatch.lean ====
section
/-! DEFINITION. One arm per command: what a legal command word does once the ERR gate has let it through
(60_exceptions.md R197). -/

namespace Sys2Proof.Machine

def exec (i : Instr) (s : State) : Host.Outcome State Fault Refusal :=
  match i with
  | .nop => Sys2Proof.Machine.execNop s
  | .config ch => Sys2Proof.Machine.execConfig ch s
  | .enc ch src csel => Sys2Proof.Machine.execEnc ch src csel s
  | .dec ch dst csel => Sys2Proof.Machine.execDec ch dst csel s
  | .pack csel width => Sys2Proof.Machine.execPack csel width s
  | .unpack csel width => Sys2Proof.Machine.execUnpack csel width s
  | .encv => Sys2Proof.Machine.execEncv s
  | .decv => Sys2Proof.Machine.execDecv s
  | .encw => Sys2Proof.Machine.execEncw s
  | .decw => Sys2Proof.Machine.execDecw s
  | .cdf ch src => Sys2Proof.Machine.execCdf ch src s
  | .level ch dst => Sys2Proof.Machine.execLevel ch dst s
  | .rstptr pw pr => Sys2Proof.Machine.execRstptr pw pr s

end Sys2Proof.Machine
end

