-- ==== Sys2Proof/Machine/Registers.lean ====
section
/-! DEFINITION. The register page as the host sees it: the register map, reads and writes by access class
(10_state.md section 3, R47). -/

namespace Sys2Proof.Machine

/-- The registers of the register page (10_state.md section 3). -/
inductive HostReg
  | id
  | version
  | ctrl
  | status
  | cmd
  | errCause
  | errInfo
  | errCmd
  | vcfg
  | vparam
  | wcfg
  | wparam
  | vfactor
  | wfactor
  | ditherState
  | prob
  | inp (i : RegIdx)
  | out (i : RegIdx)
  | code (j : CodeIdx)
  | wptr
  | rptr
  | plen
  | pbufSize
deriving DecidableEq, Repr

/-- The byte offset of a register in the register page (10_state.md section 3). -/
def regOffset : HostReg → Nat
  | .id => 0x000
  | .version => 0x004
  | .ctrl => 0x008
  | .status => 0x00C
  | .cmd => 0x010
  | .errCause => 0x014
  | .errInfo => 0x018
  | .errCmd => 0x01C
  | .vcfg => 0x020
  | .vparam => 0x024
  | .wcfg => 0x028
  | .wparam => 0x02C
  | .vfactor => 0x030
  | .wfactor => 0x034
  | .ditherState => 0x038
  | .prob => 0x03C
  | .inp i => 0x040 + 4 * regNum i
  | .out i => 0x050 + 4 * regNum i
  | .code j => 0x060 + 4 * codeNum j
  | .wptr => 0x068
  | .rptr => 0x06C
  | .plen => 0x070
  | .pbufSize => 0x074

/-- Every register of the page (10_state.md section 3). -/
def allRegs : List HostReg :=
  [.id, .version, .ctrl, .status, .cmd, .errCause, .errInfo, .errCmd, .vcfg, .vparam, .wcfg, .wparam, .vfactor, .wfactor,
    .ditherState, .prob, .inp .r0, .inp .r1, .inp .r2, .inp .r3, .out .r0, .out .r1, .out .r2, .out .r3, .code .c0,
    .code .c1, .wptr, .rptr, .plen, .pbufSize]

/-- The register at an offset; none at the reserved offsets (10_state.md R46). -/
def regAt (offset : Nat) : Option HostReg := allRegs.find? fun r => regOffset r == offset

/-- What a read of a register returns (10_state.md R23 to R45). -/
def State.readReg (s : State) : HostReg → Word
  | .id => idValue
  | .version => versionValue
  | .ctrl => s.ctrl
  | .status => s.statusWord
  | .cmd => 0x00000000#32
  | .errCause => causeCode s.errCause
  | .errInfo => s.errInfo
  | .errCmd => s.errCmd
  | .vcfg => s.chanV.cfg
  | .vparam => s.chanV.param
  | .wcfg => s.chanW.cfg
  | .wparam => s.chanW.param
  | .vfactor => s.chanV.factor
  | .wfactor => s.chanW.factor
  | .ditherState => s.dither
  | .prob => s.prob
  | .inp i => s.inp.get i
  | .out i => s.out.get i
  | .code j => s.code j
  | .wptr => s.wptr
  | .rptr => s.rptr
  | .plen => s.plen
  | .pbufSize => s.pbufSize

/-- The pointer a host write of `v` stores, `min(v, PBUF_BITS)` (10_state.md R38, R39). -/
def State.clampPointer (s : State) (v : Word) : Word := BitVec.ofNat 32 (min v.toNat s.pbufBits)

/-- What a write to STATUS does: bit 0 = 1 is the return from an error (60_exceptions.md R200). -/
def State.writeStatus (s : State) (v : Word) : State := if v.getLsbD 0 then s.clearError else s

/-- What a write of a register stores (10_state.md R23 to R47). A write to CMD is a command and is not handled here
(`commandWrite`). -/
def State.writeReg (s : State) (v : Word) : HostReg → State
  | .id => s
  | .version => s
  | .ctrl => { s with ctrl := v &&& ctrlMask }
  | .status => s.writeStatus v
  | .cmd => s
  | .errCause => s
  | .errInfo => s
  | .errCmd => s
  | .vcfg => { s with chanV := { s.chanV with cfg := v &&& cfgMask .v } }
  | .vparam => { s with chanV := { s.chanV with param := v } }
  | .wcfg => { s with chanW := { s.chanW with cfg := v &&& cfgMask .w } }
  | .wparam => { s with chanW := { s.chanW with param := v } }
  | .vfactor => { s with chanV := { s.chanV with factor := v } }
  | .wfactor => { s with chanW := { s.chanW with factor := v } }
  | .ditherState => { s with dither := if v = 0x00000000#32 then 0x00000001#32 else v }
  | .prob => { s with prob := v }
  | .inp i => { s with inp := s.inp.set i v }
  | .out _ => s
  | .code j => s.setCode j v
  | .wptr => { s with wptr := s.clampPointer v }
  | .rptr => { s with rptr := s.clampPointer v }
  | .plen => s
  | .pbufSize => s

end Sys2Proof.Machine
end

