-- ==== Sys2Proof/Machine/Bus.lean ====
section
/-! DEFINITION. The host bus: the address map, BusRead, BusWrite, the CMD write with its ERR gate, the reset input
(20_memory.md R60 to R72, 60_exceptions.md R195, 70_reset_and_hazards.md R220). -/

namespace Sys2Proof.Machine

/-- What an aligned address names (20_memory.md R61). -/
inductive Target
  /-- A register of the register page. -/
  | reg (r : HostReg)
  /-- Word `k` of PBUF. -/
  | pbuf (k : Nat)
  /-- Entry `i` of a channel's table. -/
  | table (ch : Channel) (i : Nat)
  /-- Reserved, unmapped or beyond PBUF: RAZ/WI. -/
  | unmapped
deriving DecidableEq, Repr

/-- The address map (20_memory.md R61 to R64, 10_state.md R46). -/
def targetOf (pbufBytes : Nat) (addr : BusAddr) : Target :=
  let a := addr.toNat
  if a < 0x00100 then
    match regAt a with
    | some r => .reg r
    | none => .unmapped
  else if 0x10000 ≤ a && a < 0x20000 then
    if (a - 0x10000) / 4 < pbufBytes / 4 then .pbuf ((a - 0x10000) / 4) else .unmapped
  else if 0x40000 ≤ a && a < 0x80000 then .table .v ((a - 0x40000) / 4)
  else if 0x80000 ≤ a && a < 0xC0000 then .table .w ((a - 0x80000) / 4)
  else .unmapped

/-- An access with `addr[1:0] ≠ 0` (20_memory.md R65). -/
def misaligned (addr : BusAddr) : Bool := addr.toNat % 4 != 0

/-- The data a BusRead returns with its answer: 0 with a bus error (20_memory.md R65). -/
def answerData : BusAnswer → Word
  | .none => 0x00000000#32
  | .data w => w
  | .done => 0x00000000#32
  | .busFault _ => 0x00000000#32

/-- The data of an aligned BusRead (20_memory.md R61 to R64). -/
def State.readTarget (s : State) : Target → Word
  | .reg r => s.readReg r
  | .pbuf k => s.pbufWord k
  | .table ch i => s.tabEntry ch i
  | .unmapped => 0x00000000#32

/-- The effect of an aligned BusWrite other than to CMD (20_memory.md R61 to R64). -/
def State.writeTarget (s : State) (v : Word) : Target → State
  | .reg r => s.writeReg v r
  | .pbuf k => s.setPbufWord k v
  | .table _ _ => s
  | .unmapped => s

/-- A CMD write: ignored while STATUS.ERR = 1 (60_exceptions.md R195); else decoded, ILLEGAL_CMD if no command
(30_encoding.md R83, R84), and executed. The gate stands here and not in `exec` (log entry 14). -/
def commandWrite (c : Word) (s : State) : Host.Outcome State Fault Refusal :=
  if s.err then .next s
  else
    match decode c with
    | .ok i => exec i s
    | .error _ => .next (s.errorEntry ⟨.illegalCmd, c⟩ c)

/-- Perform one host access on a state that no longer lists it (20_memory.md R60, R65, R72,
70_reset_and_hazards.md R220). Reset keeps the accesses to come and PBUF_BYTES (log entry 15). -/
def access (h : HostAccess) (s : State) : Host.Outcome State Fault Refusal :=
  match h with
  | .read addr =>
    if misaligned addr then .next { s with answer := .busFault addr }
    else .next { s with answer := .data (s.readTarget (targetOf s.pbufBytes addr)) }
  | .write addr data =>
    if misaligned addr then .next { s with answer := .busFault addr }
    else if targetOf s.pbufBytes addr = .reg .cmd then commandWrite data { s with answer := .done }
    else .next ({ s with answer := .done }.writeTarget data (targetOf s.pbufBytes addr))
  | .reset => .next (State.resetWith s.pbufBytes (s.resets + 1) s.accesses)

/-- The next host access, or waiting where none has come (70_reset_and_hazards.md R223, log entry 2). -/
def nextAccess (s : State) : Host.Outcome State Fault Refusal :=
  match s.accesses with
  | [] => .next s
  | h :: rest => access h { s with accesses := rest }

/-- The address of CMD (10_state.md R27). -/
def cmdAddr : BusAddr := 0x00010#20

end Sys2Proof.Machine
end

