-- ==== Sys2Proof/Machine/Step.lean ====
section
/-! DEFINITION. One step of the block: the host's next access (00_scope.md R2, 10_state.md R20). -/

namespace Sys2Proof.Machine

/-- One step: the host's next access, in full (00_scope.md R2, R16). -/
def step (s : State) : Host.Outcome State Fault Refusal := nextAccess s

/-- `s` with the CMD write of a command word as the host's very next access (10_state.md R22, R27, log entry 2). -/
def State.withFetchWord (s : State) (nbits w : Nat) : State :=
  { s with accesses := .write cmdAddr (BitVec.ofNat 32 (w % 2 ^ nbits)) :: s.accesses }

end Sys2Proof.Machine
end

