-- ==== Sys2Proof/Safety.lean ====
section
/-! DEFINITION. What claims about the block are stated in: the invariant of its states, the state a failed command
leaves, what each command may write, the register map as numbers, and the sequences of packs and unpacks. -/

namespace Sys2Proof.Machine

/-- `A[ch]` holds a configuration that CONFIG accepts (10_state.md R40, 40_distribution.md R101). -/
structure ActiveOk (ch : Channel) (a : ActiveConfig) : Prop where
  bitsMin : 2 ≤ a.bits
  bitsMax : a.bits ≤ 16
  param : paramOk a.dist a.param = true
  npolMin : 1 ≤ a.npol
  npolMax : a.npol ≤ 4
  npolV : ch = .v → a.npol = 1

/-- A ready channel holds a validated configuration and the table built from it (10_state.md R41). -/
structure ChannelOk (ch : Channel) (c : ChannelState) : Prop where
  active : c.cfgok = true → ActiveOk ch c.active
  table : c.cfgok = true → c.table = some (buildTable c.active)
  cfgReserved : c.cfg &&& cfgMask ch = c.cfg

/-- The states of a block with a legal PBUF_BYTES: the reserved bits read 0 (10_state.md R25, R29, R30), DITHER_STATE is
never 0 (R33), the pointers stay within PBUF (R38, R39), PBUF is in canonical form and within its size (R43), a cause is
recorded exactly while STATUS.ERR = 1 (R28, 60_exceptions.md R200), and the channels are consistent (R41). -/
structure State.Inv (s : State) : Prop where
  pbufBytes : Config.pbufBytesOk s.pbufBytes = true
  ctrlReserved : s.ctrl &&& ctrlMask = s.ctrl
  cause : s.errCause = .none ↔ s.err = false
  chanV : ChannelOk .v s.chanV
  chanW : ChannelOk .w s.chanW
  dither : s.dither ≠ 0x00000000#32
  wptr : s.wptr.toNat ≤ s.pbufBits
  rptr : s.rptr.toNat ≤ s.pbufBits
  pbufWf : Memory.wf s.pbuf = true
  pbufWithin : Memory.within s.pbufBytes s.pbuf = true

/-- The state that an error of instruction `i` leaves: the state before it and the four writes of the error entry
(60_exceptions.md R196). -/
def State.failed (s : State) (i : Instr) (cause : Cause) (info : Word) : State :=
  { s with err := true, errCause := cause, errInfo := info, errCmd := encode i }

/-- `DEQ(ch, c, f)` completes with `v`: the sentinel gives QNAN whatever the factor, any other code the product of its
table entry and the effective factor, which is not infinite (41_quantizer.md R136). -/
def State.Decodes (s : State) (ch : Channel) (c : Nat) (f v : Word) : Prop :=
  (c + 1 = 2 ^ (s.chan ch).active.bits ∧ v = 0x7FC00000#32) ∨
    (c + 1 ≠ 2 ^ (s.chan ch).active.bits ∧ validFactor f = true ∧ v = fmul32 (s.tabEntry ch c) (effFactor f) ∧
      isInf v = false)

/-- The commands that quantize (10_state.md R48): they may write DITHER_STATE. -/
def quantizes : Instr → Bool
  | .enc _ _ _ => true
  | .encv => true
  | .encw => true
  | .nop | .config _ | .dec _ _ _ | .pack _ _ | .unpack _ _ | .decv | .decw | .cdf _ _ | .level _ _ | .rstptr _ _ => false

/-- The commands that append to the stream (10_state.md R48): they write PBUF and WPTR. -/
def appends : Instr → Bool
  | .pack _ _ => true
  | .encv => true
  | .encw => true
  | .nop | .config _ | .enc _ _ _ | .dec _ _ _ | .unpack _ _ | .decv | .decw | .cdf _ _ | .level _ _ | .rstptr _ _ => false

/-- The commands that take from the stream (10_state.md R48): they write RPTR. -/
def takes : Instr → Bool
  | .unpack _ _ => true
  | .decv => true
  | .decw => true
  | .nop | .config _ | .enc _ _ _ | .dec _ _ _ | .pack _ _ | .encv | .encw | .cdf _ _ | .level _ _ | .rstptr _ _ => false

/-- The command may write CODE[j] (10_state.md R48). -/
def writesCode (j : CodeIdx) : Instr → Bool
  | .enc _ _ k => k == j
  | .unpack k _ => k == j
  | .encv => true
  | .decv => true
  | .encw => j == .c0
  | .decw => j == .c0
  | .nop | .config _ | .dec _ _ _ | .pack _ _ | .cdf _ _ | .level _ _ | .rstptr _ _ => false

/-- The command may write OUT[k], where channel W has `n` polarizations (10_state.md R48, 42_weight.md R161). -/
def writesOut (n : Nat) (k : RegIdx) : Instr → Bool
  | .dec _ d _ => d == k
  | .level _ d => d == k
  | .decv => k == .r0 || k == .r1
  | .decw => decide (regNum k < n)
  | .nop | .config _ | .enc _ _ _ | .pack _ _ | .unpack _ _ | .encv | .encw | .cdf _ _ | .rstptr _ _ => false

/-- How many draws a command makes that completes on `s`: one for each non-NaN value it quantizes while DITHER_EN = 1
(41_quantizer.md R145). -/
def drawCount (s : State) : Instr → Nat
  | .enc _ src _ => if s.ditherEn then (!isNaN (s.inp.get src)).toNat else 0
  | .encv => if s.ditherEn then (!isNaN s.inp.q0).toNat + (!isNaN s.inp.q1).toNat else 0
  | .encw => if s.ditherEn then (!isNaN (s.inp.wmin s.chanW.active.npol)).toNat else 0
  | .nop | .config _ | .dec _ _ _ | .pack _ _ | .unpack _ _ | .decv | .decw | .cdf _ _ | .level _ _ | .rstptr _ _ => 0

/-- The rows of the opcode map, each an opcode and the mask of the bits that must match, written out from
30_encoding.md R82. -/
def opcodeRows : List (Nat × Word) :=
  [(0x00, 0xFFFFFFFF#32), (0x01, 0xFFFFFEFF#32), (0x02, 0xFFFFD8FF#32), (0x03, 0xFFFFC6FF#32), (0x04, 0xFFE0DFFF#32),
    (0x05, 0xFFE0DFFF#32), (0x06, 0xFFFFFFFF#32), (0x07, 0xFFFFFFFF#32), (0x08, 0xFFFFFFFF#32), (0x09, 0xFFFFFFFF#32),
    (0x0A, 0xFFFFF8FF#32), (0x0B, 0xFFFFE6FF#32), (0x0C, 0xFCFFFFFF#32)]

/-- The address of each register, written out from the register map of 10_state.md section 3. -/
def registerAddr : HostReg → BusAddr
  | .id => 0x00000#20
  | .version => 0x00004#20
  | .ctrl => 0x00008#20
  | .status => 0x0000C#20
  | .cmd => 0x00010#20
  | .errCause => 0x00014#20
  | .errInfo => 0x00018#20
  | .errCmd => 0x0001C#20
  | .vcfg => 0x00020#20
  | .vparam => 0x00024#20
  | .wcfg => 0x00028#20
  | .wparam => 0x0002C#20
  | .vfactor => 0x00030#20
  | .wfactor => 0x00034#20
  | .ditherState => 0x00038#20
  | .prob => 0x0003C#20
  | .inp .r0 => 0x00040#20
  | .inp .r1 => 0x00044#20
  | .inp .r2 => 0x00048#20
  | .inp .r3 => 0x0004C#20
  | .out .r0 => 0x00050#20
  | .out .r1 => 0x00054#20
  | .out .r2 => 0x00058#20
  | .out .r3 => 0x0005C#20
  | .code .c0 => 0x00060#20
  | .code .c1 => 0x00064#20
  | .wptr => 0x00068#20
  | .rptr => 0x0006C#20
  | .plen => 0x00070#20
  | .pbufSize => 0x00074#20

/-- Write each code to CODE0 and PACK it with width `w` (43_bitpack.md R177). -/
def packAll (w : Nat) : List Word → State → Host.Outcome State Fault Refusal
  | [], s => .next s
  | c :: cs, s =>
    match exec (.pack .c0 w) (s.setCode .c0 c) with
    | .next t => packAll w cs t
    | .fault r => .fault r
    | .refused r => .refused r

/-- UNPACK `n` codes of width `w` into CODE0 and list, for each, what it left in CODE0 and STATUS.ERR after it
(43_bitpack.md R177). -/
def unpackAll (w : Nat) : Nat → State → List (Word × Bool)
  | 0, _ => []
  | n + 1, s =>
    match exec (.unpack .c0 w) s with
    | .next t => (t.code0, t.err) :: unpackAll w n t
    | .fault _ => []
    | .refused _ => []

end Sys2Proof.Machine
end

