-- ==== Sys2Proof/Certificates/Slice0/Obligations.lean ====
section
/-! DEFINITION. The statements about the block, each from numbered rules of spec/. -/

open Sys2Proof Sys2Proof.Machine

/-! ## Encoding -/

/-- 30_encoding.md R80, R81, R86: the decoder gives back every well-formed instruction from its word. -/
def Obligations.DecodeOfEncode : Prop :=
  ∀ i : Instr, i.wellFormed = true → decode (encode i) = .ok i

/-- 30_encoding.md R80 to R83: a legal word is the one word of the instruction it decodes to (so ERR_CMD, which the model
writes as that word, is the word the host wrote: log entry 13). -/
def Obligations.EncodeOfDecode : Prop :=
  ∀ (c : Word) (i : Instr), decode c = .ok i → encode i = c ∧ i.wellFormed = true

/-- 30_encoding.md R82: a word is the command of an opcode exactly when it matches the opcode under the row's mask. -/
def Obligations.DecodeFollowsOpcodeMap : Prop :=
  ∀ (c : Word), ∀ r ∈ opcodeRows, (∃ i, decode c = .ok i ∧ opcodeOf i = r.1) ↔ c &&& r.2 = BitVec.ofNat 32 r.1

/-- 30_encoding.md R84: an unknown opcode or a non-zero bit outside the opcode's fields raises ILLEGAL_CMD with the word
as ERR_INFO and changes nothing else; RSTPTR with PTRS = 0 is legal and changes nothing. -/
def Obligations.IllegalWordsRaiseIllegalCmd : Prop :=
  (∀ (s : State) (c : Word) (rest : List HostAccess), s.accesses = .write cmdAddr c :: rest → s.err = false →
    (0x0D ≤ c.toNat % 256 ∨ ∃ r ∈ opcodeRows, c.toNat % 256 = r.1 ∧ c &&& r.2 ≠ BitVec.ofNat 32 r.1) →
    step s = .next { s with
      accesses := rest, answer := .done, err := true, errCause := .illegalCmd, errInfo := c, errCmd := c }) ∧
  decode 0x0000000C#32 = .ok (.rstptr false false) ∧
  ∀ s : State, exec (.rstptr false false) s = .next s

/-- 30_encoding.md R88: the encoding examples and the illegal examples. -/
def Obligations.SpecWordsDecode : Prop :=
  (∀ p ∈ ([(0x00000001#32, .config .v), (0x00000101#32, .config .w), (0x00000002#32, .enc .v .r0 .c0),
      (0x00002702#32, .enc .w .r3 .c1), (0x00000003#32, .dec .v .r0 .c0), (0x00003103#32, .dec .w .r2 .c1),
      (0x00000004#32, .pack .c0 1), (0x00020004#32, .pack .c0 3), (0x000B0004#32, .pack .c0 12),
      (0x001F2004#32, .pack .c1 32), (0x00020005#32, .unpack .c0 3), (0x000B2005#32, .unpack .c1 12),
      (0x0000020A#32, .cdf .v .r1), (0x0000190B#32, .level .w .r3), (0x0100000C#32, .rstptr true false),
      (0x0200000C#32, .rstptr false true), (0x0300000C#32, .rstptr true true)] : List (Word × Instr)),
    decode p.1 = .ok p.2) ∧
  ∀ c ∈ [0x0000000D#32, 0x00000106#32, 0x00004002#32, 0x00010002#32, 0x80000000#32], ∀ i, decode c ≠ .ok i

/-! ## The step and the host bus -/

/-- 10_state.md R22, R27, 20_memory.md R72: a CMD write of a legal word runs its instruction on the state that no longer
lists the access and whose bus answer is the completed write. -/
def Obligations.StepRunsDecodedCommand : Prop :=
  ∀ (s : State) (c : Word) (i : Instr) (rest : List HostAccess), s.accesses = .write cmdAddr c :: rest → s.err = false →
    decode c = .ok i → step s = exec i { s with accesses := rest, answer := .done }

/-- 60_exceptions.md R195: a CMD write while STATUS.ERR = 1 is ignored, whatever the word; every other access works as it
does without an error. -/
def Obligations.ErrGateIgnoresCommands : Prop :=
  (∀ (s : State) (c : Word) (rest : List HostAccess), s.accesses = .write cmdAddr c :: rest → s.err = true →
    step s = .next { s with accesses := rest, answer := .done }) ∧
  (∀ (s : State) (addr : BusAddr) (rest : List HostAccess), s.accesses = .read addr :: rest → s.err = true →
    misaligned addr = false →
    step s = .next { s with accesses := rest, answer := .data (s.readTarget (targetOf s.pbufBytes addr)) }) ∧
  ∀ (s : State) (addr : BusAddr) (v : Word) (rest : List HostAccess), s.accesses = .write addr v :: rest → s.err = true →
    misaligned addr = false → addr ≠ cmdAddr →
    step s = .next ({ s with accesses := rest, answer := .done }.writeTarget v (targetOf s.pbufBytes addr))

/-- 20_memory.md R65: a misaligned access is answered `BusFault(addr)` with data 0, and no state of the block changes. -/
def Obligations.MisalignedAccessIsBusFault : Prop :=
  (∀ (s : State) (addr : BusAddr) (rest : List HostAccess), s.accesses = .read addr :: rest → addr.toNat % 4 ≠ 0 →
    step s = .next { s with accesses := rest, answer := .busFault addr }) ∧
  (∀ (s : State) (addr : BusAddr) (v : Word) (rest : List HostAccess), s.accesses = .write addr v :: rest →
    addr.toNat % 4 ≠ 0 → step s = .next { s with accesses := rest, answer := .busFault addr }) ∧
  ∀ addr : BusAddr, answerData (.busFault addr) = 0x00000000#32

/-- 20_memory.md R70, first sentence: a read changes no state of the block, and a second read of the same address gives
the same answer. -/
def Obligations.ReadsHaveNoSideEffect : Prop :=
  ∀ (s : State) (addr : BusAddr) (rest : List HostAccess), s.accesses = .read addr :: .read addr :: rest →
    ∃ a, step s = .next { s with accesses := .read addr :: rest, answer := a } ∧
      step { s with accesses := .read addr :: rest, answer := a } = .next { s with accesses := rest, answer := a }

/-- 20_memory.md R64, R61, 10_state.md R46: an aligned read of an unmapped address, or of a reserved offset of the register
page, returns 0 and a write to one is ignored. -/
def Obligations.UnmappedIsZeroAndIgnored : Prop :=
  ∀ (s : State) (addr : BusAddr) (v : Word) (rest : List HostAccess), addr.toNat % 4 = 0 →
    (0x00078 ≤ addr.toNat ∧ addr.toNat < 0x10000) ∨ (0x20000 ≤ addr.toNat ∧ addr.toNat < 0x40000) ∨
      0xC0000 ≤ addr.toNat →
    (s.accesses = .read addr :: rest → step s = .next { s with accesses := rest, answer := .data 0x00000000#32 }) ∧
    (s.accesses = .write addr v :: rest → step s = .next { s with accesses := rest, answer := .done })

/-- 20_memory.md R62: the PBUF window, little-endian, RAZ/WI beyond PBUF_BYTES, with WPTR and RPTR untouched. -/
def Obligations.PbufWindowIsLittleEndian : Prop :=
  ∀ (s : State) (k : Nat) (v : Word) (rest : List HostAccess), Config.pbufBytesOk s.pbufBytes = true → k < 0x4000 →
    (k < s.pbufBytes / 4 →
      (s.accesses = .read (BitVec.ofNat 20 (0x10000 + 4 * k)) :: rest →
        ∃ w : Word, step s = .next { s with accesses := rest, answer := .data w } ∧
          ∀ m, m < 4 → w.extractLsb' (8 * m) 8 = s.pbufByte (4 * k + m)) ∧
      (s.accesses = .write (BitVec.ofNat 20 (0x10000 + 4 * k)) v :: rest →
        ∃ t, step s = .next t ∧ t = { s with accesses := rest, answer := .done, pbuf := t.pbuf } ∧
          (∀ m, m < 4 → t.pbufByte (4 * k + m) = v.extractLsb' (8 * m) 8) ∧
          ∀ j, j < 4 * k ∨ 4 * k + 4 ≤ j → t.pbufByte j = s.pbufByte j)) ∧
    (s.pbufBytes / 4 ≤ k →
      (s.accesses = .read (BitVec.ofNat 20 (0x10000 + 4 * k)) :: rest →
        step s = .next { s with accesses := rest, answer := .data 0x00000000#32 }) ∧
      (s.accesses = .write (BitVec.ofNat 20 (0x10000 + 4 * k)) v :: rest →
        step s = .next { s with accesses := rest, answer := .done }))

/-- 20_memory.md R63: the table windows read the entries and ignore writes. -/
def Obligations.TableWindowsAreReadOnly : Prop :=
  ∀ (s : State) (i : Nat) (v : Word) (rest : List HostAccess), i < 65536 →
    (s.accesses = .read (BitVec.ofNat 20 (0x40000 + 4 * i)) :: rest →
      step s = .next { s with accesses := rest, answer := .data (s.tabEntry .v i) }) ∧
    (s.accesses = .read (BitVec.ofNat 20 (0x80000 + 4 * i)) :: rest →
      step s = .next { s with accesses := rest, answer := .data (s.tabEntry .w i) }) ∧
    (s.accesses = .write (BitVec.ofNat 20 (0x40000 + 4 * i)) v :: rest ∨
      s.accesses = .write (BitVec.ofNat 20 (0x80000 + 4 * i)) v :: rest →
      step s = .next { s with accesses := rest, answer := .done })

/-- 10_state.md section 3, 60_exceptions.md R191: what a host read of each register answers, at the address of the register
map, with nothing else changed; and what a host write of a register other than CMD and STATUS leaves in that register, by
its access class (R47), with nothing else changed but PLEN, which follows WPTR. -/
def Obligations.RegisterWriteStoresByAccessClass : Prop :=
  (∀ (s : State) (r : HostReg) (rest : List HostAccess), s.accesses = .read (registerAddr r) :: rest →
    step s = .next { s with
      accesses := rest
      answer := .data (match r with
        | .id => 0x44595343#32
        | .version => 0x00000001#32
        | .ctrl => s.ctrl
        | .status => BitVec.ofNat 32 (s.err.toNat + 2 * s.chanV.cfgok.toNat + 4 * s.chanW.cfgok.toNat)
        | .cmd => 0x00000000#32
        | .errCause =>
          match s.errCause with
          | .none => 0x00#32
          | .illegalCmd => 0x01#32
          | .cfgBits => 0x02#32
          | .cfgDist => 0x03#32
          | .cfgParam => 0x04#32
          | .cfgNpol => 0x05#32
          | .notConfigured => 0x06#32
          | .factor => 0x07#32
          | .rangeCode => 0x08#32
          | .packCode => 0x09#32
          | .pbufOverflow => 0x0A#32
          | .pbufUnderrun => 0x0B#32
          | .decOverflow => 0x0C#32
          | .cdfNan => 0x0D#32
        | .errInfo => s.errInfo
        | .errCmd => s.errCmd
        | .vcfg => s.chanV.cfg
        | .vparam => s.chanV.param
        | .wcfg => s.chanW.cfg
        | .wparam => s.chanW.param
        | .vfactor => s.chanV.factor
        | .wfactor => s.chanW.factor
        | .ditherState => s.dither
        | .prob => s.prob
        | .inp i => s.inp.get i
        | .out i => s.out.get i
        | .code j => s.code j
        | .wptr => s.wptr
        | .rptr => s.rptr
        | .plen => BitVec.ofNat 32 ((s.wptr.toNat + 7) / 8)
        | .pbufSize => BitVec.ofNat 32 s.pbufBytes) }) ∧
  ∀ (s : State) (r : HostReg) (v : Word) (rest : List HostAccess), r ≠ .cmd → r ≠ .status →
    s.accesses = .write (registerAddr r) v :: rest →
    ∃ t, step s = .next t ∧
      t.readReg r = (match r with
        | .ctrl => v &&& 0x00000003#32
        | .vcfg => v &&& 0x0000071F#32
        | .wcfg => v &&& 0x0007071F#32
        | .vparam | .wparam | .vfactor | .wfactor | .prob | .inp _ | .code _ => v
        | .ditherState => if v = 0x00000000#32 then 0x00000001#32 else v
        | .wptr | .rptr => if v.toNat ≤ 8 * s.pbufBytes then v else BitVec.ofNat 32 (8 * s.pbufBytes)
        | .id | .version | .status | .cmd | .errCause | .errInfo | .errCmd | .out _ | .plen | .pbufSize => s.readReg r) ∧
      (∀ r', r' ≠ r → ¬(r = .wptr ∧ r' = .plen) → t.readReg r' = s.readReg r') ∧
      (r = .wptr → t.readReg .plen = BitVec.ofNat 32 ((t.wptr.toNat + 7) / 8)) ∧
      (∀ ch, (t.chan ch).active = (s.chan ch).active ∧ (t.chan ch).cfgok = (s.chan ch).cfgok ∧
        (t.chan ch).table = (s.chan ch).table) ∧
      t.pbuf = s.pbuf ∧ t.pbufBytes = s.pbufBytes ∧ t.resets = s.resets ∧ t.accesses = rest ∧ t.answer = .done

/-- 10_state.md R33: DITHER_STATE stores what the host writes, 1 for 0, reads back its current value, is 1 after reset,
is never 0, and a command changes it only through draws. -/
def Obligations.DitherStateRegister : Prop :=
  (∀ (s : State) (v : Word) (rest : List HostAccess), s.accesses = .write 0x00038#20 v :: rest →
    step s = .next { s with
      accesses := rest, answer := .done, dither := if v = 0x00000000#32 then 0x00000001#32 else v }) ∧
  (∀ (s : State) (rest : List HostAccess), s.accesses = .read 0x00038#20 :: rest →
    step s = .next { s with accesses := rest, answer := .data s.dither }) ∧
  State.reset.dither = 0x00000001#32 ∧
  (∀ s t : State, s.dither ≠ 0x00000000#32 → step s = .next t → t.dither ≠ 0x00000000#32) ∧
  (∀ (i : Instr) (s t : State), exec i s = .next t → ∃ n, n ≤ 2 ∧ t.dither = drawNext^[n] s.dither) ∧
  ∀ x : Word, drawNext x = x ↔ x = 0x00000000#32

/-- 60_exceptions.md R200: a STATUS write with bit 0 = 1 clears ERR and ERR_CAUSE and keeps ERR_INFO and ERR_CMD; one with
bit 0 = 0 changes nothing; afterwards a CMD write executes again. -/
def Obligations.StatusWriteReturnsFromError : Prop :=
  (∀ (s : State) (v : Word) (rest : List HostAccess), s.accesses = .write 0x0000C#20 v :: rest →
    step s = .next (if v.getLsbD 0 then { s with accesses := rest, answer := .done, err := false, errCause := .none }
      else { s with accesses := rest, answer := .done })) ∧
  ∀ (s : State) (v c : Word) (i : Instr) (rest : List HostAccess),
    s.accesses = .write 0x0000C#20 v :: .write cmdAddr c :: rest → v.getLsbD 0 = true → decode c = .ok i →
    ∃ t, step s = .next t ∧ t.err = false ∧ step t = exec i { t with accesses := rest, answer := .done }

/-- 10_state.md R50: irq is STATUS.ERR and CTRL.ERR_IE, as the host reads them, and 0 at reset. -/
def Obligations.IrqIsErrAndErrIe : Prop :=
  (∀ s : State, s.irq = ((s.readReg .status).getLsbD 0 && (s.readReg .ctrl).getLsbD 1)) ∧ State.reset.irq = false

/-- 70_reset_and_hazards.md R221: the value of every register after the reset input, from any state, and right after
power-up; nothing is ready and irq is 0; PBUF_SIZE is constant over a reset. -/
def Obligations.ResetValues : Prop :=
  (∀ (s : State) (rest : List HostAccess), s.accesses = .reset :: rest →
    ∃ t, step s = .next t ∧ t.pbufBytes = s.pbufBytes ∧ t.readReg .pbufSize = s.readReg .pbufSize) ∧
  ∀ t : State, (t = State.reset ∨ ∃ (s : State) (rest : List HostAccess), s.accesses = .reset :: rest ∧ step s = .next t) →
    (∀ r : HostReg, t.readReg r = (match r with
      | .id => 0x44595343#32
      | .version | .ctrl | .ditherState => 0x00000001#32
      | .pbufSize => BitVec.ofNat 32 t.pbufBytes
      | .status | .cmd | .errCause | .errInfo | .errCmd | .vcfg | .vparam | .wcfg | .wparam | .vfactor | .wfactor | .prob
      | .inp _ | .out _ | .code _ | .wptr | .rptr | .plen => 0x00000000#32)) ∧
    t.chanV.cfgok = false ∧ t.chanW.cfgok = false ∧ t.irq = false

/-! ## Invariants and errors -/

/-- The reset state meets the invariant for every legal PBUF_BYTES (70_reset_and_hazards.md R221). -/
def Obligations.InvAtReset : Prop :=
  (∀ (n k : Nat) (l : List HostAccess), Config.pbufBytesOk n = true → (State.resetWith n k l).Inv) ∧ State.reset.Inv

/-- Every step keeps the invariant (10_state.md R25, R28 to R30, R33, R38 to R43): reserved bits read 0, DITHER_STATE is
not 0, the pointers stay within PBUF_BITS, PBUF stays canonical and within its size, a cause is recorded exactly while
ERR = 1, and a ready channel holds an accepted configuration and the table built from it. -/
def Obligations.StepKeepsInv : Prop :=
  ∀ s t : State, s.Inv → step s = .next t → t.Inv

/-- 60_exceptions.md R196: a command that raises an error leaves the state before it, plus the four writes of the error
entry; ERR_CMD is its word. -/
def Obligations.ErrorEntryIsPrecise : Prop :=
  (∀ (i : Instr) (s t : State), s.err = false → exec i s = .next t → t.err = true →
    ∃ cause info, cause ≠ .none ∧
      t = { s with err := true, errCause := cause, errInfo := info, errCmd := encode i }) ∧
  ∀ (s t : State) (c : Word) (rest : List HostAccess), s.accesses = .write cmdAddr c :: rest → s.err = false →
    step s = .next t → t.err = true → ∃ cause info, cause ≠ .none ∧
      t = { s with accesses := rest, answer := .done, err := true, errCause := cause, errInfo := info, errCmd := c }

/-- 70_reset_and_hazards.md R230, R231: the block never halts: every command and every step ends in a next state; a step
with no access to come leaves the state as it is (the model's choice, log entry 2, DESIGN CHOICE). -/
def Obligations.BlockNeverStops : Prop :=
  (∀ (i : Instr) (s : State), ∃ t, exec i s = .next t) ∧ (∀ s : State, ∃ t, step s = .next t) ∧
    ∀ s : State, s.accesses = [] → step s = .next s

/-- 10_state.md R48: what a command leaves unchanged, whether it completes or raises an error. -/
def Obligations.CommandsWriteOnlyTheirState : Prop :=
  ∀ (i : Instr) (s t : State), exec i s = .next t →
    t.ctrl = s.ctrl ∧ t.inp = s.inp ∧ t.pbufBytes = s.pbufBytes ∧ t.accesses = s.accesses ∧ t.answer = s.answer ∧
    t.resets = s.resets ∧
    (∀ ch, (t.chan ch).cfg = (s.chan ch).cfg ∧ (t.chan ch).param = (s.chan ch).param ∧
      (t.chan ch).factor = (s.chan ch).factor) ∧
    (∀ ch, i ≠ .config ch → t.chan ch = s.chan ch) ∧
    (quantizes i = false → t.dither = s.dither) ∧
    ((∀ ch src, i ≠ .cdf ch src) → t.prob = s.prob) ∧
    (∀ j, writesCode j i = false → t.code j = s.code j) ∧
    (∀ k, writesOut s.chanW.active.npol k i = false → t.out.get k = s.out.get k) ∧
    (appends i = false → ∀ j, t.pbufByte j = s.pbufByte j) ∧
    (appends i = false → (∀ pr, i ≠ .rstptr true pr) → t.wptr = s.wptr) ∧
    (takes i = false → (∀ pw, i ≠ .rstptr pw true) → t.rptr = s.rptr) ∧
    (t = { s with err := t.err, errCause := t.errCause, errInfo := t.errInfo, errCmd := t.errCmd } ∨
      (t.err = s.err ∧ t.errCause = s.errCause ∧ t.errInfo = s.errInfo ∧ t.errCmd = s.errCmd))

/-! ## Where each command completes, and with what -/

/-- 43_bitpack.md R178, R179: NOP changes nothing; RSTPTR zeroes the pointers it names, and PBUF and everything else stay. -/
def Obligations.NopAndRstptrEffects : Prop :=
  (∀ s : State, exec .nop s = .next s) ∧
  ∀ (s : State) (pw pr : Bool), exec (.rstptr pw pr) s = .next { s with
    wptr := if pw then 0x00000000#32 else s.wptr
    rptr := if pr then 0x00000000#32 else s.rptr }

/-- 43_bitpack.md R170 to R172: PACK of a code that fits, where there is room: the code's bits from WPTR on, zeros to the
end of the last byte, every other stream bit and every other register unchanged, WPTR advanced by the width. -/
def Obligations.PackAppendsCode : Prop :=
  ∀ (s : State) (j : CodeIdx) (w : Nat), 1 ≤ w → w ≤ 32 → (s.code j).toNat < 2 ^ w →
    s.wptr.toNat + w ≤ 8 * s.pbufBytes → Config.pbufBytesOk s.pbufBytes = true →
    ∃ t, exec (.pack j w) s = .next t ∧ t = { s with pbuf := t.pbuf, wptr := t.wptr } ∧
      t.wptr.toNat = s.wptr.toNat + w ∧
      (∀ k, t.pbufBit k =
        if k < s.wptr.toNat then s.pbufBit k
        else if k < s.wptr.toNat + w then (s.code j).getLsbD (k - s.wptr.toNat)
        else if k < 8 * ((s.wptr.toNat + w + 7) / 8) then false
        else s.pbufBit k) ∧
      ∀ b, b < s.wptr.toNat / 8 ∨ (s.wptr.toNat + w + 7) / 8 ≤ b → t.pbufByte b = s.pbufByte b

/-- 43_bitpack.md R173, R174: UNPACK of data before WPTR: the code is the `w` stream bits from RPTR, zero-extended, RPTR
advances by `w`, and nothing else changes. -/
def Obligations.UnpackReadsCode : Prop :=
  ∀ (s : State) (j : CodeIdx) (w : Nat), 1 ≤ w → w ≤ 32 → s.rptr.toNat + w ≤ s.wptr.toNat →
    ∃ t, exec (.unpack j w) s = .next t ∧ t = { s.setCode j (t.code j) with rptr := t.rptr } ∧
      t.rptr.toNat = s.rptr.toNat + w ∧
      ∀ i, i < 32 → (t.code j).getLsbD i = (decide (i < w) && s.pbufBit (s.rptr.toNat + i))

/-- 40_distribution.md R100, R101, R103: an accepted request is latched, all entries of the channel's table are written,
the channel is ready, and nothing else changes. The parameter of Uniform and Gaussian is latched and not used (R100, R105,
10_state.md R32). An entry whose quantile is beyond the binary32 range is the largest or the least finite value (R107 T1).
The saturation clause rests on three choices of the model: that the value beyond the range is the exact quantile (log
entry 20, DEDUCED), the integrals that stand for erf and the regularized incomplete beta function of R108 (log entry 12,
PRESUMED), and that the saturation is kept where it contradicts (Q5) (log entry 19, DESIGN CHOICE). -/
def Obligations.ConfigLatchesAcceptedRequest : Prop :=
  ∀ (s : State) (ch : Channel) (b n : Nat) (k : DistKind) (p : Word),
    b = (s.chan ch).cfg.toNat % 32 → 2 ≤ b → b ≤ 16 →
    kindOfNum ((s.chan ch).cfg.toNat / 256 % 8) = some k → p = (s.chan ch).param →
    (k = .truncatedGaussian ∨ k = .studentsT → isNaN p = false ∧ isInf p = false ∧ isZero p = false ∧ neg p = false) →
    n = (if ch = .w then (s.chan ch).cfg.toNat / 65536 % 8 else 1) → 1 ≤ n → n ≤ 4 →
    ∃ t, exec (.config ch) s = .next t ∧
      t = s.setChan ch { s.chan ch with
        active := { bits := b, dist := k, param := p, npol := n }, cfgok := true, table := (t.chan ch).table } ∧
      (∀ i, t.tabEntry ch i = if i < 2 ^ b then invt k p b i else 0x00000000#32) ∧
      (k = .uniform ∨ k = .gaussian → ∀ (i : Nat) (q : Word), i < 2 ^ b → t.tabEntry ch i = invt k q b i) ∧
      ∀ (i : Nat) (z : ℝ), i < 2 ^ b → IsCdf k (realValue p : ℝ) z ((2 * (i : ℝ) + 1) / 2 ^ (b + 1)) →
        ((2 ^ 24 - 1) * 2 ^ 104 < z → t.tabEntry ch i = 0x7F7FFFFF#32) ∧
        (z < -((2 ^ 24 - 1) * 2 ^ 104) → t.tabEntry ch i = 0xFF7FFFFF#32)

/-- 41_quantizer.md R131 to R134, R137: ENC of a NaN, of a number without dither, and of a number with dither. -/
def Obligations.EncWritesQuantizedCode : Prop :=
  ∀ (s : State) (ch : Channel) (src : RegIdx) (j : CodeIdx) (b : Nat) (x f : Word) (p : Int),
    (s.chan ch).cfgok = true → b = (s.chan ch).active.bits → 2 ≤ b → b ≤ 16 → x = s.inp.get src →
    f = (s.chan ch).factor →
    p = (cdfq (s.chan ch).active.dist (s.chan ch).active.param (fdiv32 x (if isZero f then 0x3F800000#32 else f))).toNat →
    (isNaN x = true → exec (.enc ch src j) s = .next (s.setCode j (BitVec.ofNat 32 (2 ^ b - 1)))) ∧
    (isNaN x = false → validFactor f = true → s.ditherEn = false →
      exec (.enc ch src j) s =
        .next (s.setCode j (BitVec.ofNat 32 (min (max (p / 2 ^ (32 - b)) 0) (2 ^ b - 2)).toNat))) ∧
    (isNaN x = false → validFactor f = true → s.ditherEn = true →
      exec (.enc ch src j) s =
        .next ({ s with dither := drawNext s.dither }.setCode j (BitVec.ofNat 32
          (min (max ((p + (((drawNext s.dither).toNat / 2 ^ b : Nat) - 2 ^ (31 - b) : Int)) / 2 ^ (32 - b)) 0)
            (2 ^ b - 2)).toNat)))

/-- 41_quantizer.md R136, R138: DEC of a code that decodes: the sentinel to QNAN whatever the factor, any other code to
its table entry times the effective factor. -/
def Obligations.DecWritesDecodedValue : Prop :=
  ∀ (s : State) (ch : Channel) (d : RegIdx) (j : CodeIdx) (v : Word), (s.chan ch).cfgok = true →
    (s.code j).toNat < 2 ^ (s.chan ch).active.bits → s.Decodes ch (s.code j).toNat (s.chan ch).factor v →
    exec (.dec ch d j) s = .next { s with out := s.out.set d v }

/-- 40_distribution.md R110: CDF of a value that is not NaN; the parameter of Uniform (R104) and Gaussian (R100, 10_state.md
R32) is not used. -/
def Obligations.CdfWritesProbability : Prop :=
  ∀ (s : State) (ch : Channel) (src : RegIdx), (s.chan ch).cfgok = true → isNaN (s.inp.get src) = false →
    exec (.cdf ch src) s =
      .next { s with prob := cdfq (s.chan ch).active.dist (s.chan ch).active.param (s.inp.get src) } ∧
    ((s.chan ch).active.dist = .uniform ∨ (s.chan ch).active.dist = .gaussian → ∀ q : Word,
      exec (.cdf ch src) s = .next { s with prob := cdfq (s.chan ch).active.dist q (s.inp.get src) })

/-- 40_distribution.md R111: LEVEL reads the entry of the bin of PROB, which is within the channel's table. -/
def Obligations.LevelReadsBin : Prop :=
  ∀ (s : State) (ch : Channel) (d : RegIdx) (b : Nat), (s.chan ch).cfgok = true → b = (s.chan ch).active.bits →
    2 ≤ b → b ≤ 16 →
    exec (.level ch d) s = .next { s with out := s.out.set d (s.tabEntry ch (s.prob.toNat / 2 ^ (32 - b))) } ∧
      s.prob.toNat / 2 ^ (32 - b) < 2 ^ b

/-- 41_quantizer.md R140: ENCV of two components, at least one factor-checked where a number is present: both codes, real
first in the draws and in the stream. -/
def Obligations.EncvQuantizesAndAppends : Prop :=
  ∀ (s : State) (b : Nat) (f : Word) (q0 q1 : Quantized), s.chanV.cfgok = true → b = s.chanV.active.bits → 2 ≤ b →
    b ≤ 16 → s.wptr.toNat + 2 * b ≤ 8 * s.pbufBytes → Config.pbufBytesOk s.pbufBytes = true → f = s.chanV.factor →
    (isNaN s.inp.q0 = true ∧ isNaN s.inp.q1 = true) ∨ validFactor f = true →
    q0 = quantize s.chanV.active s.ditherEn s.dither s.inp.q0 f →
    q1 = quantize s.chanV.active s.ditherEn q0.seed s.inp.q1 f →
    ∃ t, exec .encv s = .next t ∧
      t = { s with
        code0 := BitVec.ofNat 32 q0.code, code1 := BitVec.ofNat 32 q1.code, dither := q1.seed,
        pbuf := t.pbuf, wptr := t.wptr } ∧
      t.wptr.toNat = s.wptr.toNat + 2 * b ∧
      (∀ k, t.pbufBit k =
        if k < s.wptr.toNat then s.pbufBit k
        else if k < s.wptr.toNat + b then q0.code.testBit (k - s.wptr.toNat)
        else if k < s.wptr.toNat + 2 * b then q1.code.testBit (k - s.wptr.toNat - b)
        else if k < 8 * ((s.wptr.toNat + 2 * b + 7) / 8) then false
        else s.pbufBit k) ∧
      ∀ m, m < s.wptr.toNat / 8 ∨ (s.wptr.toNat + 2 * b + 7) / 8 ≤ m → t.pbufByte m = s.pbufByte m

/-- 41_quantizer.md R141: DECV of two codes that decode. -/
def Obligations.DecvDecodesPair : Prop :=
  ∀ (s : State) (b c0 c1 : Nat) (v0 v1 : Word), s.chanV.cfgok = true → b = s.chanV.active.bits → 2 ≤ b → b ≤ 16 →
    s.rptr.toNat + 2 * b ≤ s.wptr.toNat → c0 = s.streamBits s.rptr.toNat b → c1 = s.streamBits (s.rptr.toNat + b) b →
    s.Decodes .v c0 s.chanV.factor v0 → s.Decodes .v c1 s.chanV.factor v1 →
    exec .decv s = .next { s with
      code0 := BitVec.ofNat 32 c0, code1 := BitVec.ofNat 32 c1, out := { s.out with q0 := v0, q1 := v1 },
      rptr := BitVec.ofNat 32 (s.rptr.toNat + 2 * b) }

/-- 42_weight.md R160 to R162: ENCW of the minimum of the weights; CODE1 and everything unnamed unchanged. -/
def Obligations.EncwQuantizesMinimum : Prop :=
  ∀ (s : State) (b : Nat) (f x : Word) (q : Quantized), s.chanW.cfgok = true → b = s.chanW.active.bits → 2 ≤ b →
    b ≤ 16 → s.wptr.toNat + b ≤ 8 * s.pbufBytes → Config.pbufBytesOk s.pbufBytes = true → f = s.chanW.factor →
    x = (match s.chanW.active.npol with
      | 1 => s.inp.q0
      | 2 => fmin32 s.inp.q0 s.inp.q1
      | 3 => fmin32 (fmin32 s.inp.q0 s.inp.q1) s.inp.q2
      | _ => fmin32 (fmin32 (fmin32 s.inp.q0 s.inp.q1) s.inp.q2) s.inp.q3) →
    1 ≤ s.chanW.active.npol → s.chanW.active.npol ≤ 4 → isNaN x = true ∨ validFactor f = true →
    q = quantize s.chanW.active s.ditherEn s.dither x f →
    ∃ t, exec .encw s = .next t ∧
      t = { s with code0 := BitVec.ofNat 32 q.code, dither := q.seed, pbuf := t.pbuf, wptr := t.wptr } ∧
      t.wptr.toNat = s.wptr.toNat + b ∧
      (∀ k, t.pbufBit k =
        if k < s.wptr.toNat then s.pbufBit k
        else if k < s.wptr.toNat + b then q.code.testBit (k - s.wptr.toNat)
        else if k < 8 * ((s.wptr.toNat + b + 7) / 8) then false
        else s.pbufBit k) ∧
      ∀ m, m < s.wptr.toNat / 8 ∨ (s.wptr.toNat + b + 7) / 8 ≤ m → t.pbufByte m = s.pbufByte m

/-- 42_weight.md R163: DECW of a code that decodes: the value in the first `n` outputs, the others unchanged. -/
def Obligations.DecwReplicatesValue : Prop :=
  ∀ (s : State) (b c : Nat) (v : Word), s.chanW.cfgok = true → b = s.chanW.active.bits → 2 ≤ b → b ≤ 16 →
    s.rptr.toNat + b ≤ s.wptr.toNat → c = s.streamBits s.rptr.toNat b → s.Decodes .w c s.chanW.factor v →
    ∃ t, exec .decw s = .next t ∧
      t = { s with code0 := BitVec.ofNat 32 c, out := t.out, rptr := BitVec.ofNat 32 (s.rptr.toNat + b) } ∧
      ∀ k, t.out.get k = if regNum k < s.chanW.active.npol then v else s.out.get k

/-! ## Which errors each command raises, and in which order -/

/-- 40_distribution.md R101, R102, 60_exceptions.md R197: the first failing test of a request gives the cause, and only
the error entry happens. -/
def Obligations.ConfigRejectsInOrder : Prop :=
  ∀ (s : State) (ch : Channel) (b d n : Nat) (p : Word), b = (s.chan ch).cfg.toNat % 32 →
    d = (s.chan ch).cfg.toNat / 256 % 8 → p = (s.chan ch).param → n = (s.chan ch).cfg.toNat / 65536 % 8 →
    exec (.config ch) s =
      if b < 2 ∨ 16 < b then .next (s.failed (.config ch) .cfgBits (BitVec.ofNat 32 b))
      else if 3 < d then .next (s.failed (.config ch) .cfgDist (BitVec.ofNat 32 d))
      else if (d = 2 ∨ d = 3) ∧ (isNaN p = true ∨ isInf p = true ∨ isZero p = true ∨ neg p = true) then
        .next (s.failed (.config ch) .cfgParam p)
      else if ch = .w ∧ (n < 1 ∨ 4 < n) then .next (s.failed (.config ch) .cfgNpol (BitVec.ofNat 32 n))
      else .next (s.setChan ch { s.chan ch with
        active := {
          bits := b
          dist := if d = 0 then .uniform else if d = 1 then .gaussian else if d = 2 then .truncatedGaussian else .studentsT
          param := p
          npol := if ch = .w then n else 1 }
        cfgok := true
        table := some ((List.range (2 ^ b)).map
          (invt (if d = 0 then .uniform else if d = 1 then .gaussian else if d = 2 then .truncatedGaussian else .studentsT)
            p b)) })

/-- 41_quantizer.md R137, 60_exceptions.md R197: NOT_CONFIGURED, then FACTOR for a value that is not NaN. -/
def Obligations.EncErrors : Prop :=
  ∀ (s : State) (ch : Channel) (src : RegIdx) (j : CodeIdx),
    ((s.chan ch).cfgok = false →
      exec (.enc ch src j) s = .next (s.failed (.enc ch src j) .notConfigured (if ch = .v then 0#32 else 1#32))) ∧
    ((s.chan ch).cfgok = true → isNaN (s.inp.get src) = false → validFactor (s.chan ch).factor = false →
      exec (.enc ch src j) s = .next (s.failed (.enc ch src j) .factor (s.chan ch).factor))

/-- 41_quantizer.md R136, R138, 60_exceptions.md R197: NOT_CONFIGURED, RANGE_CODE, FACTOR, DEC_OVERFLOW. -/
def Obligations.DecErrors : Prop :=
  ∀ (s : State) (ch : Channel) (d : RegIdx) (j : CodeIdx) (n c : Nat) (f : Word), n = 2 ^ (s.chan ch).active.bits →
    c = (s.code j).toNat → f = (s.chan ch).factor →
    ((s.chan ch).cfgok = false →
      exec (.dec ch d j) s = .next (s.failed (.dec ch d j) .notConfigured (if ch = .v then 0#32 else 1#32))) ∧
    ((s.chan ch).cfgok = true → n ≤ c → exec (.dec ch d j) s = .next (s.failed (.dec ch d j) .rangeCode (s.code j))) ∧
    ((s.chan ch).cfgok = true → c + 1 < n → validFactor f = false →
      exec (.dec ch d j) s = .next (s.failed (.dec ch d j) .factor f)) ∧
    ((s.chan ch).cfgok = true → c + 1 < n → validFactor f = true →
      isInf (fmul32 (s.tabEntry ch c) (effFactor f)) = true →
      exec (.dec ch d j) s = .next (s.failed (.dec ch d j) .decOverflow (s.code j)))

/-- 40_distribution.md R110, R111, 60_exceptions.md R197: NOT_CONFIGURED of CDF and LEVEL, then CDF_NAN. -/
def Obligations.CdfAndLevelErrors : Prop :=
  ∀ (s : State) (ch : Channel) (r : RegIdx),
    ((s.chan ch).cfgok = false →
      exec (.cdf ch r) s = .next (s.failed (.cdf ch r) .notConfigured (if ch = .v then 0#32 else 1#32)) ∧
      exec (.level ch r) s = .next (s.failed (.level ch r) .notConfigured (if ch = .v then 0#32 else 1#32))) ∧
    ((s.chan ch).cfgok = true → isNaN (s.inp.get r) = true →
      exec (.cdf ch r) s = .next (s.failed (.cdf ch r) .cdfNan (s.inp.get r)))

/-- 41_quantizer.md R140, 60_exceptions.md R197: NOT_CONFIGURED, PBUF_OVERFLOW, FACTOR where a component is a number. -/
def Obligations.EncvErrors : Prop :=
  ∀ (s : State) (b : Nat) (f : Word), b = s.chanV.active.bits → f = s.chanV.factor →
    (s.chanV.cfgok = false → exec .encv s = .next (s.failed .encv .notConfigured 0#32)) ∧
    (s.chanV.cfgok = true → 8 * s.pbufBytes < s.wptr.toNat + 2 * b →
      exec .encv s = .next (s.failed .encv .pbufOverflow s.wptr)) ∧
    (s.chanV.cfgok = true → s.wptr.toNat + 2 * b ≤ 8 * s.pbufBytes →
      isNaN s.inp.q0 = false ∨ isNaN s.inp.q1 = false → validFactor f = false →
      exec .encv s = .next (s.failed .encv .factor f))

/-- 41_quantizer.md R141, 60_exceptions.md R197: NOT_CONFIGURED, PBUF_UNDERRUN, then FACTOR or DEC_OVERFLOW of the real
code, then of the imaginary code. -/
def Obligations.DecvErrors : Prop :=
  ∀ (s : State) (b c0 c1 : Nat) (f : Word), b = s.chanV.active.bits → f = s.chanV.factor →
    c0 = s.streamBits s.rptr.toNat b → c1 = s.streamBits (s.rptr.toNat + b) b →
    (s.chanV.cfgok = false → exec .decv s = .next (s.failed .decv .notConfigured 0#32)) ∧
    (s.chanV.cfgok = true → s.wptr.toNat < s.rptr.toNat + 2 * b →
      exec .decv s = .next (s.failed .decv .pbufUnderrun s.rptr)) ∧
    (s.chanV.cfgok = true → s.rptr.toNat + 2 * b ≤ s.wptr.toNat →
      (c0 + 1 ≠ 2 ^ b ∨ c1 + 1 ≠ 2 ^ b) → validFactor f = false →
      exec .decv s = .next (s.failed .decv .factor f)) ∧
    (s.chanV.cfgok = true → s.rptr.toNat + 2 * b ≤ s.wptr.toNat → c0 + 1 ≠ 2 ^ b → validFactor f = true →
      isInf (fmul32 (s.tabEntry .v c0) (effFactor f)) = true →
      exec .decv s = .next (s.failed .decv .decOverflow (BitVec.ofNat 32 c0))) ∧
    (∀ v0, s.chanV.cfgok = true → s.rptr.toNat + 2 * b ≤ s.wptr.toNat → s.Decodes .v c0 f v0 → c1 + 1 ≠ 2 ^ b →
      validFactor f = true → isInf (fmul32 (s.tabEntry .v c1) (effFactor f)) = true →
      exec .decv s = .next (s.failed .decv .decOverflow (BitVec.ofNat 32 c1)))

/-- 42_weight.md R162, 60_exceptions.md R197: NOT_CONFIGURED, PBUF_OVERFLOW, FACTOR where the minimum is a number. -/
def Obligations.EncwErrors : Prop :=
  ∀ (s : State) (b : Nat) (f : Word), b = s.chanW.active.bits → f = s.chanW.factor →
    (s.chanW.cfgok = false → exec .encw s = .next (s.failed .encw .notConfigured 1#32)) ∧
    (s.chanW.cfgok = true → 8 * s.pbufBytes < s.wptr.toNat + b →
      exec .encw s = .next (s.failed .encw .pbufOverflow s.wptr)) ∧
    (s.chanW.cfgok = true → s.wptr.toNat + b ≤ 8 * s.pbufBytes → isNaN (s.inp.wmin s.chanW.active.npol) = false →
      validFactor f = false → exec .encw s = .next (s.failed .encw .factor f))

/-- 42_weight.md R163, 60_exceptions.md R197: NOT_CONFIGURED, PBUF_UNDERRUN, FACTOR, DEC_OVERFLOW. -/
def Obligations.DecwErrors : Prop :=
  ∀ (s : State) (b c : Nat) (f : Word), b = s.chanW.active.bits → f = s.chanW.factor →
    c = s.streamBits s.rptr.toNat b →
    (s.chanW.cfgok = false → exec .decw s = .next (s.failed .decw .notConfigured 1#32)) ∧
    (s.chanW.cfgok = true → s.wptr.toNat < s.rptr.toNat + b →
      exec .decw s = .next (s.failed .decw .pbufUnderrun s.rptr)) ∧
    (s.chanW.cfgok = true → s.rptr.toNat + b ≤ s.wptr.toNat → c + 1 ≠ 2 ^ b → validFactor f = false →
      exec .decw s = .next (s.failed .decw .factor f)) ∧
    (s.chanW.cfgok = true → s.rptr.toNat + b ≤ s.wptr.toNat → c + 1 ≠ 2 ^ b → validFactor f = true →
      isInf (fmul32 (s.tabEntry .w c) (effFactor f)) = true →
      exec .decw s = .next (s.failed .decw .decOverflow (BitVec.ofNat 32 c)))

/-- 43_bitpack.md R172, R174, 60_exceptions.md R197: PACK_CODE, then PBUF_OVERFLOW; PBUF_UNDERRUN of UNPACK. -/
def Obligations.PackAndUnpackErrors : Prop :=
  ∀ (s : State) (j : CodeIdx) (w : Nat), 1 ≤ w → w ≤ 32 →
    (w < 32 → 2 ^ w ≤ (s.code j).toNat → exec (.pack j w) s = .next (s.failed (.pack j w) .packCode (s.code j))) ∧
    ((s.code j).toNat < 2 ^ w → 8 * s.pbufBytes < s.wptr.toNat + w →
      exec (.pack j w) s = .next (s.failed (.pack j w) .pbufOverflow s.wptr)) ∧
    (s.wptr.toNat < s.rptr.toNat + w →
      exec (.unpack j w) s = .next (s.failed (.unpack j w) .pbufUnderrun s.rptr))

/-! ## The dither and the quantizer -/

/-- 41_quantizer.md R131: the draws from the two states of 95_test_vectors.md 2.2; no two states give one draw, so from a
non-zero state the generator never reaches 0. -/
def Obligations.DrawNeverReachesZero : Prop :=
  (∀ x y : Word, drawNext x = drawNext y → x = y) ∧
  (∀ (n : Nat) (x : Word), x ≠ 0x00000000#32 → drawNext^[n] x ≠ 0x00000000#32) ∧
  drawNext^[1] 0x00000001#32 = 0x00042021#32 ∧ drawNext^[2] 0x00000001#32 = 0x04080601#32 ∧
  drawNext^[3] 0x00000001#32 = 0x9DCCA8C5#32 ∧ drawNext^[4] 0x00000001#32 = 0x1255994F#32 ∧
  drawNext^[5] 0x00000001#32 = 0x8EF917D1#32 ∧ drawNext^[6] 0x00000001#32 = 0x2C6F5BD0#32 ∧
  drawNext^[6] 0x12345678#32 = 0x29A8E24D#32

/-- 41_quantizer.md R132: the dither of a draw `r` is `(r >> b) − 2^(31 − b)`, each of its `M` values comes from `2^b`
draws, and it lies in DYSCO's interval; without DITHER_EN the dither is 0 and nothing is drawn. -/
def Obligations.DitherIsUniform : Prop :=
  ∀ b : Nat, 2 ≤ b → b ≤ 16 →
    (∀ r : Word, ditherOf b r = ((r >>> b).toNat : Int) - 2 ^ (31 - b) ∧
      -(2 ^ (31 - b) : Int) ≤ ditherOf b r ∧ ditherOf b r ≤ 2 ^ (31 - b) - 1 ∧
      -(1 / 2 / 2 ^ b : ℚ) ≤ (ditherOf b r : ℚ) / 2 ^ 32 ∧ (ditherOf b r : ℚ) / 2 ^ 32 < 1 / 2 / 2 ^ b) ∧
    (∀ d : Int, -(2 ^ (31 - b) : Int) ≤ d → d ≤ 2 ^ (31 - b) - 1 →
      (Finset.univ.filter fun r : Word => ditherOf b r = d).card = 2 ^ b) ∧
    ∀ (a : ActiveConfig) (seed x f : Word), a.bits = b → isNaN x = false →
      quantize a false seed x f = ⟨quantIndex b (probOf a x f).toNat 0, seed⟩ ∧
      quantize a true seed x f =
        ⟨quantIndex b (probOf a x f).toNat (ditherOf b (drawNext seed)), drawNext seed⟩

/-- 41_quantizer.md R133: a factor is valid when it is finite and not below 0 (−0 is 0); a zero is replaced by 1.0 and
every other valid factor is used as it is, so the effective factor is finite and positive. -/
def Obligations.FactorIsValidOrReplaced : Prop :=
  ∀ f : Word, (validFactor f = true ↔ isFinite f = true ∧ 0 ≤ realValue f) ∧
    (isZero f = true → realValue (effFactor f) = 1) ∧ (isZero f = false → effFactor f = f) ∧
    (validFactor f = true → isFinite (effFactor f) = true ∧ 0 < realValue (effFactor f))

/-- 41_quantizer.md R139: over the dithers of one bin width, the expected midpoint code is the probability code, away
from the clamped ends: the sum over the `M` dithers of `2 × QUANT + 1` is `2P`. -/
def Obligations.DitheredCodeIsUnbiased : Prop :=
  ∀ b p : Nat, 2 ≤ b → b ≤ 16 → 2 ^ (31 - b) ≤ p → 2 * p ≤ (2 * 2 ^ b - 3) * 2 ^ (32 - b) →
    ∑ u ∈ Finset.range (2 ^ (32 - b)), (2 * (quantIndex b p ((u : Int) - 2 ^ (31 - b)) : Int) + 1) = 2 * (p : Int)

/-- 41_quantizer.md R143: the sentinel is the code of NaN and of nothing else, and decodes to QNAN whatever the factor;
the same for each component of ENCV and DECV. -/
def Obligations.SentinelMeansNaN : Prop :=
  (∀ (s : State) (ch : Channel) (src : RegIdx) (j : CodeIdx), (s.chan ch).cfgok = true → isNaN (s.inp.get src) = true →
    ∃ t, exec (.enc ch src j) s = .next t ∧ t.code j = BitVec.ofNat 32 (2 ^ (s.chan ch).active.bits - 1)) ∧
  (∀ (s : State) (ch : Channel) (d : RegIdx) (j : CodeIdx), (s.chan ch).cfgok = true → (s.chan ch).active.bits ≤ 16 →
    s.code j = BitVec.ofNat 32 (2 ^ (s.chan ch).active.bits - 1) →
    ∃ t, exec (.dec ch d j) s = .next t ∧ t.out.get d = 0x7FC00000#32) ∧
  (∀ (s t : State) (ch : Channel) (src : RegIdx) (j : CodeIdx), s.err = false → 2 ≤ (s.chan ch).active.bits →
    (s.chan ch).active.bits ≤ 16 → exec (.enc ch src j) s = .next t → t.err = false → isNaN (s.inp.get src) = false →
    t.code j ≠ BitVec.ofNat 32 (2 ^ (s.chan ch).active.bits - 1)) ∧
  (∀ s t : State, s.err = false → 2 ≤ s.chanV.active.bits → s.chanV.active.bits ≤ 16 → exec .encv s = .next t →
    t.err = false →
    (t.code0 = BitVec.ofNat 32 (2 ^ s.chanV.active.bits - 1) ↔ isNaN s.inp.q0 = true) ∧
    (t.code1 = BitVec.ofNat 32 (2 ^ s.chanV.active.bits - 1) ↔ isNaN s.inp.q1 = true)) ∧
  ∀ s t : State, s.err = false → 2 ≤ s.chanV.active.bits → s.chanV.active.bits ≤ 16 → exec .decv s = .next t →
    t.err = false →
    (t.code0 = BitVec.ofNat 32 (2 ^ s.chanV.active.bits - 1) → t.out.q0 = 0x7FC00000#32) ∧
    (t.code1 = BitVec.ofNat 32 (2 ^ s.chanV.active.bits - 1) → t.out.q1 = 0x7FC00000#32)

/-- 41_quantizer.md R145: a command that completes draws once for each non-NaN value it quantizes with dither on, one
that raises an error draws nothing. -/
def Obligations.DrawsAreAccounted : Prop :=
  ∀ (i : Instr) (s t : State), s.err = false → exec i s = .next t →
    (t.err = true → t.dither = s.dither) ∧ (t.err = false → t.dither = drawNext^[drawCount s i] s.dither)

/-- 41_quantizer.md R142: without dither, a channel with property (Q5) gives back the code and the value of every table
entry below the top one, and the top entry encodes to `N − 2`. -/
def Obligations.RoundTripWithoutDither : Prop :=
  ∀ (s : State) (ch : Channel) (src d : RegIdx) (j : CodeIdx) (i : Nat) (y : Word), ChannelOk ch (s.chan ch) →
    (s.chan ch).cfgok = true → s.ditherEn = false → validFactor (s.chan ch).factor = true →
    (∀ k, k + 2 ≤ 2 ^ (s.chan ch).active.bits →
      (cdfq (s.chan ch).active.dist (s.chan ch).active.param (s.tabEntry ch k)).toNat /
        2 ^ (32 - (s.chan ch).active.bits) = k) →
    y = fmul32 (s.tabEntry ch i) (effFactor (s.chan ch).factor) →
    fdiv32 y (effFactor (s.chan ch).factor) = s.tabEntry ch i → s.inp.get src = y →
    (i + 2 ≤ 2 ^ (s.chan ch).active.bits →
      ∃ t u, exec (.enc ch src j) s = .next t ∧ (t.code j).toNat = i ∧ exec (.dec ch d j) t = .next u ∧
        u.out.get d = y ∧ u.err = s.err) ∧
    (i + 1 = 2 ^ (s.chan ch).active.bits →
      ∃ t, exec (.enc ch src j) s = .next t ∧ (t.code j).toNat + 2 = 2 ^ (s.chan ch).active.bits)

/-! ## The distributions and the tables -/

/-- 40_distribution.md R104: CDFQ of Uniform is the exact floor, and saturates at the ends. -/
def Obligations.UniformCdfIsExact : Prop :=
  ∀ p x : Word, isNaN x = false →
    (realRank x ≤ realRank 0xBF800000#32 → cdfq .uniform p x = 0x00000000#32) ∧
    (realRank 0x3F800000#32 ≤ realRank x → cdfq .uniform p x = 0xFFFFFFFF#32) ∧
    (realRank 0xBF800000#32 < realRank x → realRank x < realRank 0x3F800000#32 →
      isFinite x = true ∧ ((cdfq .uniform p x).toNat : Int) = ⌊(realValue x + 1) / 2 * 2 ^ 32⌋)

/-- 40_distribution.md R105: INVT of Uniform is the bin midpoint, exactly. -/
def Obligations.UniformTableIsExact : Prop :=
  ∀ (p : Word) (b i : Nat), 2 ≤ b → b ≤ 16 → i < 2 ^ b →
    isFinite (invt .uniform p b i) = true ∧ realValue (invt .uniform p b i) = (2 * (i : ℚ) + 1) / 2 ^ b - 1

/-- 40_distribution.md R106, last paragraph: Uniform has the properties (Q1) to (Q5) with `CDF_TOL = 0`, and (T1) to (T3)
with `INV_TOL = 0`, and does not use the parameter (R100). -/
def Obligations.UniformIsLawful : Prop :=
  ∀ p : Word, (DistFns.mk (fun _ q x => cdfq .uniform q x) (fun _ q b i => invt .uniform q b i) 0 0).Lawful .uniform p

/-- 40_distribution.md R112: the table laws of every configured channel. -/
def Obligations.TableLaws : Prop :=
  ∀ (s : State) (ch : Channel) (n : Nat), ChannelOk ch (s.chan ch) → (s.chan ch).cfgok = true →
    n = 2 ^ (s.chan ch).active.bits →
    (∀ i, i + 1 < n → realRank (s.tabEntry ch i) ≤ realRank (s.tabEntry ch (i + 1))) ∧
    (∀ i, i < n → isFinite (s.tabEntry ch i) = true) ∧
    ((s.chan ch).active.dist = .uniform →
      (∀ i, i < n → realValue (s.tabEntry ch (n - 1 - i)) = -realValue (s.tabEntry ch i)) ∧
      ∀ i, i + 1 < n → realValue (s.tabEntry ch (i + 1)) - realValue (s.tabEntry ch i) = 2 / (n : ℚ)) ∧
    ∀ i, n ≤ i → s.tabEntry ch i = 0x00000000#32

/-- 40_distribution.md R113: CDF then LEVEL gives the representative of the bin that holds the value, and maps every
table entry below the top one to itself (where (Q5) contradicts other properties this rests on what the model asks in its
place: log entries 9 and 19, DESIGN CHOICE). -/
def Obligations.CdfThenLevelFindsBin : Prop :=
  ∀ (s : State) (ch : Channel) (src d : RegIdx), ChannelOk ch (s.chan ch) → (s.chan ch).cfgok = true →
    isNaN (s.inp.get src) = false →
    ∃ t u, exec (.cdf ch src) s = .next t ∧ exec (.level ch d) t = .next u ∧
      u.out.get d = s.tabEntry ch ((cdfq (s.chan ch).active.dist (s.chan ch).active.param (s.inp.get src)).toNat /
        2 ^ (32 - (s.chan ch).active.bits)) ∧
      ∀ i, i + 2 ≤ 2 ^ (s.chan ch).active.bits →
        s.inp.get src = s.tabEntry ch i → u.out.get d = s.tabEntry ch i

/-! ## Weights -/

/-- 42_weight.md R160: the minimum of two weights is one of them and is below both in the real order, a zero counting as
−0 where either zero is −0; a NaN makes it QNAN; the minimum of `n` weights is a NaN exactly where one of them is. -/
def Obligations.MinimumOfWeights : Prop :=
  (∀ a b : Word, (isNaN a = true ∨ isNaN b = true → fmin32 a b = 0x7FC00000#32) ∧
    (isNaN a = false → isNaN b = false →
      (fmin32 a b = a ∨ fmin32 a b = b) ∧ realRank (fmin32 a b) = min (realRank a) (realRank b)) ∧
    (isZero a = true → isZero b = true →
      fmin32 a b = if neg a = true ∨ neg b = true then 0x80000000#32 else 0x00000000#32)) ∧
  (∀ q : Quad, q.wmin 1 = q.q0) ∧
  ∀ (q : Quad) (n : Nat), 1 ≤ n → n ≤ 4 →
    (isNaN (q.wmin n) = true ↔ ∃ k : RegIdx, regNum k < n ∧ isNaN (q.get k) = true)

/-- 42_weight.md R164: a permutation of the weights changes neither ENCW's code nor its draws; DECW writes one value to
every polarization; a row with a NaN weight decodes to QNAN in every polarization. -/
def Obligations.WeightLaws : Prop :=
  (∀ (s : State) (q : Quad), 1 ≤ s.chanW.active.npol → s.chanW.active.npol ≤ 4 →
    ([q.q0, q.q1, q.q2, q.q3].take s.chanW.active.npol).Perm
      ([s.inp.q0, s.inp.q1, s.inp.q2, s.inp.q3].take s.chanW.active.npol) →
    ∃ t, exec .encw s = .next t ∧ exec .encw { s with inp := q } = .next { t with inp := q }) ∧
  (∀ (s t : State) (k : RegIdx), s.err = false → exec .decw s = .next t → t.err = false →
    regNum k < s.chanW.active.npol → t.out.get k = t.out.get .r0) ∧
  ∀ (s t u : State) (k i : RegIdx), s.err = false → Config.pbufBytesOk s.pbufBytes = true →
    2 ≤ s.chanW.active.bits → s.chanW.active.bits ≤ 16 → regNum i < s.chanW.active.npol → isNaN (s.inp.get i) = true →
    exec .encw s = .next t → t.err = false → exec .decw { t with rptr := s.wptr } = .next u →
    regNum k < s.chanW.active.npol → u.err = false ∧ u.out.get k = 0x7FC00000#32

/-! ## The stream -/

/-- 43_bitpack.md R175, R176, 10_state.md R44: any codes below `2^w` that fit in the buffer are packed and come back
exactly, in order and with no error; between them the length of the packed data and its zero padding. -/
def Obligations.PackThenUnpackIsExact : Prop :=
  ∀ (s : State) (w : Nat) (cs : List Word), 1 ≤ w → w ≤ 32 → Config.pbufBytesOk s.pbufBytes = true →
    (∀ c ∈ cs, c.toNat < 2 ^ w) → cs.length * w ≤ 8 * s.pbufBytes →
    ∃ s0 t, exec (.rstptr true true) s = .next s0 ∧ packAll w cs s0 = .next t ∧ t.err = s.err ∧
      unpackAll w cs.length t = cs.map (fun c => (c, s.err)) ∧
      t.wptr.toNat = cs.length * w ∧ t.plen.toNat = (cs.length * w + 7) / 8 ∧
      ∀ k, cs.length * w ≤ k → k < 8 * t.plen.toNat → t.pbufBit k = false

/-! ## Binary32 arithmetic -/

/-- 00_scope.md R15: the product of two finite values is the nearest finite binary32 value, ties to even, and infinite
exactly when the exact product reaches the overflow threshold `2^128 − 2^103`. -/
def Obligations.ProductIsNearestEven : Prop :=
  ∀ a b : Word, isFinite a = true → isFinite b = true →
    isNaN (fmul32 a b) = false ∧
    (isFinite (fmul32 a b) = true → IsNearestFinite ((realValue a * realValue b : ℚ) : ℝ) (fmul32 a b)) ∧
    (isInf (fmul32 a b) = true ↔ (2 ^ 128 - 2 ^ 103 : ℚ) ≤ |realValue a * realValue b|) ∧
    (neg (fmul32 a b) = true ↔ neg a ≠ neg b)

/-- 00_scope.md R15: the same for the quotient of a finite value by a finite non-zero value. -/
def Obligations.QuotientIsNearestEven : Prop :=
  ∀ a b : Word, isFinite a = true → isFinite b = true → isZero b = false →
    isNaN (fdiv32 a b) = false ∧
    (isFinite (fdiv32 a b) = true → IsNearestFinite ((realValue a / realValue b : ℚ) : ℝ) (fdiv32 a b)) ∧
    (isInf (fdiv32 a b) = true ↔ (2 ^ 128 - 2 ^ 103 : ℚ) ≤ |realValue a / realValue b|) ∧
    (neg (fdiv32 a b) = true ↔ neg a ≠ neg b)
end

