-- ==== Sys2Proof/Laws/Bits.lean ====
section
/-! SUPPORT. What the bit-sequence and bit-field helpers compute. -/

namespace Sys2Proof.Machine

@[simp] theorem bitsToNat_zero (f : Nat → Bool) : bitsToNat f 0 = 0 := rfl

theorem bitsToNat_lt (f : Nat → Bool) (n : Nat) : bitsToNat f n < 2 ^ n := by
  induction n with
  | zero => simp
  | succ n ih =>
    have : (f n).toNat ≤ 1 := by cases f n <;> simp
    have h2 : (f n).toNat * 2 ^ n ≤ 1 * 2 ^ n := Nat.mul_le_mul_right _ this
    simp only [bitsToNat, pow_succ]
    omega

theorem testBit_bitsToNat (f : Nat → Bool) (n i : Nat) : (bitsToNat f n).testBit i = (decide (i < n) && f i) := by
  induction n with
  | zero => simp
  | succ n ih =>
    have hlt := bitsToNat_lt f n
    have hsplit : bitsToNat f (n + 1) = 2 ^ n * (f n).toNat + bitsToNat f n := by
      simp only [bitsToNat]
      rw [Nat.mul_comm]
      omega
    rw [hsplit, Nat.testBit_two_pow_mul_add _ hlt, ih]
    by_cases h : i < n
    · rw [if_pos h]
      simp [h, Nat.lt_succ_of_lt h]
    · rw [if_neg h]
      by_cases he : i = n
      · subst he
        cases f i <;> simp
      · have : i - n ≠ 0 := by omega
        have hlt2 : ¬ i < n + 1 := by omega
        obtain ⟨d, hd⟩ : ∃ d, i - n = d + 1 := ⟨i - n - 1, by omega⟩
        rw [hd]
        cases f n <;> simp [hlt2, Nat.testBit_succ]

theorem bitsToNat_congr {f g : Nat → Bool} {n : Nat} (h : ∀ i, i < n → f i = g i) : bitsToNat f n = bitsToNat g n := by
  induction n with
  | zero => rfl
  | succ n ih =>
    simp only [bitsToNat]
    rw [ih fun i hi => h i (Nat.lt_succ_of_lt hi), h n (Nat.lt_succ_self n)]

/-- The bits of a number, read back: `StreamBits` of what `PackBits` wrote. -/
theorem bitsToNat_testBit (v n : Nat) : bitsToNat (fun i => v.testBit i) n = v % 2 ^ n := by
  apply Nat.eq_of_testBit_eq
  intro i
  rw [testBit_bitsToNat, Nat.testBit_mod_two_pow]

theorem field_lt (v : Word) (lo len : Nat) : field v lo len < 2 ^ len := (v.extractLsb' lo len).isLt

theorem field_eq (v : Word) (lo len : Nat) : field v lo len = v.toNat / 2 ^ lo % 2 ^ len := by
  simp [field, Nat.shiftRight_eq_div_pow]

theorem bytesFor_mul_le (n m : Nat) (h : n ≤ 8 * m) : bytesFor n ≤ m := by
  unfold bytesFor
  omega

theorem lt_bytesFor_iff (n j : Nat) : j < bytesFor n ↔ 8 * j < n := by
  unfold bytesFor
  omega

end Sys2Proof.Machine
end

