-- ==== Sys2Proof/Laws/Binary32.lean ====
section
/-! SUPPORT. The values of binary32 patterns (00_scope.md R15): what a pattern is worth in units of `2^−149`, that the pattern
order is the real order, and what one rounding gives. -/

namespace Sys2Proof.Machine

/-- The value of a magnitude pattern in units of `2^−149`. -/
def magVal (m : Nat) : Nat := if m / 2 ^ 23 = 0 then m else (2 ^ 23 + m % 2 ^ 23) * 2 ^ (m / 2 ^ 23 - 1)

theorem expo_eq_magnitude (v : Word) : expo v = magnitude v / 2 ^ 23 := by
  rw [expo_eq, magnitude_eq]

theorem frac_eq_magnitude (v : Word) : frac v = magnitude v % 2 ^ 23 := by
  rw [frac_eq, magnitude_eq]
  omega

theorem magnitude_lt (v : Word) : magnitude v < 2 ^ 31 := field_lt v 0 31

theorem scaledMag_eq (v : Word) : scaledMag v = magVal (magnitude v) := by
  unfold scaledMag magVal
  rw [expo_eq_magnitude, frac_eq_magnitude]
  split_ifs with h
  · omega
  · rfl

/-- A pattern `k × 2^23 + h` whose `h` has 24 bits is worth `h × 2^k`, the carry `h = 2^24` included. -/
theorem magVal_drop (k h : Nat) (hh : h ≤ 2 ^ 24) (hk : k = 0 ∨ 2 ^ 23 ≤ h) : magVal (k * 2 ^ 23 + h) = h * 2 ^ k := by
  unfold magVal
  by_cases h1 : h < 2 ^ 23
  · have hk0 : k = 0 := by omega
    subst hk0
    rw [if_pos (by omega)]
    omega
  · by_cases h2 : h < 2 ^ 24
    · have e1 : (k * 2 ^ 23 + h) / 2 ^ 23 = k + 1 := by omega
      have e2 : (k * 2 ^ 23 + h) % 2 ^ 23 = h - 2 ^ 23 := by omega
      rw [e1, e2, if_neg (by omega), Nat.add_sub_cancel, Nat.add_sub_cancel' (by omega)]
    · have e1 : (k * 2 ^ 23 + h) / 2 ^ 23 = k + 2 := by omega
      have e2 : (k * 2 ^ 23 + h) % 2 ^ 23 = 0 := by omega
      have e3 : h = 2 * 2 ^ 23 := by omega
      rw [e1, e2, if_neg (by omega), e3]
      rw [show k + 2 - 1 = k + 1 by omega, pow_succ]
      ring

/-- Every magnitude pattern is `k × 2^23 + h` with `h` of at most 24 bits. -/
theorem exists_drop (m : Nat) : ∃ k h, m = k * 2 ^ 23 + h ∧ h < 2 ^ 24 ∧ (k = 0 ∨ 2 ^ 23 ≤ h) := by
  by_cases h : m / 2 ^ 23 = 0
  · exact ⟨0, m, by omega, by omega, .inl rfl⟩
  · exact ⟨m / 2 ^ 23 - 1, 2 ^ 23 + m % 2 ^ 23, by omega, by omega, .inr (by omega)⟩

theorem magVal_lt_succ (m : Nat) : magVal m < magVal (m + 1) := by
  obtain ⟨k, h, rfl, hh, hk⟩ := exists_drop m
  rw [magVal_drop k h (by omega) hk, show k * 2 ^ 23 + h + 1 = k * 2 ^ 23 + (h + 1) by omega,
    magVal_drop k (h + 1) (by omega) (by omega)]
  exact Nat.mul_lt_mul_of_pos_right (by omega) (by positivity)

theorem magVal_strictMono : StrictMono magVal := strictMono_nat_of_lt_succ magVal_lt_succ

theorem magVal_zero : magVal 0 = 0 := by simp [magVal]

theorem magVal_infMag : magVal infMag = 2 ^ 277 := by
  have := magVal_drop 253 (2 ^ 24) (le_refl _) (by norm_num)
  rw [show 253 * 2 ^ 23 + 2 ^ 24 = infMag by norm_num [infMag]] at this
  rw [this, ← pow_add]

theorem isZero_iff (v : Word) : isZero v = true ↔ magnitude v = 0 := by
  unfold isZero
  rw [expo_eq_magnitude, frac_eq_magnitude]
  simp
  omega

theorem isInf_iff (v : Word) : isInf v = true ↔ magnitude v = infMag := by
  unfold isInf infMag
  rw [expo_eq_magnitude, frac_eq_magnitude]
  have := magnitude_lt v
  simp
  omega

theorem realValue_of_neg {v : Word} (h : neg v = true) : realValue v = -((magVal (magnitude v) : ℚ) / 2 ^ 149) := by
  unfold realValue scaled
  rw [if_pos h, scaledMag_eq]
  push_cast
  ring

theorem realValue_of_not_neg {v : Word} (h : neg v = false) : realValue v = (magVal (magnitude v) : ℚ) / 2 ^ 149 := by
  unfold realValue scaled
  rw [if_neg (by simp [h]), scaledMag_eq]
  push_cast
  ring

theorem realValue_withSign (s : Bool) (m : Nat) (h : m < 2 ^ 31) :
    realValue (withSign s m) = if s then -((magVal m : ℚ) / 2 ^ 149) else (magVal m : ℚ) / 2 ^ 149 := by
  cases s with
  | true => rw [realValue_of_neg (neg_withSign _ _ h), magnitude_withSign _ _ h, if_pos rfl]
  | false => rw [realValue_of_not_neg (neg_withSign _ _ h), magnitude_withSign _ _ h, if_neg (by simp)]

/-- On finite patterns the pattern order is the real order. -/
theorem realValue_le_iff (v w : Word) : realValue v ≤ realValue w ↔ realRank v ≤ realRank w := by
  have key : ∀ a b : Nat, ((magVal a : ℚ) / 2 ^ 149 ≤ (magVal b : ℚ) / 2 ^ 149) ↔ a ≤ b := by
    intro a b
    rw [div_le_div_iff_of_pos_right (by positivity), Nat.cast_le, magVal_strictMono.le_iff_le]
  have nn : ∀ a : Nat, (0 : ℚ) ≤ (magVal a : ℚ) / 2 ^ 149 := fun a => by positivity
  have pos : ∀ a : Nat, (magVal a : ℚ) / 2 ^ 149 ≤ 0 ↔ a = 0 := by
    intro a
    have := key a 0
    rw [magVal_zero] at this
    simpa using this
  unfold realRank
  cases hv : neg v <;> cases hw : neg w
  · rw [realValue_of_not_neg hv, realValue_of_not_neg hw, key]
    simp
  · rw [realValue_of_not_neg hv, realValue_of_neg hw]
    simp only [Bool.false_eq_true, if_false, if_true]
    constructor
    · intro h
      have h1 := (pos (magnitude v)).1 (by have := nn (magnitude w); linarith)
      have h2 := (pos (magnitude w)).1 (by have := nn (magnitude v); linarith)
      omega
    · intro h
      have h1 : magnitude v = 0 := by omega
      have h2 : magnitude w = 0 := by omega
      rw [h1, h2, magVal_zero]
      simp
  · rw [realValue_of_neg hv, realValue_of_not_neg hw]
    simp only [Bool.false_eq_true, if_false, if_true]
    have h1 := nn (magnitude v)
    have h2 := nn (magnitude w)
    exact ⟨fun _ => by omega, fun _ => by linarith⟩
  · rw [realValue_of_neg hv, realValue_of_neg hw, neg_le_neg_iff, key]
    simp

/-! ## Rounding -/

/-- Rounding to an integer: at most half a unit away, and even where exactly half a unit away. -/
theorem roundHalfEven_spec (n d : Nat) (hd : 0 < d) :
    |(roundHalfEven n d : ℚ) - n / d| ≤ 1 / 2 ∧
      (|(roundHalfEven n d : ℚ) - n / d| = 1 / 2 → roundHalfEven n d % 2 = 0) := by
  have hdq : (0 : ℚ) < d := by exact_mod_cast hd
  have hn : (n : ℚ) = d * (n / d : Nat) + (n % d : Nat) := by exact_mod_cast (Nat.div_add_mod n d).symm
  have hlt : ((n % d : Nat) : ℚ) < d := by exact_mod_cast Nat.mod_lt n hd
  have h0 : (0 : ℚ) ≤ ((n % d : Nat) : ℚ) := by positivity
  have e : (n : ℚ) / d = (n / d : Nat) + ((n % d : Nat) : ℚ) / d := by
    rw [hn]
    field_simp
  unfold roundHalfEven
  rw [e]
  generalize n / d = q at *
  generalize n % d = r at *
  have hr : 0 ≤ (r : ℚ) / d := by positivity
  split_ifs with h1 h2
  · have : (r : ℚ) / d < 1 / 2 := by
      rw [div_lt_iff₀ hdq]
      have : (2 * r : ℚ) < d := by exact_mod_cast h1
      linarith
    have ha : |(q : ℚ) - (q + (r : ℚ) / d)| = (r : ℚ) / d := by
      rw [show (q : ℚ) - (q + (r : ℚ) / d) = -((r : ℚ) / d) by ring, abs_neg, abs_of_nonneg hr]
    rw [ha]
    exact ⟨this.le, fun h => absurd h this.ne⟩
  · have h3 : 1 / 2 < (r : ℚ) / d := by
      rw [lt_div_iff₀ hdq]
      have : (d : ℚ) < 2 * r := by exact_mod_cast h2
      linarith
    have h4 : (r : ℚ) / d < 1 := by
      rw [div_lt_iff₀ hdq]
      linarith
    have ha : |((q + 1 : Nat) : ℚ) - (q + (r : ℚ) / d)| = 1 - (r : ℚ) / d := by
      rw [show ((q + 1 : Nat) : ℚ) - (q + (r : ℚ) / d) = 1 - (r : ℚ) / d by push_cast; ring, abs_of_pos (by linarith)]
    rw [ha]
    exact ⟨by linarith, fun h => absurd h (by intro h; linarith)⟩
  · have h3 : (r : ℚ) / d = 1 / 2 := by
      rw [div_eq_iff hdq.ne']
      have : (2 * r : ℚ) = d := by exact_mod_cast (by omega : 2 * r = d)
      linarith
    rw [h3]
    refine ⟨?_, fun _ => by omega⟩
    rcases Nat.mod_two_eq_zero_or_one q with h | h <;> rw [h] <;> push_cast
    · rw [show (q : ℚ) + 0 - (q + 1 / 2) = -(1 / 2) by ring]
      norm_num [abs_neg]
    · rw [show (q : ℚ) + 1 - (q + 1 / 2) = 1 / 2 by ring]
      norm_num

theorem roundHalfEven_one (n : Nat) : roundHalfEven n 1 = n := by
  unfold roundHalfEven
  simp [Nat.mod_one]

/-- The rounding of a value between two integers stays between them. -/
theorem roundHalfEven_mono (n d a b : Nat) (hd : 0 < d) (ha : a * d ≤ n) (hb : n ≤ b * d) :
    a ≤ roundHalfEven n d ∧ roundHalfEven n d ≤ b := by
  have h1 : a ≤ n / d := (Nat.le_div_iff_mul_le hd).2 ha
  have h2 : n / d ≤ b := Nat.div_le_of_le_mul (by rw [Nat.mul_comm]; exact hb)
  have h3 : n / d = b → n % d = 0 := by
    intro h
    have := Nat.div_add_mod n d
    have h4 : d * (n / d) = b * d := by rw [h, Nat.mul_comm]
    omega
  unfold roundHalfEven
  split_ifs with h4 h5
  · exact ⟨h1, h2⟩
  · have : n / d ≠ b := fun h => by have := h3 h; omega
    omega
  · have : n / d = b → 2 * (n % d) = d → False := fun h h' => by have := h3 h; omega
    have h6 : 2 * (n % d) = d := by omega
    have : n / d ≠ b := fun h => this h h6
    omega

/-- Where the kept bits of a rounding lie. -/
theorem dropBits_spec (n d : Nat) (hd : 0 < d) : n < 2 ^ 24 * (d * 2 ^ dropBits n d) ∧
    (dropBits n d = 0 ∨ 2 ^ 23 * (d * 2 ^ dropBits n d) ≤ n) := by
  unfold dropBits
  have hlt : n / d < 2 ^ (Nat.log2 (n / d) + 1) := Nat.lt_log2_self
  have hle : n / d < 2 ^ (24 + (Nat.log2 (n / d) - 23)) :=
    lt_of_lt_of_le hlt (Nat.pow_le_pow_right (by norm_num) (by omega))
  constructor
  · rw [Nat.div_lt_iff_lt_mul hd, pow_add] at hle
    calc n < 2 ^ 24 * 2 ^ (Nat.log2 (n / d) - 23) * d := hle
      _ = _ := by ring
  · by_cases h : Nat.log2 (n / d) ≤ 23
    · exact .inl (by omega)
    · refine .inr ?_
      have h0 : n / d ≠ 0 := by
        intro h0
        rw [h0] at h
        simp at h
      have h1 : 2 ^ Nat.log2 (n / d) ≤ n / d := Nat.log2_self_le h0
      have h2 : 2 ^ Nat.log2 (n / d) = 2 ^ 23 * 2 ^ (Nat.log2 (n / d) - 23) := by
        rw [← pow_add]
        congr 1
        omega
      rw [h2, Nat.le_div_iff_mul_le hd] at h1
      calc 2 ^ 23 * (d * 2 ^ (Nat.log2 (n / d) - 23)) = 2 ^ 23 * 2 ^ (Nat.log2 (n / d) - 23) * d := by ring
        _ ≤ n := h1

/-- One rounding, in one statement: the pattern's 24 kept bits are the value in units of `2^k`, rounded half to even, and an
infinity replaces what reaches it. -/
theorem roundMag_spec (n d : Nat) (hd : 0 < d) : ∃ k h : Nat,
    roundMag n d = min (k * 2 ^ 23 + h) infMag ∧ h = roundHalfEven n (d * 2 ^ k) ∧ h ≤ 2 ^ 24 ∧ (k = 0 ∨ 2 ^ 23 ≤ h) ∧
      n < 2 ^ 24 * (d * 2 ^ k) ∧ (k = 0 ∨ 2 ^ 23 * (d * 2 ^ k) ≤ n) := by
  obtain ⟨h1, h2⟩ := dropBits_spec n d hd
  have hpos : 0 < d * 2 ^ dropBits n d := by positivity
  refine ⟨dropBits n d, _, rfl, rfl, (roundHalfEven_mono _ _ 0 (2 ^ 24) hpos (by simp) h1.le).2, ?_, h1, h2⟩
  rcases h2 with h2 | h2
  · exact .inl h2
  · exact .inr (roundHalfEven_mono _ _ (2 ^ 23) (2 ^ 24) hpos h2 h1.le).1

theorem roundMag_le (n d : Nat) : roundMag n d ≤ infMag := min_le_right _ _

/-- A value of at most 24 significant bits is not changed by rounding. -/
theorem roundMag_exact (h k : Nat) (hh : h < 2 ^ 24) (hk : k ≤ 253) : ∃ m, roundMag (h * 2 ^ k) 1 = m ∧ m < infMag ∧
    magVal m = h * 2 ^ k := by
  obtain ⟨k', h', e1, e2, h24, h23, hlt, hge⟩ := roundMag_spec (h * 2 ^ k) 1 (by norm_num)
  have hle : k' ≤ k := by
    by_contra hc
    have hge' : 2 ^ 23 * (1 * 2 ^ k') ≤ h * 2 ^ k := by
      rcases hge with h0 | h0
      · omega
      · exact h0
    have : 2 ^ (k + 1) ≤ 2 ^ k' := Nat.pow_le_pow_right (by norm_num) (by omega)
    rw [pow_succ] at this
    have hp : 0 < 2 ^ k := by positivity
    nlinarith
  have hval : h' = h * 2 ^ (k - k') := by
    rw [e2, one_mul]
    have : h * 2 ^ k = h * 2 ^ (k - k') * 2 ^ k' := by
      rw [mul_assoc, ← pow_add]
      congr 2
      omega
    rw [this]
    have hp : 0 < 2 ^ k' := by positivity
    unfold roundHalfEven
    rw [Nat.mul_mod_left, Nat.mul_div_cancel _ hp]
    simp
  have hmv : magVal (k' * 2 ^ 23 + h') = h * 2 ^ k := by
    rw [magVal_drop _ _ h24 h23, hval, mul_assoc, ← pow_add]
    congr 2
    omega
  have hlt' : k' * 2 ^ 23 + h' < infMag := by
    rw [← magVal_strictMono.lt_iff_lt, hmv, magVal_infMag]
    calc h * 2 ^ k < 2 ^ 24 * 2 ^ k := Nat.mul_lt_mul_of_pos_right hh (by positivity)
      _ ≤ 2 ^ 24 * 2 ^ 253 := Nat.mul_le_mul_left _ (Nat.pow_le_pow_right (by norm_num) hk)
      _ = 2 ^ 277 := by rw [← pow_add]
  exact ⟨_, by rw [e1, min_eq_left hlt'.le], hlt', hmv⟩

end Sys2Proof.Machine
end

