-- ==== Sys2Proof/Laws/State.lean ====
section
/-! SUPPORT. One lemma per field per update of the state, so that no proof unfolds a record update. -/

namespace Sys2Proof.Machine

/-! ## setChan -/

@[simp] theorem setChan_ctrl (s : State) (ch : Channel) (c : ChannelState) : (s.setChan ch c).ctrl = s.ctrl := by cases ch <;> rfl
@[simp] theorem setChan_err (s : State) (ch : Channel) (c : ChannelState) : (s.setChan ch c).err = s.err := by cases ch <;> rfl
@[simp] theorem setChan_errCause (s : State) (ch : Channel) (c : ChannelState) : (s.setChan ch c).errCause = s.errCause := by cases ch <;> rfl
@[simp] theorem setChan_errInfo (s : State) (ch : Channel) (c : ChannelState) : (s.setChan ch c).errInfo = s.errInfo := by cases ch <;> rfl
@[simp] theorem setChan_errCmd (s : State) (ch : Channel) (c : ChannelState) : (s.setChan ch c).errCmd = s.errCmd := by cases ch <;> rfl
@[simp] theorem setChan_dither (s : State) (ch : Channel) (c : ChannelState) : (s.setChan ch c).dither = s.dither := by cases ch <;> rfl
@[simp] theorem setChan_prob (s : State) (ch : Channel) (c : ChannelState) : (s.setChan ch c).prob = s.prob := by cases ch <;> rfl
@[simp] theorem setChan_inp (s : State) (ch : Channel) (c : ChannelState) : (s.setChan ch c).inp = s.inp := by cases ch <;> rfl
@[simp] theorem setChan_out (s : State) (ch : Channel) (c : ChannelState) : (s.setChan ch c).out = s.out := by cases ch <;> rfl
@[simp] theorem setChan_code0 (s : State) (ch : Channel) (c : ChannelState) : (s.setChan ch c).code0 = s.code0 := by cases ch <;> rfl
@[simp] theorem setChan_code1 (s : State) (ch : Channel) (c : ChannelState) : (s.setChan ch c).code1 = s.code1 := by cases ch <;> rfl
@[simp] theorem setChan_wptr (s : State) (ch : Channel) (c : ChannelState) : (s.setChan ch c).wptr = s.wptr := by cases ch <;> rfl
@[simp] theorem setChan_rptr (s : State) (ch : Channel) (c : ChannelState) : (s.setChan ch c).rptr = s.rptr := by cases ch <;> rfl
@[simp] theorem setChan_pbufBytes (s : State) (ch : Channel) (c : ChannelState) : (s.setChan ch c).pbufBytes = s.pbufBytes := by cases ch <;> rfl
@[simp] theorem setChan_pbuf (s : State) (ch : Channel) (c : ChannelState) : (s.setChan ch c).pbuf = s.pbuf := by cases ch <;> rfl
@[simp] theorem setChan_accesses (s : State) (ch : Channel) (c : ChannelState) : (s.setChan ch c).accesses = s.accesses := by cases ch <;> rfl
@[simp] theorem setChan_answer (s : State) (ch : Channel) (c : ChannelState) : (s.setChan ch c).answer = s.answer := by cases ch <;> rfl
@[simp] theorem setChan_resets (s : State) (ch : Channel) (c : ChannelState) : (s.setChan ch c).resets = s.resets := by cases ch <;> rfl

/-! ## setCode -/

@[simp] theorem setCode_ctrl (s : State) (j : CodeIdx) (x : Word) : (s.setCode j x).ctrl = s.ctrl := by cases j <;> rfl
@[simp] theorem setCode_err (s : State) (j : CodeIdx) (x : Word) : (s.setCode j x).err = s.err := by cases j <;> rfl
@[simp] theorem setCode_errCause (s : State) (j : CodeIdx) (x : Word) : (s.setCode j x).errCause = s.errCause := by cases j <;> rfl
@[simp] theorem setCode_errInfo (s : State) (j : CodeIdx) (x : Word) : (s.setCode j x).errInfo = s.errInfo := by cases j <;> rfl
@[simp] theorem setCode_errCmd (s : State) (j : CodeIdx) (x : Word) : (s.setCode j x).errCmd = s.errCmd := by cases j <;> rfl
@[simp] theorem setCode_chanV (s : State) (j : CodeIdx) (x : Word) : (s.setCode j x).chanV = s.chanV := by cases j <;> rfl
@[simp] theorem setCode_chanW (s : State) (j : CodeIdx) (x : Word) : (s.setCode j x).chanW = s.chanW := by cases j <;> rfl
@[simp] theorem setCode_dither (s : State) (j : CodeIdx) (x : Word) : (s.setCode j x).dither = s.dither := by cases j <;> rfl
@[simp] theorem setCode_prob (s : State) (j : CodeIdx) (x : Word) : (s.setCode j x).prob = s.prob := by cases j <;> rfl
@[simp] theorem setCode_inp (s : State) (j : CodeIdx) (x : Word) : (s.setCode j x).inp = s.inp := by cases j <;> rfl
@[simp] theorem setCode_out (s : State) (j : CodeIdx) (x : Word) : (s.setCode j x).out = s.out := by cases j <;> rfl
@[simp] theorem setCode_wptr (s : State) (j : CodeIdx) (x : Word) : (s.setCode j x).wptr = s.wptr := by cases j <;> rfl
@[simp] theorem setCode_rptr (s : State) (j : CodeIdx) (x : Word) : (s.setCode j x).rptr = s.rptr := by cases j <;> rfl
@[simp] theorem setCode_pbufBytes (s : State) (j : CodeIdx) (x : Word) : (s.setCode j x).pbufBytes = s.pbufBytes := by cases j <;> rfl
@[simp] theorem setCode_pbuf (s : State) (j : CodeIdx) (x : Word) : (s.setCode j x).pbuf = s.pbuf := by cases j <;> rfl
@[simp] theorem setCode_accesses (s : State) (j : CodeIdx) (x : Word) : (s.setCode j x).accesses = s.accesses := by cases j <;> rfl
@[simp] theorem setCode_answer (s : State) (j : CodeIdx) (x : Word) : (s.setCode j x).answer = s.answer := by cases j <;> rfl
@[simp] theorem setCode_resets (s : State) (j : CodeIdx) (x : Word) : (s.setCode j x).resets = s.resets := by cases j <;> rfl

/-! ## setOut -/

@[simp] theorem setOut_ctrl (s : State) (d : RegIdx) (x : Word) : (s.setOut d x).ctrl = s.ctrl := rfl
@[simp] theorem setOut_err (s : State) (d : RegIdx) (x : Word) : (s.setOut d x).err = s.err := rfl
@[simp] theorem setOut_errCause (s : State) (d : RegIdx) (x : Word) : (s.setOut d x).errCause = s.errCause := rfl
@[simp] theorem setOut_errInfo (s : State) (d : RegIdx) (x : Word) : (s.setOut d x).errInfo = s.errInfo := rfl
@[simp] theorem setOut_errCmd (s : State) (d : RegIdx) (x : Word) : (s.setOut d x).errCmd = s.errCmd := rfl
@[simp] theorem setOut_chanV (s : State) (d : RegIdx) (x : Word) : (s.setOut d x).chanV = s.chanV := rfl
@[simp] theorem setOut_chanW (s : State) (d : RegIdx) (x : Word) : (s.setOut d x).chanW = s.chanW := rfl
@[simp] theorem setOut_dither (s : State) (d : RegIdx) (x : Word) : (s.setOut d x).dither = s.dither := rfl
@[simp] theorem setOut_prob (s : State) (d : RegIdx) (x : Word) : (s.setOut d x).prob = s.prob := rfl
@[simp] theorem setOut_inp (s : State) (d : RegIdx) (x : Word) : (s.setOut d x).inp = s.inp := rfl
@[simp] theorem setOut_out (s : State) (d : RegIdx) (x : Word) : (s.setOut d x).out = s.out.set d x := rfl
@[simp] theorem setOut_code0 (s : State) (d : RegIdx) (x : Word) : (s.setOut d x).code0 = s.code0 := rfl
@[simp] theorem setOut_code1 (s : State) (d : RegIdx) (x : Word) : (s.setOut d x).code1 = s.code1 := rfl
@[simp] theorem setOut_wptr (s : State) (d : RegIdx) (x : Word) : (s.setOut d x).wptr = s.wptr := rfl
@[simp] theorem setOut_rptr (s : State) (d : RegIdx) (x : Word) : (s.setOut d x).rptr = s.rptr := rfl
@[simp] theorem setOut_pbufBytes (s : State) (d : RegIdx) (x : Word) : (s.setOut d x).pbufBytes = s.pbufBytes := rfl
@[simp] theorem setOut_pbuf (s : State) (d : RegIdx) (x : Word) : (s.setOut d x).pbuf = s.pbuf := rfl
@[simp] theorem setOut_accesses (s : State) (d : RegIdx) (x : Word) : (s.setOut d x).accesses = s.accesses := rfl
@[simp] theorem setOut_answer (s : State) (d : RegIdx) (x : Word) : (s.setOut d x).answer = s.answer := rfl
@[simp] theorem setOut_resets (s : State) (d : RegIdx) (x : Word) : (s.setOut d x).resets = s.resets := rfl

/-! ## packBits -/

@[simp] theorem packBits_ctrl (s : State) (c : Word) (w : Nat) : (s.packBits c w).ctrl = s.ctrl := rfl
@[simp] theorem packBits_err (s : State) (c : Word) (w : Nat) : (s.packBits c w).err = s.err := rfl
@[simp] theorem packBits_errCause (s : State) (c : Word) (w : Nat) : (s.packBits c w).errCause = s.errCause := rfl
@[simp] theorem packBits_errInfo (s : State) (c : Word) (w : Nat) : (s.packBits c w).errInfo = s.errInfo := rfl
@[simp] theorem packBits_errCmd (s : State) (c : Word) (w : Nat) : (s.packBits c w).errCmd = s.errCmd := rfl
@[simp] theorem packBits_chanV (s : State) (c : Word) (w : Nat) : (s.packBits c w).chanV = s.chanV := rfl
@[simp] theorem packBits_chanW (s : State) (c : Word) (w : Nat) : (s.packBits c w).chanW = s.chanW := rfl
@[simp] theorem packBits_dither (s : State) (c : Word) (w : Nat) : (s.packBits c w).dither = s.dither := rfl
@[simp] theorem packBits_prob (s : State) (c : Word) (w : Nat) : (s.packBits c w).prob = s.prob := rfl
@[simp] theorem packBits_inp (s : State) (c : Word) (w : Nat) : (s.packBits c w).inp = s.inp := rfl
@[simp] theorem packBits_out (s : State) (c : Word) (w : Nat) : (s.packBits c w).out = s.out := rfl
@[simp] theorem packBits_code0 (s : State) (c : Word) (w : Nat) : (s.packBits c w).code0 = s.code0 := rfl
@[simp] theorem packBits_code1 (s : State) (c : Word) (w : Nat) : (s.packBits c w).code1 = s.code1 := rfl
@[simp] theorem packBits_wptr (s : State) (c : Word) (w : Nat) : (s.packBits c w).wptr = BitVec.ofNat 32 (s.wptr.toNat + w) := rfl
@[simp] theorem packBits_rptr (s : State) (c : Word) (w : Nat) : (s.packBits c w).rptr = s.rptr := rfl
@[simp] theorem packBits_pbufBytes (s : State) (c : Word) (w : Nat) : (s.packBits c w).pbufBytes = s.pbufBytes := rfl
@[simp] theorem packBits_accesses (s : State) (c : Word) (w : Nat) : (s.packBits c w).accesses = s.accesses := rfl
@[simp] theorem packBits_answer (s : State) (c : Word) (w : Nat) : (s.packBits c w).answer = s.answer := rfl
@[simp] theorem packBits_resets (s : State) (c : Word) (w : Nat) : (s.packBits c w).resets = s.resets := rfl

/-! ## setPbufWord -/

@[simp] theorem setPbufWord_ctrl (s : State) (k : Nat) (w : Word) : (s.setPbufWord k w).ctrl = s.ctrl := rfl
@[simp] theorem setPbufWord_err (s : State) (k : Nat) (w : Word) : (s.setPbufWord k w).err = s.err := rfl
@[simp] theorem setPbufWord_errCause (s : State) (k : Nat) (w : Word) : (s.setPbufWord k w).errCause = s.errCause := rfl
@[simp] theorem setPbufWord_errInfo (s : State) (k : Nat) (w : Word) : (s.setPbufWord k w).errInfo = s.errInfo := rfl
@[simp] theorem setPbufWord_errCmd (s : State) (k : Nat) (w : Word) : (s.setPbufWord k w).errCmd = s.errCmd := rfl
@[simp] theorem setPbufWord_chanV (s : State) (k : Nat) (w : Word) : (s.setPbufWord k w).chanV = s.chanV := rfl
@[simp] theorem setPbufWord_chanW (s : State) (k : Nat) (w : Word) : (s.setPbufWord k w).chanW = s.chanW := rfl
@[simp] theorem setPbufWord_dither (s : State) (k : Nat) (w : Word) : (s.setPbufWord k w).dither = s.dither := rfl
@[simp] theorem setPbufWord_prob (s : State) (k : Nat) (w : Word) : (s.setPbufWord k w).prob = s.prob := rfl
@[simp] theorem setPbufWord_inp (s : State) (k : Nat) (w : Word) : (s.setPbufWord k w).inp = s.inp := rfl
@[simp] theorem setPbufWord_out (s : State) (k : Nat) (w : Word) : (s.setPbufWord k w).out = s.out := rfl
@[simp] theorem setPbufWord_code0 (s : State) (k : Nat) (w : Word) : (s.setPbufWord k w).code0 = s.code0 := rfl
@[simp] theorem setPbufWord_code1 (s : State) (k : Nat) (w : Word) : (s.setPbufWord k w).code1 = s.code1 := rfl
@[simp] theorem setPbufWord_wptr (s : State) (k : Nat) (w : Word) : (s.setPbufWord k w).wptr = s.wptr := rfl
@[simp] theorem setPbufWord_rptr (s : State) (k : Nat) (w : Word) : (s.setPbufWord k w).rptr = s.rptr := rfl
@[simp] theorem setPbufWord_pbufBytes (s : State) (k : Nat) (w : Word) : (s.setPbufWord k w).pbufBytes = s.pbufBytes := rfl
@[simp] theorem setPbufWord_accesses (s : State) (k : Nat) (w : Word) : (s.setPbufWord k w).accesses = s.accesses := rfl
@[simp] theorem setPbufWord_answer (s : State) (k : Nat) (w : Word) : (s.setPbufWord k w).answer = s.answer := rfl
@[simp] theorem setPbufWord_resets (s : State) (k : Nat) (w : Word) : (s.setPbufWord k w).resets = s.resets := rfl

/-! ## advanceRptr -/

@[simp] theorem advanceRptr_ctrl (s : State) (w : Nat) : (s.advanceRptr w).ctrl = s.ctrl := rfl
@[simp] theorem advanceRptr_err (s : State) (w : Nat) : (s.advanceRptr w).err = s.err := rfl
@[simp] theorem advanceRptr_errCause (s : State) (w : Nat) : (s.advanceRptr w).errCause = s.errCause := rfl
@[simp] theorem advanceRptr_errInfo (s : State) (w : Nat) : (s.advanceRptr w).errInfo = s.errInfo := rfl
@[simp] theorem advanceRptr_errCmd (s : State) (w : Nat) : (s.advanceRptr w).errCmd = s.errCmd := rfl
@[simp] theorem advanceRptr_chanV (s : State) (w : Nat) : (s.advanceRptr w).chanV = s.chanV := rfl
@[simp] theorem advanceRptr_chanW (s : State) (w : Nat) : (s.advanceRptr w).chanW = s.chanW := rfl
@[simp] theorem advanceRptr_dither (s : State) (w : Nat) : (s.advanceRptr w).dither = s.dither := rfl
@[simp] theorem advanceRptr_prob (s : State) (w : Nat) : (s.advanceRptr w).prob = s.prob := rfl
@[simp] theorem advanceRptr_inp (s : State) (w : Nat) : (s.advanceRptr w).inp = s.inp := rfl
@[simp] theorem advanceRptr_out (s : State) (w : Nat) : (s.advanceRptr w).out = s.out := rfl
@[simp] theorem advanceRptr_code0 (s : State) (w : Nat) : (s.advanceRptr w).code0 = s.code0 := rfl
@[simp] theorem advanceRptr_code1 (s : State) (w : Nat) : (s.advanceRptr w).code1 = s.code1 := rfl
@[simp] theorem advanceRptr_wptr (s : State) (w : Nat) : (s.advanceRptr w).wptr = s.wptr := rfl
@[simp] theorem advanceRptr_rptr (s : State) (w : Nat) : (s.advanceRptr w).rptr = BitVec.ofNat 32 (s.rptr.toNat + w) := rfl
@[simp] theorem advanceRptr_pbufBytes (s : State) (w : Nat) : (s.advanceRptr w).pbufBytes = s.pbufBytes := rfl
@[simp] theorem advanceRptr_pbuf (s : State) (w : Nat) : (s.advanceRptr w).pbuf = s.pbuf := rfl
@[simp] theorem advanceRptr_accesses (s : State) (w : Nat) : (s.advanceRptr w).accesses = s.accesses := rfl
@[simp] theorem advanceRptr_answer (s : State) (w : Nat) : (s.advanceRptr w).answer = s.answer := rfl
@[simp] theorem advanceRptr_resets (s : State) (w : Nat) : (s.advanceRptr w).resets = s.resets := rfl

/-! ## errorEntry -/

@[simp] theorem errorEntry_ctrl (s : State) (e : CmdError) (c : Word) : (s.errorEntry e c).ctrl = s.ctrl := rfl
@[simp] theorem errorEntry_err (s : State) (e : CmdError) (c : Word) : (s.errorEntry e c).err = true := rfl
@[simp] theorem errorEntry_errCause (s : State) (e : CmdError) (c : Word) : (s.errorEntry e c).errCause = e.cause := rfl
@[simp] theorem errorEntry_errInfo (s : State) (e : CmdError) (c : Word) : (s.errorEntry e c).errInfo = e.info := rfl
@[simp] theorem errorEntry_errCmd (s : State) (e : CmdError) (c : Word) : (s.errorEntry e c).errCmd = c := rfl
@[simp] theorem errorEntry_chanV (s : State) (e : CmdError) (c : Word) : (s.errorEntry e c).chanV = s.chanV := rfl
@[simp] theorem errorEntry_chanW (s : State) (e : CmdError) (c : Word) : (s.errorEntry e c).chanW = s.chanW := rfl
@[simp] theorem errorEntry_dither (s : State) (e : CmdError) (c : Word) : (s.errorEntry e c).dither = s.dither := rfl
@[simp] theorem errorEntry_prob (s : State) (e : CmdError) (c : Word) : (s.errorEntry e c).prob = s.prob := rfl
@[simp] theorem errorEntry_inp (s : State) (e : CmdError) (c : Word) : (s.errorEntry e c).inp = s.inp := rfl
@[simp] theorem errorEntry_out (s : State) (e : CmdError) (c : Word) : (s.errorEntry e c).out = s.out := rfl
@[simp] theorem errorEntry_code0 (s : State) (e : CmdError) (c : Word) : (s.errorEntry e c).code0 = s.code0 := rfl
@[simp] theorem errorEntry_code1 (s : State) (e : CmdError) (c : Word) : (s.errorEntry e c).code1 = s.code1 := rfl
@[simp] theorem errorEntry_wptr (s : State) (e : CmdError) (c : Word) : (s.errorEntry e c).wptr = s.wptr := rfl
@[simp] theorem errorEntry_rptr (s : State) (e : CmdError) (c : Word) : (s.errorEntry e c).rptr = s.rptr := rfl
@[simp] theorem errorEntry_pbufBytes (s : State) (e : CmdError) (c : Word) : (s.errorEntry e c).pbufBytes = s.pbufBytes := rfl
@[simp] theorem errorEntry_pbuf (s : State) (e : CmdError) (c : Word) : (s.errorEntry e c).pbuf = s.pbuf := rfl
@[simp] theorem errorEntry_accesses (s : State) (e : CmdError) (c : Word) : (s.errorEntry e c).accesses = s.accesses := rfl
@[simp] theorem errorEntry_answer (s : State) (e : CmdError) (c : Word) : (s.errorEntry e c).answer = s.answer := rfl
@[simp] theorem errorEntry_resets (s : State) (e : CmdError) (c : Word) : (s.errorEntry e c).resets = s.resets := rfl

/-! ## clearError -/

@[simp] theorem clearError_ctrl (s : State) : (s.clearError).ctrl = s.ctrl := rfl
@[simp] theorem clearError_err (s : State) : (s.clearError).err = false := rfl
@[simp] theorem clearError_errCause (s : State) : (s.clearError).errCause = .none := rfl
@[simp] theorem clearError_errInfo (s : State) : (s.clearError).errInfo = s.errInfo := rfl
@[simp] theorem clearError_errCmd (s : State) : (s.clearError).errCmd = s.errCmd := rfl
@[simp] theorem clearError_chanV (s : State) : (s.clearError).chanV = s.chanV := rfl
@[simp] theorem clearError_chanW (s : State) : (s.clearError).chanW = s.chanW := rfl
@[simp] theorem clearError_dither (s : State) : (s.clearError).dither = s.dither := rfl
@[simp] theorem clearError_prob (s : State) : (s.clearError).prob = s.prob := rfl
@[simp] theorem clearError_inp (s : State) : (s.clearError).inp = s.inp := rfl
@[simp] theorem clearError_out (s : State) : (s.clearError).out = s.out := rfl
@[simp] theorem clearError_code0 (s : State) : (s.clearError).code0 = s.code0 := rfl
@[simp] theorem clearError_code1 (s : State) : (s.clearError).code1 = s.code1 := rfl
@[simp] theorem clearError_wptr (s : State) : (s.clearError).wptr = s.wptr := rfl
@[simp] theorem clearError_rptr (s : State) : (s.clearError).rptr = s.rptr := rfl
@[simp] theorem clearError_pbufBytes (s : State) : (s.clearError).pbufBytes = s.pbufBytes := rfl
@[simp] theorem clearError_pbuf (s : State) : (s.clearError).pbuf = s.pbuf := rfl
@[simp] theorem clearError_accesses (s : State) : (s.clearError).accesses = s.accesses := rfl
@[simp] theorem clearError_answer (s : State) : (s.clearError).answer = s.answer := rfl
@[simp] theorem clearError_resets (s : State) : (s.clearError).resets = s.resets := rfl

/-! ## Reads after writes -/

@[simp] theorem setChan_chan_same (s : State) (ch : Channel) (c : ChannelState) : (s.setChan ch c).chan ch = c := by
  cases ch <;> rfl

theorem setChan_chan_other (s : State) {ch ch' : Channel} (c : ChannelState) (h : ch' ≠ ch) :
    (s.setChan ch c).chan ch' = s.chan ch' := by
  cases ch <;> cases ch' <;> first | rfl | exact absurd rfl h

@[simp] theorem setCode_code_same (s : State) (j : CodeIdx) (x : Word) : (s.setCode j x).code j = x := by
  cases j <;> rfl

theorem setCode_code_other (s : State) {j j' : CodeIdx} (x : Word) (h : j' ≠ j) :
    (s.setCode j x).code j' = s.code j' := by
  cases j <;> cases j' <;> first | rfl | exact absurd rfl h

@[simp] theorem quad_get_set_same (q : Quad) (i : RegIdx) (x : Word) : (q.set i x).get i = x := by
  cases i <;> rfl

theorem quad_get_set_other (q : Quad) {i k : RegIdx} (x : Word) (h : k ≠ i) : (q.set i x).get k = q.get k := by
  cases i <;> cases k <;> first | rfl | exact absurd rfl h

theorem quad_get_fill (q : Quad) (n : Nat) (x : Word) (i : RegIdx) :
    (q.fill n x).get i = if regNum i < n then x else q.get i := by
  cases i <;> rfl

@[simp] theorem setChan_chan_eq_v (s : State) (c : ChannelState) : (s.setChan .v c).chanV = c := rfl
@[simp] theorem setChan_chan_eq_w (s : State) (c : ChannelState) : (s.setChan .w c).chanW = c := rfl
@[simp] theorem setChan_v_chanW (s : State) (c : ChannelState) : (s.setChan .v c).chanW = s.chanW := rfl
@[simp] theorem setChan_w_chanV (s : State) (c : ChannelState) : (s.setChan .w c).chanV = s.chanV := rfl
@[simp] theorem chan_v (s : State) : s.chan .v = s.chanV := rfl
@[simp] theorem chan_w (s : State) : s.chan .w = s.chanW := rfl

@[simp] theorem setCode_chan (s : State) (j : CodeIdx) (x : Word) (ch : Channel) :
    (s.setCode j x).chan ch = s.chan ch := by
  cases j <;> cases ch <;> rfl

@[simp] theorem setOut_chan (s : State) (d : RegIdx) (x : Word) (ch : Channel) : (s.setOut d x).chan ch = s.chan ch := by
  cases ch <;> rfl

@[simp] theorem packBits_chan (s : State) (c : Word) (w : Nat) (ch : Channel) :
    (s.packBits c w).chan ch = s.chan ch := by
  cases ch <;> rfl

@[simp] theorem advanceRptr_chan (s : State) (w : Nat) (ch : Channel) : (s.advanceRptr w).chan ch = s.chan ch := by
  cases ch <;> rfl

end Sys2Proof.Machine
end

