-- ==== Sys2Proof/Laws/Bus.lean ====
section
/-! SUPPORT. Where every address leads (20_memory.md R61 to R64), and what one step does for each form of host access: proofs
about `step` cite these and unfold neither `step` nor the address map. -/

namespace Sys2Proof.Machine

/-! ## The address map -/

theorem regAt_regOffset (r : HostReg) : regAt (regOffset r) = some r := by
  cases r with
  | inp i => cases i <;> decide
  | out i => cases i <;> decide
  | code j => cases j <;> decide
  | _ => decide

theorem regOffset_lt (r : HostReg) : regOffset r < 0x100 := by
  cases r with
  | inp i => cases i <;> decide
  | out i => cases i <;> decide
  | code j => cases j <;> decide
  | _ => decide

theorem regOffset_aligned (r : HostReg) : regOffset r % 4 = 0 := by
  cases r with
  | inp i => cases i <;> decide
  | out i => cases i <;> decide
  | code j => cases j <;> decide
  | _ => decide

theorem toNat_regAddr (r : HostReg) : (BitVec.ofNat 20 (regOffset r)).toNat = regOffset r := by
  have := regOffset_lt r
  simp
  omega

/-- A register's address names the register. -/
theorem targetOf_regAddr (n : Nat) (r : HostReg) : targetOf n (BitVec.ofNat 20 (regOffset r)) = .reg r := by
  have := regOffset_lt r
  unfold targetOf
  simp only [toNat_regAddr]
  rw [if_pos this, regAt_regOffset]

/-- The model's offsets are the addresses that the register map of 10_state.md section 3 prints. -/
theorem registerAddr_eq (r : HostReg) : registerAddr r = BitVec.ofNat 20 (regOffset r) := by
  cases r with
  | inp i => cases i <;> rfl
  | out i => cases i <;> rfl
  | code j => cases j <;> rfl
  | _ => rfl

/-- An offset of the register page above the last register names none (10_state.md R46). -/
theorem regAt_reserved {a : Nat} (h : 0x78 ≤ a) : regAt a = none := by
  cases hr : regAt a with
  | none => rfl
  | some r =>
    have ha := List.find?_some hr
    rw [beq_iff_eq] at ha
    have hlt : regOffset r < 0x78 := by
      cases r with
      | inp i => cases i <;> decide
      | out i => cases i <;> decide
      | code j => cases j <;> decide
      | _ => decide
    omega

theorem targetOf_cmdAddr (n : Nat) : targetOf n cmdAddr = .reg .cmd := targetOf_regAddr n .cmd

/-- An address that names a register is that register's address. -/
theorem eq_regAddr_of_targetOf {n : Nat} {addr : BusAddr} {r : HostReg} (h : targetOf n addr = .reg r) :
    addr = BitVec.ofNat 20 (regOffset r) := by
  unfold targetOf at h
  simp only at h
  split_ifs at h
  cases hr : regAt addr.toNat with
  | none => rw [hr] at h; simp at h
  | some r' =>
    rw [hr] at h
    cases h
    have := List.find?_some hr
    rw [beq_iff_eq] at this
    rw [this]
    simp

theorem targetOf_eq_cmd (n : Nat) (addr : BusAddr) : targetOf n addr = .reg .cmd ↔ addr = cmdAddr :=
  ⟨eq_regAddr_of_targetOf, fun h => h ▸ targetOf_cmdAddr n⟩

/-- The word of PBUF at index `k`, and RAZ/WI beyond PBUF. -/
theorem targetOf_pbufAddr (n k : Nat) (hk : k < 0x4000) : targetOf n (BitVec.ofNat 20 (0x10000 + 4 * k)) =
    if k < n / 4 then .pbuf k else .unmapped := by
  have ha : (BitVec.ofNat 20 (0x10000 + 4 * k)).toNat = 0x10000 + 4 * k := by simp; omega
  unfold targetOf
  simp only [ha]
  rw [if_neg (by omega), if_pos (by simp; omega)]
  rw [show (0x10000 + 4 * k - 0x10000) / 4 = k by omega]

theorem targetOf_vtabAddr (n i : Nat) (hi : i < 65536) :
    targetOf n (BitVec.ofNat 20 (0x40000 + 4 * i)) = .table .v i := by
  have ha : (BitVec.ofNat 20 (0x40000 + 4 * i)).toNat = 0x40000 + 4 * i := by simp; omega
  unfold targetOf
  simp only [ha]
  rw [if_neg (by omega), if_neg (by simp; omega), if_pos (by simp; omega)]
  rw [show (0x40000 + 4 * i - 0x40000) / 4 = i by omega]

theorem targetOf_wtabAddr (n i : Nat) (hi : i < 65536) :
    targetOf n (BitVec.ofNat 20 (0x80000 + 4 * i)) = .table .w i := by
  have ha : (BitVec.ofNat 20 (0x80000 + 4 * i)).toNat = 0x80000 + 4 * i := by simp; omega
  unfold targetOf
  simp only [ha]
  rw [if_neg (by omega), if_neg (by simp; omega), if_neg (by simp), if_pos (by simp; omega)]
  rw [show (0x80000 + 4 * i - 0x80000) / 4 = i by omega]

/-- The reserved offsets and the unmapped addresses (10_state.md R46, 20_memory.md R61). -/
theorem targetOf_unmapped (n : Nat) (addr : BusAddr) (h : (0x00078 ≤ addr.toNat ∧ addr.toNat < 0x10000) ∨
    (0x20000 ≤ addr.toNat ∧ addr.toNat < 0x40000) ∨ 0xC0000 ≤ addr.toNat) : targetOf n addr = .unmapped := by
  unfold targetOf
  simp only
  by_cases hp : addr.toNat < 0x100
  · rw [if_pos hp, regAt_reserved (by omega)]
  · rw [if_neg hp, if_neg (by simp; omega), if_neg (by simp; omega), if_neg (by simp; omega)]

/-- A PBUF word that an address names lies within PBUF. -/
theorem pbuf_of_targetOf {n k : Nat} {addr : BusAddr} (h : targetOf n addr = .pbuf k) : k < n / 4 := by
  unfold targetOf at h
  simp only at h
  split_ifs at h with h1 h2 h3
  · cases hr : regAt addr.toNat <;> rw [hr] at h <;> simp at h
  · cases h
    exact h3

theorem misaligned_eq_false (addr : BusAddr) : misaligned addr = false ↔ addr.toNat % 4 = 0 := by simp [misaligned]

theorem misaligned_eq_true (addr : BusAddr) : misaligned addr = true ↔ addr.toNat % 4 ≠ 0 := by simp [misaligned]

theorem misaligned_regAddr (r : HostReg) : misaligned (BitVec.ofNat 20 (regOffset r)) = false := by
  rw [misaligned_eq_false, toNat_regAddr]
  exact regOffset_aligned r

/-! ## One step, by the access -/

theorem step_idle {s : State} (h : s.accesses = []) : step s = .next s := by
  unfold step nextAccess
  rw [h]

theorem step_misaligned_read {s : State} {addr : BusAddr} {rest : List HostAccess}
    (h : s.accesses = .read addr :: rest) (ha : misaligned addr = true) :
    step s = .next { s with accesses := rest, answer := .busFault addr } := by
  simp [step, nextAccess, h, access, ha]

theorem step_misaligned_write {s : State} {addr : BusAddr} {v : Word} {rest : List HostAccess}
    (h : s.accesses = .write addr v :: rest) (ha : misaligned addr = true) :
    step s = .next { s with accesses := rest, answer := .busFault addr } := by
  simp [step, nextAccess, h, access, ha]

/-- What an aligned read returns depends on neither the pending accesses nor the last answer. -/
theorem readTarget_congr (s : State) (l : List HostAccess) (a : BusAnswer) (t : Target) :
    { s with accesses := l, answer := a }.readTarget t = s.readTarget t := by
  cases t with
  | reg r => cases r with
    | inp i => cases i <;> rfl
    | out i => cases i <;> rfl
    | code j => cases j <;> rfl
    | _ => rfl
  | pbuf k => rfl
  | table ch i => cases ch <;> rfl
  | unmapped => rfl

theorem step_read {s : State} {addr : BusAddr} {rest : List HostAccess} (h : s.accesses = .read addr :: rest)
    (ha : misaligned addr = false) :
    step s = .next { s with accesses := rest, answer := .data (s.readTarget (targetOf s.pbufBytes addr)) } := by
  rw [← readTarget_congr s rest s.answer]
  simp [step, nextAccess, h, access, ha]

theorem step_write {s : State} {addr : BusAddr} {v : Word} {rest : List HostAccess}
    (h : s.accesses = .write addr v :: rest) (ha : misaligned addr = false) (hc : addr ≠ cmdAddr) :
    step s = .next ({ s with accesses := rest, answer := .done }.writeTarget v (targetOf s.pbufBytes addr)) := by
  have hc' : targetOf s.pbufBytes addr ≠ .reg .cmd := fun he => hc ((targetOf_eq_cmd _ _).1 he)
  simp [step, nextAccess, h, access, ha, hc']

theorem step_command {s : State} {c : Word} {rest : List HostAccess} (h : s.accesses = .write cmdAddr c :: rest) :
    step s = commandWrite c { s with accesses := rest, answer := .done } := by
  simp [step, nextAccess, h, access, targetOf_cmdAddr, show misaligned cmdAddr = false by decide]

theorem step_reset {s : State} {rest : List HostAccess} (h : s.accesses = .reset :: rest) :
    step s = .next (State.resetWith s.pbufBytes (s.resets + 1) rest) := by
  simp [step, nextAccess, h, access]

/-- Everything one step can do, by the access it performs. -/
theorem step_cases (s : State) :
    (s.accesses = [] ∧ step s = .next s) ∨
    (∃ rest addr, step s = .next { s with accesses := rest, answer := .busFault addr }) ∨
    (∃ rest addr, s.accesses = .read addr :: rest ∧ step s =
      .next { s with accesses := rest, answer := .data (s.readTarget (targetOf s.pbufBytes addr)) }) ∨
    (∃ rest addr v, s.accesses = .write addr v :: rest ∧ addr ≠ cmdAddr ∧ step s =
      .next ({ s with accesses := rest, answer := .done }.writeTarget v (targetOf s.pbufBytes addr))) ∨
    (∃ rest c, s.accesses = .write cmdAddr c :: rest ∧
      step s = commandWrite c { s with accesses := rest, answer := .done }) ∨
    ∃ rest, s.accesses = .reset :: rest ∧ step s = .next (State.resetWith s.pbufBytes (s.resets + 1) rest) := by
  cases h : s.accesses with
  | nil => exact .inl ⟨rfl, step_idle h⟩
  | cons a rest =>
    refine .inr ?_
    cases a with
    | read addr =>
      cases ha : misaligned addr with
      | true => exact .inl ⟨rest, addr, step_misaligned_read h ha⟩
      | false => exact .inr (.inl ⟨rest, addr, rfl, step_read h ha⟩)
    | write addr v =>
      cases ha : misaligned addr with
      | true => exact .inl ⟨rest, addr, step_misaligned_write h ha⟩
      | false =>
        by_cases hc : addr = cmdAddr
        · subst hc
          exact .inr (.inr (.inr (.inl ⟨rest, v, rfl, step_command h⟩)))
        · exact .inr (.inr (.inl ⟨rest, addr, v, rfl, hc, step_write h ha hc⟩))
    | reset => exact .inr (.inr (.inr (.inr ⟨rest, rfl, step_reset h⟩)))

end Sys2Proof.Machine
end

