-- ==== Sys2Proof/Laws/Commands.lean ====
section
/-! SUPPORT. What each shared operation of a command can do, said once (inversion lemmas): proofs about commands cite
these and unfold none of the operations. -/

namespace Sys2Proof.Machine

/-- A command ends in its staged state or in the error entry on the state before it. -/
theorem complete_eq_next (i : Instr) (s t : State) (r : Except CmdError State) :
    complete i s r = .next t ↔ r = .ok t ∨ ∃ e, r = .error e ∧ t = s.errorEntry e (encode i) := by
  cases r with
  | ok a => simp [complete]
  | error e =>
    simp only [complete, Host.Outcome.next.injEq, reduceCtorEq, Except.error.injEq, false_or, exists_eq_left']
    exact eq_comm

@[simp] theorem complete_ok (i : Instr) (s t : State) : complete i s (.ok t) = .next t := rfl

@[simp] theorem complete_error (i : Instr) (s : State) (e : CmdError) :
    complete i s (.error e) = .next (s.errorEntry e (encode i)) := rfl

/-- No staged result stops the machine. -/
theorem complete_next (i : Instr) (s : State) (r : Except CmdError State) : ∃ t, complete i s r = .next t := by
  cases r <;> exact ⟨_, rfl⟩

/-- A command that completes. -/
theorem complete_of_ok {i : Instr} {s t : State} {r : Except CmdError State} (h : r = .ok t) : complete i s r = .next t := by
  rw [h]
  rfl

/-- A command that raises an error. -/
theorem complete_of_error {i : Instr} {s : State} {c : Cause} {w : Word} {r : Except CmdError State}
    (h : r = .error ⟨c, w⟩) : complete i s r = .next (s.failed i c w) := by
  rw [h]
  rfl

theorem channelWord_eq (ch : Channel) : channelWord ch = if ch = .v then 0#32 else 1#32 := by cases ch <;> rfl

theorem whenConfigured_eq_ok (s : State) (ch : Channel) (body : Except CmdError State) (t : State) :
    whenConfigured s ch body = .ok t ↔ (s.chan ch).cfgok = true ∧ body = .ok t := by
  unfold whenConfigured
  split_ifs with h <;> simp [h]

theorem whenConfigured_eq_error (s : State) (ch : Channel) (body : Except CmdError State) (e : CmdError) :
    whenConfigured s ch body = .error e ↔
      ((s.chan ch).cfgok = false ∧ e = ⟨.notConfigured, channelWord ch⟩) ∨
        ((s.chan ch).cfgok = true ∧ body = .error e) := by
  unfold whenConfigured
  split_ifs with h
  · simp [h]
  · simp [h, eq_comm]

theorem whenRoom_eq_ok (s : State) (w : Nat) (body : Except CmdError State) (t : State) :
    whenRoom s w body = .ok t ↔ s.wptr.toNat + w ≤ s.pbufBits ∧ body = .ok t := by
  unfold whenRoom
  split_ifs with h <;> simp [h]

theorem whenRoom_eq_error (s : State) (w : Nat) (body : Except CmdError State) (e : CmdError) :
    whenRoom s w body = .error e ↔
      (s.pbufBits < s.wptr.toNat + w ∧ e = ⟨.pbufOverflow, s.wptr⟩) ∨
        (s.wptr.toNat + w ≤ s.pbufBits ∧ body = .error e) := by
  unfold whenRoom
  split_ifs with h
  · simp [h]
  · simp [h, eq_comm, Nat.lt_of_not_le h]

theorem whenData_eq_ok (s : State) (w : Nat) (body : Except CmdError State) (t : State) :
    whenData s w body = .ok t ↔ s.rptr.toNat + w ≤ s.wptr.toNat ∧ body = .ok t := by
  unfold whenData
  split_ifs with h <;> simp [h]

theorem whenData_eq_error (s : State) (w : Nat) (body : Except CmdError State) (e : CmdError) :
    whenData s w body = .error e ↔
      (s.wptr.toNat < s.rptr.toNat + w ∧ e = ⟨.pbufUnderrun, s.rptr⟩) ∨
        (s.rptr.toNat + w ≤ s.wptr.toNat ∧ body = .error e) := by
  unfold whenData
  split_ifs with h
  · simp [h]
  · simp [h, eq_comm, Nat.lt_of_not_le h]

theorem whenFactor_eq_ok (needed : Bool) (f : Word) (body : Except CmdError State) (t : State) :
    whenFactor needed f body = .ok t ↔ (needed = true → validFactor f = true) ∧ body = .ok t := by
  unfold whenFactor
  cases needed <;> cases validFactor f <;> simp

theorem whenFactor_eq_error (needed : Bool) (f : Word) (body : Except CmdError State) (e : CmdError) :
    whenFactor needed f body = .error e ↔
      (needed = true ∧ validFactor f = false ∧ e = ⟨.factor, f⟩) ∨
        ((needed = true → validFactor f = true) ∧ body = .error e) := by
  unfold whenFactor
  cases needed <;> cases validFactor f <;> simp [eq_comm]

theorem withValue_eq_ok (r : Except CmdError Word) (body : Word → Except CmdError State) (t : State) :
    withValue r body = .ok t ↔ ∃ v, r = .ok v ∧ body v = .ok t := by
  cases r <;> simp [withValue]

theorem withValue_eq_error (r : Except CmdError Word) (body : Word → Except CmdError State) (e : CmdError) :
    withValue r body = .error e ↔ r = .error e ∨ ∃ v, r = .ok v ∧ body v = .error e := by
  cases r <;> simp [withValue]

/-- What DEQ can give (41_quantizer.md R136). -/
theorem dequantize_eq_ok (s : State) (ch : Channel) (c : Nat) (f v : Word) :
    dequantize s ch c f = .ok v ↔
      (c = sentinel (s.chan ch).active ∧ v = qnan) ∨
        (c ≠ sentinel (s.chan ch).active ∧ validFactor f = true ∧ v = fmul32 (s.tabEntry ch c) (effFactor f) ∧
          isInf v = false) := by
  unfold dequantize
  by_cases h1 : c = sentinel (s.chan ch).active
  · rw [if_pos h1]
    exact ⟨fun h => .inl ⟨h1, (Except.ok.inj h).symm⟩, fun h => h.elim (fun h => h.2 ▸ rfl) fun h => absurd h1 h.1⟩
  · rw [if_neg h1]
    cases h2 : validFactor f with
    | false => simp [h1]
    | true =>
      simp only [Bool.not_true, Bool.false_eq_true, if_false, h1, false_and, false_or, ne_eq, not_false_eq_true, true_and]
      cases h3 : isInf (fmul32 (s.tabEntry ch c) (effFactor f)) with
      | true =>
        simp only [if_true, reduceCtorEq, false_iff, not_and]
        rintro rfl h
        rw [h3] at h
        exact absurd h (by simp)
      | false =>
        simp only [Bool.false_eq_true, if_false, Except.ok.injEq]
        exact ⟨fun h => h ▸ ⟨rfl, h3⟩, fun h => h.1.symm⟩

/-- `Decodes` is what DEQ completes with. -/
theorem decodes_iff (s : State) (ch : Channel) (c : Nat) (f v : Word) :
    s.Decodes ch c f v ↔ dequantize s ch c f = .ok v := by
  rw [dequantize_eq_ok]
  have hp : 0 < 2 ^ (s.chan ch).active.bits := by positivity
  have hc : c + 1 = 2 ^ (s.chan ch).active.bits ↔ c = 2 ^ (s.chan ch).active.bits - 1 := by omega
  unfold State.Decodes sentinel
  rw [Ne, hc]
  rfl

/-- What DEQ can raise (41_quantizer.md R136). -/
theorem dequantize_eq_error (s : State) (ch : Channel) (c : Nat) (f : Word) (e : CmdError) :
    dequantize s ch c f = .error e ↔
      c ≠ sentinel (s.chan ch).active ∧
        ((validFactor f = false ∧ e = ⟨.factor, f⟩) ∨
          (validFactor f = true ∧ isInf (fmul32 (s.tabEntry ch c) (effFactor f)) = true ∧
            e = ⟨.decOverflow, BitVec.ofNat 32 c⟩)) := by
  unfold dequantize
  by_cases h1 : c = sentinel (s.chan ch).active
  · rw [if_pos h1]
    simp [h1]
  · rw [if_neg h1]
    cases h2 : validFactor f with
    | false => simp only [h1, Bool.not_false, if_true, Except.error.injEq, ne_eq, not_false_eq_true, true_and,
        Bool.false_eq_true, false_and, or_false]; exact eq_comm
    | true =>
      cases h3 : isInf (fmul32 (s.tabEntry ch c) (effFactor f)) with
      | true => simp only [h1, h3, Bool.not_true, Bool.false_eq_true, if_false, if_true, Except.error.injEq, ne_eq,
          not_false_eq_true, true_and, reduceCtorEq, false_and, false_or]; exact eq_comm
      | false => simp [h3]

/-- What an accepted request looks like (40_distribution.md R101). -/
theorem validate_eq_ok (ch : Channel) (cfg param : Word) (a : ActiveConfig) :
    validate ch cfg param = .ok a ↔
      2 ≤ cfgBits cfg ∧ cfgBits cfg ≤ 16 ∧ 1 ≤ requestedNpol ch cfg ∧ requestedNpol ch cfg ≤ 4 ∧
        ∃ k, kindOfNum (cfgDist cfg) = some k ∧ paramOk k param = true ∧
          a = { bits := cfgBits cfg, dist := k, param := param, npol := requestedNpol ch cfg } := by
  unfold validate Config.qbitsMin Config.qbitsMax Config.maxPol
  by_cases h1 : cfgBits cfg < 2 ∨ 16 < cfgBits cfg
  · rw [if_pos (by simpa using h1)]
    simp only [reduceCtorEq, false_iff, not_and]
    intro h2 h3
    omega
  · rw [if_neg (by simpa using h1)]
    cases hk : kindOfNum (cfgDist cfg) with
    | none => simp
    | some k =>
      cases hp : paramOk k param with
      | false => simp [hp]
      | true =>
        simp only [hp, Bool.not_true, Bool.false_eq_true, if_false]
        by_cases h2 : requestedNpol ch cfg < 1 ∨ 4 < requestedNpol ch cfg
        · rw [if_pos (by simpa using h2)]
          simp only [reduceCtorEq, false_iff, not_and]
          intro _ _ _ _
          omega
        · rw [if_neg (by simpa using h2)]
          simp only [Except.ok.injEq, Option.some.injEq, exists_eq_left', hp, true_and]
          exact ⟨fun h => ⟨by omega, by omega, by omega, by omega, h.symm⟩, fun h => h.2.2.2.2.symm⟩

end Sys2Proof.Machine
end

