-- ==== Sys2Proof/Laws/Decode.lean ====
section
/-! SUPPORT. When the decoder answers an instruction, and where the decoded fields come from (30_encoding.md R82, R83). -/

namespace Sys2Proof.Machine

theorem isSome_instrOf (c : Word) (op : Nat) : (instrOf c op).isSome = (rowMask op).isSome := by
  unfold instrOf rowMask
  split <;> rfl

/-- The decoder answers an instruction exactly when the word matches its opcode's row. -/
theorem decode_eq_ok (c : Word) (i : Instr) : decode c = .ok i ↔
    ∃ m, rowMask (opField c) = some m ∧ instrOf c (opField c) = some i ∧ c &&& m = BitVec.ofNat 32 (opField c) := by
  unfold decode
  have hs := isSome_instrOf c (opField c)
  cases h1 : rowMask (opField c) with
  | none => simp
  | some m =>
    rw [h1] at hs
    obtain ⟨i', hi'⟩ := Option.isSome_iff_exists.mp hs
    simp only [hi']
    split_ifs with h <;> simp [h]

/-- The decoder answers an instruction or an error, by the row of the opcode. -/
theorem decode_eq_error (c : Word) :
    (∃ e, decode c = .error e) ↔ ∀ m, rowMask (opField c) = some m → c &&& m ≠ BitVec.ofNat 32 (opField c) := by
  unfold decode
  have hs := isSome_instrOf c (opField c)
  cases h1 : rowMask (opField c) with
  | none => simp
  | some m =>
    rw [h1] at hs
    obtain ⟨i', hi'⟩ := Option.isSome_iff_exists.mp hs
    simp only [hi']
    split_ifs with h <;> simp [h]

theorem opcodeOf_instrOf {c : Word} {op : Nat} {i : Instr} (h : instrOf c op = some i) : opcodeOf i = op := by
  unfold instrOf at h
  split at h <;> simp at h <;> subst h <;> rfl

/-- The rows written out for claims are the decoder's rows. -/
theorem mem_opcodeRows (op : Nat) (m : Word) : (op, m) ∈ opcodeRows ↔ rowMask op = some m := by
  unfold rowMask opcodeRows
  split <;> simp_all [eq_comm]

theorem opField_eq (c : Word) : opField c = c.toNat % 256 := by
  simp [opField, field_eq]

/-- A word that matches a row has the row's opcode. -/
theorem opField_of_row {c : Word} {op : Nat} {m : Word} (hr : rowMask op = some m) (h : c &&& m = BitVec.ofNat 32 op) :
    opField c = op := by
  have key : ∀ r ∈ opcodeRows, (c &&& r.2 = BitVec.ofNat 32 r.1 → opField c = r.1) := by
    intro r hr h
    have hlow : r.2 &&& 0xFF#32 = 0xFF#32 := by fin_cases hr <;> rfl
    have hop : (BitVec.ofNat 32 r.1 &&& 0xFF#32).toNat = r.1 := by fin_cases hr <;> rfl
    have hc : c &&& r.2 &&& 0xFF#32 = c &&& 0xFF#32 := by rw [BitVec.and_assoc, hlow]
    have hn := congrArg BitVec.toNat hc
    rw [h, hop, BitVec.toNat_and] at hn
    rw [opField_eq, hn]
    exact (Nat.and_two_pow_sub_one_eq_mod c.toNat 8).symm
  exact key (op, m) ((mem_opcodeRows _ _).2 hr) h

end Sys2Proof.Machine
end

