-- ==== Sys2Proof/Laws/Tables.lean ====
section
/-! SUPPORT. The quantization tables and the open distribution functions: what a table entry is after CONFIG
(40_distribution.md R100), and the named properties of the functions the tables are built from (R106, R107). -/

namespace Sys2Proof.Machine

theorem length_listFrom (f : Nat → Word) (n : Nat) : ∀ i, (listFrom f i n).length = n := by
  induction n with
  | zero => intro i; rfl
  | succ n ih => intro i; simp [listFrom, ih]

theorem getD_listFrom (f : Nat → Word) (d : Word) (n : Nat) : ∀ i k,
    (listFrom f i n).getD k d = if k < n then f (i + k) else d := by
  induction n with
  | zero => intro i k; simp [listFrom]
  | succ n ih =>
    intro i k
    cases k with
    | zero => simp [listFrom]
    | succ k =>
      have := ih (i + 1) k
      simp only [listFrom, List.getD_cons_succ, this, Nat.succ_lt_succ_iff]
      rw [show i + 1 + k = i + (k + 1) by omega]

@[simp] theorem length_buildTable (a : ActiveConfig) : (buildTable a).length = 2 ^ a.bits := length_listFrom _ _ _

/-- Entry `i` of a built table; +0 above it (40_distribution.md R100). -/
theorem getD_buildTable (a : ActiveConfig) (i : Nat) :
    (buildTable a).getD i 0x00000000#32 = if i < 2 ^ a.bits then invt a.dist a.param a.bits i else 0x00000000#32 := by
  unfold buildTable
  rw [getD_listFrom]
  simp

/-- The entry of a channel whose table is the built one. -/
theorem tabEntry_of_table {s : State} {ch : Channel} {a : ActiveConfig} (h : (s.chan ch).table = some (buildTable a))
    (i : Nat) : s.tabEntry ch i = if i < 2 ^ a.bits then invt a.dist a.param a.bits i else 0x00000000#32 := by
  unfold State.tabEntry
  rw [h]
  exact getD_buildTable a i

theorem tabEntry_congr {s t : State} {ch : Channel} (h : (t.chan ch).table = (s.chan ch).table)
    (hr : t.resets = s.resets) (i : Nat) : t.tabEntry ch i = s.tabEntry ch i := by
  unfold State.tabEntry
  rw [h, hr]

theorem cdfq_uniform (p x : Word) : cdfq .uniform p x = uniformCdf x := rfl

theorem invt_uniform (p : Word) (b i : Nat) : invt .uniform p b i = uniformInv b i := rfl

theorem cdfq_open {k : DistKind} (hk : k ≠ .uniform) (p x : Word) : cdfq k p x = Config.dist.cdfq k p x := by
  cases k <;> first | rfl | exact absurd rfl hk

theorem invt_open {k : DistKind} (hk : k ≠ .uniform) (p : Word) (b i : Nat) :
    invt k p b i = Config.dist.invt k p b i := by
  cases k <;> first | rfl | exact absurd rfl hk

/-- The named properties of the open functions (40_distribution.md R100, R106, R107). -/
theorem dist_lawful {k : DistKind} (hk : k ≠ .uniform) {p : Word} (hp : paramOk k p = true) :
    Config.dist.Lawful k p := Config.dist_legal k p hk hp

/-- Gaussian and Uniform do not use the parameter (40_distribution.md R100). -/
theorem cdfq_paramUnused {k : DistKind} (hk : kindHasParam k = false) (p q x : Word) : cdfq k p x = cdfq k q x := by
  cases k with
  | uniform => rfl
  | gaussian => exact ((dist_lawful (k := .gaussian) nofun (p := p) rfl).paramUnused rfl q).1 x
  | truncatedGaussian => exact absurd hk nofun
  | studentsT => exact absurd hk nofun

/-- Gaussian and Uniform do not use the parameter (40_distribution.md R100). -/
theorem invt_paramUnused {k : DistKind} (hk : kindHasParam k = false) (p q : Word) (b i : Nat) :
    invt k p b i = invt k q b i := by
  cases k with
  | uniform => rfl
  | gaussian => exact ((dist_lawful (k := .gaussian) nofun (p := p) rfl).paramUnused rfl q).2 b i
  | truncatedGaussian => exact absurd hk nofun
  | studentsT => exact absurd hk nofun

/-- Why log entry 19 limits (Q5): equal entries cannot lie in two bins. -/
theorem equal_entries_share_bin (d : DistFns) (k : DistKind) (p : Word) {b i j : Nat} (h : d.invt k p b i = d.invt k p b j)
    (hi : d.binOf k p b i = i) (hj : d.binOf k p b j = j) : i = j := by
  rw [← hi, ← hj]
  unfold DistFns.binOf
  rw [h]

/-- (Q5) yields only where it must (log entry 19): where two entries saturate to one value, (T1) and (Q5) as R106 writes it
contradict each other. -/
theorem shared_saturation_breaks_bins (d : DistFns) {k : DistKind} {p : Word} {b i : Nat} (hs : d.EntriesSaturate k p)
    (hb2 : 2 ≤ b) (hb16 : b ≤ 16) (hi : i + 2 ≤ 2 ^ b) (h : SharesSaturation k p b i)
    (hq : ∀ j : Nat, j + 2 ≤ 2 ^ b → d.binOf k p b j = j) : False := by
  obtain ⟨j, hne, hj, hsame⟩ := h
  have si := hs b i hb2 hb16 (by omega)
  have sj := hs b j hb2 hb16 (by omega)
  refine hne (equal_entries_share_bin d k p ?_ (hq j hj) (hq i hi))
  rcases hsame with ⟨ha, ha'⟩ | ⟨hl, hl'⟩
  · rw [si.1 ha, sj.1 ha']
  · rw [si.2 hl, sj.2 hl']

/-- Why log entry 9 limits (Q5): for TruncatedGaussian with the smallest subnormal parameter, monotonicity, the values at
the ends and bin consistency at `b = 2` contradict each other. -/
theorem bins_do_not_fit (d : DistFns) (hm : d.Monotone .truncatedGaussian 0x00000001#32)
    (he : d.Ends .truncatedGaussian 0x00000001#32)
    (hn : ∀ i : Nat, i < 4 → isNaN (d.invt .truncatedGaussian 0x00000001#32 2 i) = false)
    (hq : ∀ i : Nat, i + 2 ≤ 4 → (d.cdfq .truncatedGaussian 0x00000001#32
      (d.invt .truncatedGaussian 0x00000001#32 2 i)).toNat / 2 ^ 30 = i) : False := by
  have hr : realRank 0x00000001#32 = 1 := by decide
  have end1 := fun i (hi : i < 4) => he.2.2 rfl _ (hn i hi)
  rw [hr] at end1
  have rank0 : ∀ i, 1 ≤ i → i ≤ 2 → realRank (d.invt .truncatedGaussian 0x00000001#32 2 i) = 0 := by
    intro i h1 h2
    have h := hq i (by omega)
    by_contra hc
    rcases lt_or_gt_of_ne hc with hlt | hgt
    · rw [(end1 i (by omega)).1 (by omega)] at h
      simp at h
      omega
    · rw [(end1 i (by omega)).2 (by omega)] at h
      simp at h
      omega
  have r1 := rank0 1 (by norm_num) (by norm_num)
  have r2 := rank0 2 (by norm_num) (by norm_num)
  have h12 := hm _ _ (hn 1 (by norm_num)) (hn 2 (by norm_num)) (by omega)
  have h21 := hm _ _ (hn 2 (by norm_num)) (hn 1 (by norm_num)) (by omega)
  have q1 := hq 1 (by norm_num)
  have q2 := hq 2 (by norm_num)
  omega

end Sys2Proof.Machine
end

