-- ==== Sys2Proof/Laws/Quant.lean ====
section
/-! SUPPORT. QUANT case by case (41_quantizer.md R134) and the range of its codes. -/

namespace Sys2Proof.Machine

theorem quantize_nan (a : ActiveConfig) (en : Bool) (seed x f : Word) (h : isNaN x = true) :
    quantize a en seed x f = ⟨sentinel a, seed⟩ := by
  unfold quantize
  rw [if_pos h]

theorem quantize_dithered (a : ActiveConfig) (seed x f : Word) (h : isNaN x = false) :
    quantize a true seed x f =
      ⟨quantIndex a.bits (probOf a x f).toNat (ditherOf a.bits (drawNext seed)), drawNext seed⟩ := by
  unfold quantize
  simp [h]

theorem quantize_plain (a : ActiveConfig) (seed x f : Word) (h : isNaN x = false) :
    quantize a false seed x f = ⟨quantIndex a.bits (probOf a x f).toNat 0, seed⟩ := by
  unfold quantize
  simp [h]

/-- The clamp keeps a finite code off the sentinel (41_quantizer.md R134). -/
theorem quantIndex_le (b : Nat) (p d : Int) (hb : 1 ≤ b) : quantIndex b p d ≤ 2 ^ b - 2 := by
  have h2 : 2 ^ 1 ≤ 2 ^ b := Nat.pow_le_pow_right (by norm_num) hb
  unfold quantIndex
  omega

theorem quantize_code_le (a : ActiveConfig) (en : Bool) (seed x f : Word) (hb : 1 ≤ a.bits) :
    (quantize a en seed x f).code ≤ sentinel a := by
  cases h : isNaN x with
  | true => rw [quantize_nan _ _ _ _ _ h]
  | false =>
    unfold sentinel
    cases en with
    | true =>
      rw [quantize_dithered _ _ _ _ h]
      have := quantIndex_le a.bits (probOf a x f).toNat (ditherOf a.bits (drawNext seed)) hb
      show quantIndex _ _ _ ≤ _
      omega
    | false =>
      rw [quantize_plain _ _ _ _ h]
      have := quantIndex_le a.bits (probOf a x f).toNat 0 hb
      show quantIndex _ _ _ ≤ _
      omega

/-- A code of the channel fits in its bit depth. -/
theorem quantize_code_lt (a : ActiveConfig) (en : Bool) (seed x f : Word) (hb : 1 ≤ a.bits) :
    (quantize a en seed x f).code < 2 ^ a.bits := by
  have h := quantize_code_le a en seed x f hb
  have : 0 < 2 ^ a.bits := by positivity
  unfold sentinel at h
  omega

end Sys2Proof.Machine
end

