-- ==== Sys2Proof/Laws/Memory.lean ====
section
/-! SUPPORT. The laws of PBUF's memory: a read after a write, and that every operation keeps the canonical form. -/

namespace Sys2Proof.Machine

theorem Memory.lookup_write (m : Memory) (j k : Nat) (b : Byte) :
    Memory.lookup k (Memory.write j b m) = if k = j then some b else Memory.lookup k m := by
  induction m with
  | nil =>
    simp only [Memory.write, Memory.lookup, eq_comm]
  | cons x m ih =>
    obtain ⟨a, c⟩ := x
    simp only [Memory.write]
    by_cases h1 : j < a
    · rw [if_pos h1]
      simp only [Memory.lookup, eq_comm]
    · rw [if_neg h1]
      by_cases h2 : j = a
      · rw [if_pos h2, h2]
        simp only [Memory.lookup]
        by_cases h3 : k = a
        · rw [if_pos h3, if_pos h3.symm]
        · rw [if_neg h3, if_neg (Ne.symm h3), if_neg (Ne.symm h3)]
      · rw [if_neg h2]
        simp only [Memory.lookup]
        rw [ih]
        by_cases h3 : a = k
        · rw [if_pos h3, if_neg (by omega), if_pos h3]
        · rw [if_neg h3, if_neg h3]

theorem Memory.mem_write {m : Memory} {j : Nat} {b : Byte} {x : Host.Cell} (h : x ∈ Memory.write j b m) :
    x = (j, b) ∨ x ∈ m := by
  induction m with
  | nil => simpa [Memory.write] using h
  | cons y m ih =>
    obtain ⟨a, c⟩ := y
    simp only [Memory.write] at h
    split_ifs at h
    · simpa using h
    · rcases List.mem_cons.mp h with h | h
      · exact .inl h
      · exact .inr (List.mem_cons_of_mem _ h)
    · rcases List.mem_cons.mp h with h | h
      · exact .inr (by simp [h])
      · rcases ih h with h | h
        · exact .inl h
        · exact .inr (List.mem_cons_of_mem _ h)

theorem Memory.wf_nil : Memory.wf [] = true := rfl

/-- A write keeps the canonical form. -/
theorem Memory.wf_write (m : Memory) (j : Nat) (b : Byte) (h : Memory.wf m = true) :
    Memory.wf (Memory.write j b m) = true := by
  unfold Memory.wf at *
  rw [decide_eq_true_iff] at *
  induction m with
  | nil => simp [Memory.write]
  | cons y m ih =>
    obtain ⟨a, c⟩ := y
    obtain ⟨h1, h2⟩ := List.pairwise_cons.mp h
    simp only [Memory.write]
    split_ifs with hlt heq
    · refine List.pairwise_cons.mpr ⟨?_, h⟩
      intro x hx
      rcases List.mem_cons.mp hx with rfl | hx
      · exact hlt
      · exact lt_trans hlt (h1 x hx)
    · subst heq
      exact List.pairwise_cons.mpr ⟨fun x hx => h1 x hx, h2⟩
    · refine List.pairwise_cons.mpr ⟨?_, ih h2⟩
      intro x hx
      rcases Memory.mem_write hx with rfl | hx
      · show a < j
        omega
      · exact h1 x hx

/-- A write inside the size keeps every entry inside it. -/
theorem Memory.within_write (m : Memory) (n j : Nat) (b : Byte) (h : Memory.within n m = true) (hj : j < n) :
    Memory.within n (Memory.write j b m) = true := by
  unfold Memory.within at *
  rw [List.all_eq_true] at *
  intro x hx
  rcases Memory.mem_write hx with rfl | hx
  · simpa using hj
  · exact h x hx

theorem Memory.lookup_writeRange (f : Nat → Byte) (n : Nat) : ∀ (start : Nat) (m : Memory) (k : Nat),
    Memory.lookup k (Memory.writeRange f start n m) =
      if start ≤ k ∧ k < start + n then some (f k) else Memory.lookup k m := by
  induction n with
  | zero =>
    intro start m k
    simp only [Memory.writeRange]
    rw [if_neg (by omega)]
  | succ n ih =>
    intro start m k
    simp only [Memory.writeRange]
    rw [ih, Memory.lookup_write]
    by_cases hk : k = start
    · subst hk
      rw [if_neg (by omega), if_pos rfl, if_pos (by omega)]
    · rw [if_neg hk]
      by_cases hr : start + 1 ≤ k ∧ k < start + 1 + n
      · rw [if_pos hr, if_pos (by omega)]
      · rw [if_neg hr, if_neg (by omega)]

theorem Memory.wf_writeRange (f : Nat → Byte) (n : Nat) : ∀ (start : Nat) (m : Memory), Memory.wf m = true →
    Memory.wf (Memory.writeRange f start n m) = true := by
  induction n with
  | zero => exact fun _ _ h => h
  | succ n ih => exact fun start m h => ih _ _ (Memory.wf_write _ _ _ h)

theorem Memory.within_writeRange (f : Nat → Byte) (size n : Nat) : ∀ (start : Nat) (m : Memory),
    Memory.within size m = true → start + n ≤ size → Memory.within size (Memory.writeRange f start n m) = true := by
  induction n with
  | zero => exact fun _ _ h _ => h
  | succ n ih => exact fun start m h hs => ih _ _ (Memory.within_write _ _ _ _ h (by omega)) (by omega)

/-- Two canonical memories that hold the same bytes are the same list. -/
theorem Memory.ext_of_wf (m : Memory) : ∀ m' : Memory, Memory.wf m = true → Memory.wf m' = true →
    (∀ k, Memory.lookup k m = Memory.lookup k m') → m = m' := by
  have below : ∀ (l : Memory) (a : Nat), (∀ x ∈ l, a < x.1) → Memory.lookup a l = none := by
    intro l a h
    induction l with
    | nil => rfl
    | cons y l ih =>
      obtain ⟨c, d⟩ := y
      have hc : a < c := h (c, d) List.mem_cons_self
      simp only [Memory.lookup]
      rw [if_neg (by omega)]
      exact ih fun x hx => h x (List.mem_cons_of_mem _ hx)
  induction m with
  | nil =>
    intro m' _ _ h
    cases m' with
    | nil => rfl
    | cons y m' =>
      obtain ⟨a, b⟩ := y
      have := h a
      simp [Memory.lookup] at this
  | cons x m ih =>
    intro m' hw hw' h
    obtain ⟨a, b⟩ := x
    cases m' with
    | nil =>
      have := h a
      simp [Memory.lookup] at this
    | cons y m' =>
      obtain ⟨c, d⟩ := y
      unfold Memory.wf at hw hw' ih
      rw [decide_eq_true_iff] at hw hw'
      obtain ⟨h1, h2⟩ := List.pairwise_cons.mp hw
      obtain ⟨h3, h4⟩ := List.pairwise_cons.mp hw'
      have hac : a = c := by
        rcases lt_trichotomy a c with hlt | heq | hgt
        · have := h a
          simp only [Memory.lookup, if_true] at this
          rw [if_neg (by omega), below m' a fun x hx => lt_trans hlt (h3 x hx)] at this
          exact absurd this (by simp)
        · exact heq
        · have := h c
          simp only [Memory.lookup, if_true] at this
          rw [if_neg (by omega), below m c fun x hx => lt_trans hgt (h1 x hx)] at this
          exact absurd this (by simp)
      subst hac
      have hbd : b = d := by
        have := h a
        simpa [Memory.lookup] using this
      subst hbd
      rw [ih m' (by rw [decide_eq_true_iff]; exact h2) (by rw [decide_eq_true_iff]; exact h4)]
      intro k
      by_cases hk : a = k
      · subst hk
        rw [below m a h1, below m' a h3]
      · have := h k
        simpa [Memory.lookup, hk] using this

end Sys2Proof.Machine
end

