-- ==== Sys2Proof/Laws/Stream.lean ====
section
/-! SUPPORT. The stream primitives bit by bit: what PackBits leaves in every stream bit (43_bitpack.md R171), what
StreamBits reads (R173), what a window write leaves (20_memory.md R62). -/

namespace Sys2Proof.Machine

theorem pbufByte_congr {s t : State} (hp : t.pbuf = s.pbuf) (hr : t.resets = s.resets) (j : Nat) :
    t.pbufByte j = s.pbufByte j := by
  unfold State.pbufByte
  rw [hp, hr]

theorem pbufBit_congr {s t : State} (hp : t.pbuf = s.pbuf) (hr : t.resets = s.resets) (k : Nat) :
    t.pbufBit k = s.pbufBit k := by
  unfold State.pbufBit
  rw [pbufByte_congr hp hr]

theorem streamBits_congr {s t : State} (h : ∀ k, t.pbufBit k = s.pbufBit k) (k w : Nat) :
    t.streamBits k w = s.streamBits k w :=
  bitsToNat_congr fun i _ => h (k + i)

theorem getLsbD_packedByte (s : State) (old new : Nat) (c : Word) (j t : Nat) (ht : t < 8) :
    (packedByte s old new c j).getLsbD t =
      if 8 * j + t < old then s.pbufBit (8 * j + t)
      else if 8 * j + t < new then c.getLsbD (8 * j + t - old) else false := by
  unfold packedByte
  rw [BitVec.getLsbD_ofNat, testBit_bitsToNat]
  simp [ht]

/-- Byte `j` after PackBits. -/
theorem pbufByte_packBits (s : State) (c : Word) (w j : Nat) :
    (s.packBits c w).pbufByte j =
      if s.wptr.toNat / 8 ≤ j ∧ j < bytesFor (s.wptr.toNat + w)
      then packedByte s s.wptr.toNat (s.wptr.toNat + w) c j else s.pbufByte j := by
  have hle : s.wptr.toNat / 8 ≤ bytesFor (s.wptr.toNat + w) := by unfold bytesFor; omega
  unfold State.pbufByte State.packBits
  simp only
  rw [Memory.lookup_writeRange]
  by_cases h : s.wptr.toNat / 8 ≤ j ∧ j < bytesFor (s.wptr.toNat + w)
  · rw [if_pos h, if_pos (by omega)]
  · rw [if_neg h, if_neg (by omega)]

/-- Every stream bit after PackBits (43_bitpack.md R171): the code's bits, zeros up to the end of the last byte, and
all other bits unchanged. -/
theorem pbufBit_packBits (s : State) (c : Word) (w k : Nat) :
    (s.packBits c w).pbufBit k =
      if k < s.wptr.toNat then s.pbufBit k
      else if k < s.wptr.toNat + w then c.getLsbD (k - s.wptr.toNat)
      else if k < 8 * bytesFor (s.wptr.toNat + w) then false
      else s.pbufBit k := by
  have hk : 8 * (k / 8) + k % 8 = k := Nat.div_add_mod k 8
  have hlt : k % 8 < 8 := Nat.mod_lt _ (by norm_num)
  rw [State.pbufBit, pbufByte_packBits]
  by_cases hr : s.wptr.toNat / 8 ≤ k / 8 ∧ k / 8 < bytesFor (s.wptr.toNat + w)
  · rw [if_pos hr, getLsbD_packedByte _ _ _ _ _ _ hlt, hk]
    have : k < 8 * bytesFor (s.wptr.toNat + w) := by omega
    simp only [this, if_true]
  · rw [if_neg hr]
    show s.pbufBit k = _
    by_cases h1 : k < s.wptr.toNat
    · rw [if_pos h1]
    · rw [if_neg h1]
      have h2 : ¬ k < 8 * bytesFor (s.wptr.toNat + w) := by omega
      have h3 : ¬ k < s.wptr.toNat + w := by
        unfold bytesFor at h2
        omega
      rw [if_neg h3, if_neg h2]

theorem streamBits_lt (s : State) (k w : Nat) : s.streamBits k w < 2 ^ w := bitsToNat_lt _ _

theorem testBit_streamBits (s : State) (k w i : Nat) :
    (s.streamBits k w).testBit i = (decide (i < w) && s.pbufBit (k + i)) := testBit_bitsToNat _ _ _

/-- A byte of the window word (20_memory.md R62). -/
theorem pbufByte_setPbufWord (s : State) (k : Nat) (v : Word) (j : Nat) :
    (s.setPbufWord k v).pbufByte j =
      if 4 * k ≤ j ∧ j < 4 * k + 4 then byteOfWord v (j - 4 * k) else s.pbufByte j := by
  unfold State.pbufByte State.setPbufWord
  simp only
  rw [Memory.lookup_writeRange]
  by_cases h : 4 * k ≤ j ∧ j < 4 * k + 4
  · rw [if_pos h, if_pos h]
  · rw [if_neg h, if_neg h]

/-- Stream bit `32k + i` is bit `i` of window word `k` (20_memory.md R66). -/
theorem getLsbD_pbufWord (s : State) (k i : Nat) (h : i < 32) : (s.pbufWord k).getLsbD i = s.pbufBit (32 * k + i) := by
  unfold State.pbufWord
  rw [BitVec.getLsbD_ofNat, testBit_bitsToNat]
  simp [h]

/-- PackBits keeps PBUF in canonical form and, where the append fits, within its size. -/
theorem packBits_pbuf_ok (s : State) (c : Word) (w : Nat) (hwf : Memory.wf s.pbuf = true)
    (hin : Memory.within s.pbufBytes s.pbuf = true) (hfit : s.wptr.toNat + w ≤ s.pbufBits) :
    Memory.wf (s.packBits c w).pbuf = true ∧ Memory.within s.pbufBytes (s.packBits c w).pbuf = true := by
  have hle := bytesFor_mul_le _ _ hfit
  have hst : s.wptr.toNat / 8 ≤ bytesFor (s.wptr.toNat + w) := by unfold bytesFor; omega
  exact ⟨Memory.wf_writeRange _ _ _ _ hwf, Memory.within_writeRange _ _ _ _ _ hin (by omega)⟩

/-- A window write inside PBUF keeps it in canonical form and within its size. -/
theorem setPbufWord_pbuf_ok (s : State) (k : Nat) (v : Word) (hwf : Memory.wf s.pbuf = true)
    (hin : Memory.within s.pbufBytes s.pbuf = true) (hk : 4 * k + 4 ≤ s.pbufBytes) :
    Memory.wf (s.setPbufWord k v).pbuf = true ∧ Memory.within s.pbufBytes (s.setPbufWord k v).pbuf = true :=
  ⟨Memory.wf_writeRange _ _ _ _ hwf, Memory.within_writeRange _ _ _ _ _ hin hk⟩

end Sys2Proof.Machine
end

