-- ==== Sys2Proof/Laws/Exec.lean ====
section
/-! SUPPORT. Every command as its checks and staged writes, and one inversion lemma per command that says once everything
the command can do where it completes: proofs over all commands cite these and unfold no meaning. -/

namespace Sys2Proof.Machine

/-- The staged result of a command: what `complete` turns into the next state. -/
def staged : Instr → State → Except CmdError State
  | .nop, s => .ok s
  | .config ch, s => stageConfig ch s
  | .enc ch src j, s => stageEnc ch src j s
  | .dec ch dst j, s => stageDec ch dst j s
  | .pack j w, s => stagePack j w s
  | .unpack j w, s => stageUnpack j w s
  | .encv, s => stageEncv s
  | .decv, s => stageDecv s
  | .encw, s => stageEncw s
  | .decw, s => stageDecw s
  | .cdf ch src, s => stageCdf ch src s
  | .level ch dst, s => stageLevel ch dst s
  | .rstptr pw pr, s => stageRstptr pw pr s

/-- Every command is its staged result, completed. -/
theorem exec_eq_complete (i : Instr) (s : State) : exec i s = complete i s (staged i s) := by cases i <;> rfl

/-- Everything a command can do: its staged writes, or the error entry on the state before it. -/
theorem exec_eq_next (i : Instr) (s t : State) :
    exec i s = .next t ↔ staged i s = .ok t ∨ ∃ e, staged i s = .error e ∧ t = s.errorEntry e (encode i) := by
  rw [exec_eq_complete, complete_eq_next]

theorem staged_ok_iff (a t : State) : (Except.ok a : Except CmdError State) = .ok t ↔ t = a := by
  rw [Except.ok.injEq, eq_comm]

theorem stageConfig_eq_ok (ch : Channel) (s t : State) : stageConfig ch s = .ok t ↔
    ∃ a, validate ch (s.chan ch).cfg (s.chan ch).param = .ok a ∧ t = latch s ch a := by
  unfold stageConfig
  cases validate ch (s.chan ch).cfg (s.chan ch).param with
  | ok a =>
    simp only [Except.ok.injEq, exists_eq_left']
    exact eq_comm
  | error e => simp

theorem stageEnc_eq_ok (ch : Channel) (src : RegIdx) (j : CodeIdx) (s t : State) : stageEnc ch src j s = .ok t ↔
    (s.chan ch).cfgok = true ∧ (isNaN (s.inp.get src) = false → validFactor (s.chan ch).factor = true) ∧
      ∃ q, q = quantize (s.chan ch).active s.ditherEn s.dither (s.inp.get src) (s.chan ch).factor ∧
        t = { s with dither := q.seed }.setCode j (BitVec.ofNat 32 q.code) := by
  unfold stageEnc
  rw [whenConfigured_eq_ok, whenFactor_eq_ok]
  simp only [staged_ok_iff, Bool.not_eq_true', exists_eq_left]

theorem stageDec_eq_ok (ch : Channel) (d : RegIdx) (j : CodeIdx) (s t : State) : stageDec ch d j s = .ok t ↔
    (s.chan ch).cfgok = true ∧ (s.code j).toNat ≤ sentinel (s.chan ch).active ∧
      ∃ v, dequantize s ch (s.code j).toNat (s.chan ch).factor = .ok v ∧ t = s.setOut d v := by
  unfold stageDec
  rw [whenConfigured_eq_ok]
  by_cases h : sentinel (s.chan ch).active < (s.code j).toNat
  · rw [if_pos h]
    simp only [reduceCtorEq, and_false, false_iff, not_and]
    intro _ hle
    omega
  · rw [if_neg h, withValue_eq_ok]
    simp only [staged_ok_iff, Nat.le_of_not_lt h, true_and]

theorem stageEncv_eq_ok (s t : State) : stageEncv s = .ok t ↔
    s.chanV.cfgok = true ∧ s.wptr.toNat + 2 * s.chanV.active.bits ≤ s.pbufBits ∧
      (isNaN s.inp.q0 = false ∨ isNaN s.inp.q1 = false → validFactor s.chanV.factor = true) ∧
      ∃ q0 q1, q0 = quantize s.chanV.active s.ditherEn s.dither s.inp.q0 s.chanV.factor ∧
        q1 = quantize s.chanV.active s.ditherEn q0.seed s.inp.q1 s.chanV.factor ∧
        t = ({ s with
          dither := q1.seed
          code0 := BitVec.ofNat 32 q0.code
          code1 := BitVec.ofNat 32 q1.code }.packBits (BitVec.ofNat 32 q0.code) s.chanV.active.bits).packBits
            (BitVec.ofNat 32 q1.code) s.chanV.active.bits := by
  unfold stageEncv
  rw [whenConfigured_eq_ok, whenRoom_eq_ok, whenFactor_eq_ok]
  simp only [staged_ok_iff, Bool.or_eq_true, Bool.not_eq_true', State.chan]
  constructor
  · rintro ⟨h1, h2, h3, h4⟩
    exact ⟨h1, h2, h3, _, _, rfl, rfl, h4⟩
  · rintro ⟨h1, h2, h3, q0, q1, rfl, rfl, h4⟩
    exact ⟨h1, h2, h3, h4⟩

theorem stageDecv_eq_ok (s t : State) : stageDecv s = .ok t ↔
    s.chanV.cfgok = true ∧ s.rptr.toNat + 2 * s.chanV.active.bits ≤ s.wptr.toNat ∧
      ∃ c0 c1 v0 v1, c0 = s.streamBits s.rptr.toNat s.chanV.active.bits ∧
        c1 = s.streamBits (s.rptr.toNat + s.chanV.active.bits) s.chanV.active.bits ∧
        dequantize s .v c0 s.chanV.factor = .ok v0 ∧ dequantize s .v c1 s.chanV.factor = .ok v1 ∧
        t = { s with
          code0 := BitVec.ofNat 32 c0
          code1 := BitVec.ofNat 32 c1
          out := { s.out with q0 := v0, q1 := v1 } }.advanceRptr (2 * s.chanV.active.bits) := by
  unfold stageDecv
  rw [whenConfigured_eq_ok, whenData_eq_ok]
  simp only [withValue_eq_ok, staged_ok_iff, State.chan]
  constructor
  · rintro ⟨h1, h2, v0, h3, v1, h4, h5⟩
    exact ⟨h1, h2, _, _, v0, v1, rfl, rfl, h3, h4, h5⟩
  · rintro ⟨h1, h2, c0, c1, v0, v1, rfl, rfl, h3, h4, h5⟩
    exact ⟨h1, h2, v0, h3, v1, h4, h5⟩

theorem stageEncw_eq_ok (s t : State) : stageEncw s = .ok t ↔
    s.chanW.cfgok = true ∧ s.wptr.toNat + s.chanW.active.bits ≤ s.pbufBits ∧
      (isNaN (s.inp.wmin s.chanW.active.npol) = false → validFactor s.chanW.factor = true) ∧
      ∃ q, q = quantize s.chanW.active s.ditherEn s.dither (s.inp.wmin s.chanW.active.npol) s.chanW.factor ∧
        t = { s with
          dither := q.seed
          code0 := BitVec.ofNat 32 q.code }.packBits (BitVec.ofNat 32 q.code) s.chanW.active.bits := by
  unfold stageEncw
  rw [whenConfigured_eq_ok, whenRoom_eq_ok, whenFactor_eq_ok]
  simp only [staged_ok_iff, Bool.not_eq_true', State.chan, exists_eq_left]

theorem stageDecw_eq_ok (s t : State) : stageDecw s = .ok t ↔
    s.chanW.cfgok = true ∧ s.rptr.toNat + s.chanW.active.bits ≤ s.wptr.toNat ∧
      ∃ c v, c = s.streamBits s.rptr.toNat s.chanW.active.bits ∧ dequantize s .w c s.chanW.factor = .ok v ∧
        t = { s with
          code0 := BitVec.ofNat 32 c
          out := s.out.fill s.chanW.active.npol v }.advanceRptr s.chanW.active.bits := by
  unfold stageDecw
  rw [whenConfigured_eq_ok, whenData_eq_ok]
  simp only [withValue_eq_ok, staged_ok_iff, State.chan]
  constructor
  · rintro ⟨h1, h2, v, h3, h4⟩
    exact ⟨h1, h2, _, v, rfl, h3, h4⟩
  · rintro ⟨h1, h2, c, v, rfl, h3, h4⟩
    exact ⟨h1, h2, v, h3, h4⟩

theorem stageCdf_eq_ok (ch : Channel) (src : RegIdx) (s t : State) : stageCdf ch src s = .ok t ↔
    (s.chan ch).cfgok = true ∧ isNaN (s.inp.get src) = false ∧
      t = { s with prob := cdfq (s.chan ch).active.dist (s.chan ch).active.param (s.inp.get src) } := by
  unfold stageCdf
  rw [whenConfigured_eq_ok]
  cases isNaN (s.inp.get src) with
  | true => simp
  | false => simp only [Bool.false_eq_true, if_false, staged_ok_iff, true_and]

theorem stageLevel_eq_ok (ch : Channel) (d : RegIdx) (s t : State) : stageLevel ch d s = .ok t ↔
    (s.chan ch).cfgok = true ∧
      t = s.setOut d (s.tabEntry ch (s.prob.toNat / 2 ^ (32 - (s.chan ch).active.bits))) := by
  unfold stageLevel
  rw [whenConfigured_eq_ok, staged_ok_iff]

theorem stagePack_eq_ok (j : CodeIdx) (w : Nat) (s t : State) : stagePack j w s = .ok t ↔
    (w < 32 → (s.code j).toNat < 2 ^ w) ∧ s.wptr.toNat + w ≤ s.pbufBits ∧ t = s.packBits (s.code j) w := by
  unfold stagePack
  by_cases h : w < 32 ∧ 2 ^ w ≤ (s.code j).toNat
  · rw [if_pos (by simpa using h)]
    simp only [reduceCtorEq, false_iff, not_and]
    intro h'
    have := h' h.1
    omega
  · rw [if_neg (by simpa using h), whenRoom_eq_ok]
    have : w < 32 → (s.code j).toNat < 2 ^ w := fun hw => Nat.lt_of_not_le fun hle => h ⟨hw, hle⟩
    rw [staged_ok_iff]
    exact ⟨fun h => ⟨this, h⟩, fun h => h.2⟩

theorem stageUnpack_eq_ok (j : CodeIdx) (w : Nat) (s t : State) : stageUnpack j w s = .ok t ↔
    s.rptr.toNat + w ≤ s.wptr.toNat ∧
      t = (s.setCode j (BitVec.ofNat 32 (s.streamBits s.rptr.toNat w))).advanceRptr w := by
  unfold stageUnpack
  rw [whenData_eq_ok, staged_ok_iff]

theorem validate_error_cause {ch : Channel} {cfg param : Word} {e : CmdError} (h : validate ch cfg param = .error e) :
    e.cause ≠ .none := by
  unfold validate at h
  split at h
  · cases h; simp
  · split at h
    · cases h; simp
    · split at h
      · cases h; simp
      · split at h <;> cases h
        simp

/-- Every error that a command raises has a cause (60_exceptions.md R191). -/
theorem staged_error_cause {i : Instr} {s : State} {e : CmdError} (h : staged i s = .error e) : e.cause ≠ .none := by
  cases i with
  | nop => cases h
  | config ch =>
    change stageConfig ch s = _ at h
    unfold stageConfig at h
    cases hv : validate ch (s.chan ch).cfg (s.chan ch).param with
    | ok a => rw [hv] at h; cases h
    | error e' => rw [hv] at h; cases h; exact validate_error_cause hv
  | enc ch src j =>
    rcases (whenConfigured_eq_error _ _ _ _).1 h with ⟨_, rfl⟩ | ⟨_, h⟩
    · simp
    · rcases (whenFactor_eq_error _ _ _ _).1 h with ⟨_, _, rfl⟩ | ⟨_, h⟩
      · simp
      · cases h
  | dec ch d j =>
    rcases (whenConfigured_eq_error _ _ _ _).1 h with ⟨_, rfl⟩ | ⟨_, h⟩
    · simp
    · split at h
      · cases h; simp
      · rcases (withValue_eq_error _ _ _).1 h with h | ⟨_, _, h⟩
        · rcases ((dequantize_eq_error _ _ _ _ _).1 h).2 with ⟨_, rfl⟩ | ⟨_, _, rfl⟩ <;> simp
        · cases h
  | pack j w =>
    change stagePack j w s = _ at h
    unfold stagePack at h
    split at h
    · cases h; simp
    · rcases (whenRoom_eq_error _ _ _ _).1 h with ⟨_, rfl⟩ | ⟨_, h⟩
      · simp
      · cases h
  | unpack j w =>
    rcases (whenData_eq_error _ _ _ _).1 h with ⟨_, rfl⟩ | ⟨_, h⟩
    · simp
    · cases h
  | encv =>
    rcases (whenConfigured_eq_error _ _ _ _).1 h with ⟨_, rfl⟩ | ⟨_, h⟩
    · simp
    · rcases (whenRoom_eq_error _ _ _ _).1 h with ⟨_, rfl⟩ | ⟨_, h⟩
      · simp
      · rcases (whenFactor_eq_error _ _ _ _).1 h with ⟨_, _, rfl⟩ | ⟨_, h⟩
        · simp
        · cases h
  | decv =>
    rcases (whenConfigured_eq_error _ _ _ _).1 h with ⟨_, rfl⟩ | ⟨_, h⟩
    · simp
    · rcases (whenData_eq_error _ _ _ _).1 h with ⟨_, rfl⟩ | ⟨_, h⟩
      · simp
      · rcases (withValue_eq_error _ _ _).1 h with h | ⟨_, _, h⟩
        · rcases ((dequantize_eq_error _ _ _ _ _).1 h).2 with ⟨_, rfl⟩ | ⟨_, _, rfl⟩ <;> simp
        · rcases (withValue_eq_error _ _ _).1 h with h | ⟨_, _, h⟩
          · rcases ((dequantize_eq_error _ _ _ _ _).1 h).2 with ⟨_, rfl⟩ | ⟨_, _, rfl⟩ <;> simp
          · cases h
  | encw =>
    rcases (whenConfigured_eq_error _ _ _ _).1 h with ⟨_, rfl⟩ | ⟨_, h⟩
    · simp
    · rcases (whenRoom_eq_error _ _ _ _).1 h with ⟨_, rfl⟩ | ⟨_, h⟩
      · simp
      · rcases (whenFactor_eq_error _ _ _ _).1 h with ⟨_, _, rfl⟩ | ⟨_, h⟩
        · simp
        · cases h
  | decw =>
    rcases (whenConfigured_eq_error _ _ _ _).1 h with ⟨_, rfl⟩ | ⟨_, h⟩
    · simp
    · rcases (whenData_eq_error _ _ _ _).1 h with ⟨_, rfl⟩ | ⟨_, h⟩
      · simp
      · rcases (withValue_eq_error _ _ _).1 h with h | ⟨_, _, h⟩
        · rcases ((dequantize_eq_error _ _ _ _ _).1 h).2 with ⟨_, rfl⟩ | ⟨_, _, rfl⟩ <;> simp
        · cases h
  | cdf ch src =>
    rcases (whenConfigured_eq_error _ _ _ _).1 h with ⟨_, rfl⟩ | ⟨_, h⟩
    · simp
    · split at h
      · cases h; simp
      · cases h
  | level ch d =>
    rcases (whenConfigured_eq_error _ _ _ _).1 h with ⟨_, rfl⟩ | ⟨_, h⟩
    · simp
    · cases h
  | rstptr pw pr => cases h

end Sys2Proof.Machine
end

