-- ==== Sys2Proof/Laws/PerInstr.lean ====
section
/-! SUPPORT. A law of every instruction as syntax: its command word lies in its row of the opcode map
(30_encoding.md R82). -/

namespace Sys2Proof.Laws.EncodesInRow

/-- The word of a well-formed instruction matches its row: its opcode under its mask. -/
def Statement (i : Instr) : Prop :=
  i.wellFormed = true → ∃ mask, rowMask (opcodeOf i) = some mask ∧ encode i &&& mask = BitVec.ofNat 32 (opcodeOf i)

theorem nop : Statement .nop := fun _ => ⟨_, rfl, by decide⟩

theorem config (ch : Channel) : Statement (.config ch) := fun _ => ⟨_, rfl, by cases ch <;> decide⟩

theorem enc (ch : Channel) (src : RegIdx) (csel : CodeIdx) : Statement (.enc ch src csel) :=
  fun _ => ⟨_, rfl, by cases ch <;> cases src <;> cases csel <;> decide⟩

theorem dec (ch : Channel) (dst : RegIdx) (csel : CodeIdx) : Statement (.dec ch dst csel) :=
  fun _ => ⟨_, rfl, by cases ch <;> cases dst <;> cases csel <;> decide⟩

theorem pack (csel : CodeIdx) (width : Nat) : Statement (.pack csel width) := by
  intro h
  refine ⟨_, rfl, ?_⟩
  simp only [Instr.wellFormed, widthOk, Bool.and_eq_true, decide_eq_true_eq] at h
  obtain ⟨h1, h2⟩ := h
  interval_cases width <;> cases csel <;> decide

theorem unpack (csel : CodeIdx) (width : Nat) : Statement (.unpack csel width) := by
  intro h
  refine ⟨_, rfl, ?_⟩
  simp only [Instr.wellFormed, widthOk, Bool.and_eq_true, decide_eq_true_eq] at h
  obtain ⟨h1, h2⟩ := h
  interval_cases width <;> cases csel <;> decide

theorem encv : Statement .encv := fun _ => ⟨_, rfl, by decide⟩

theorem decv : Statement .decv := fun _ => ⟨_, rfl, by decide⟩

theorem encw : Statement .encw := fun _ => ⟨_, rfl, by decide⟩

theorem decw : Statement .decw := fun _ => ⟨_, rfl, by decide⟩

theorem cdf (ch : Channel) (src : RegIdx) : Statement (.cdf ch src) :=
  fun _ => ⟨_, rfl, by cases ch <;> cases src <;> decide⟩

theorem level (ch : Channel) (dst : RegIdx) : Statement (.level ch dst) :=
  fun _ => ⟨_, rfl, by cases ch <;> cases dst <;> decide⟩

theorem rstptr (pw pr : Bool) : Statement (.rstptr pw pr) := fun _ => ⟨_, rfl, by cases pw <;> cases pr <;> decide⟩

end Sys2Proof.Laws.EncodesInRow
end

