-- ==== Sys2Proof/Laws/Saturation.lean ====
section
/-! SUPPORT. Quantiles of Student's t leave the binary32 range for a small parameter, so that entries saturate
(40_distribution.md R107 T1) and (Q5) cannot hold for all of them (log entry 19). -/

namespace Sys2Proof.Machine

open MeasureTheory intervalIntegral

/-- The mass below `x` is at least `x^a / a`. -/
theorem mass_low_ge {a x : ℝ} (ha : 0 < a) (hx0 : 0 ≤ x) (hx : x < 1) : x ^ a / a ≤ ∫ u in (0 : ℝ)..x, betaDensity a u := by
  have hp : ∫ u in (0 : ℝ)..x, u ^ (a - 1) = x ^ a / a := by
    rw [integral_rpow (.inl (by linarith))]
    simp [Real.zero_rpow ha.ne']
  rw [← hp]
  apply integral_mono_on hx0 (intervalIntegrable_rpow' (by linarith)) (integrable_low ha hx0 hx)
  intro u hu
  have h1 : 1 ≤ (1 - u) ^ ((1 / 2 : ℝ) - 1) := Real.one_le_rpow_of_pos_of_le_one_of_nonpos (by linarith [hu.2])
    (by linarith [hu.1]) (by norm_num)
  exact le_mul_of_one_le_right (Real.rpow_nonneg hu.1 _) h1

/-- The whole mass is at most `6/5 / a + 10`. -/
theorem mass_le {a : ℝ} (ha : 0 < a) (ha1 : a ≤ 1) : ∫ u in (0 : ℝ)..1, betaDensity a u ≤ 6 / 5 / a + 10 := by
  rw [← integral_add_adjacent_intervals (integrable_low ha (by norm_num : (0 : ℝ) ≤ 1 / 4) (by norm_num))
    (integrable_high (by norm_num) (by norm_num))]
  have hlow : ∫ u in (0 : ℝ)..(1 / 4), betaDensity a u ≤ 6 / 5 / a := by
    have hp : ∫ u in (0 : ℝ)..(1 / 4), u ^ (a - 1) * (6 / 5) ≤ 6 / 5 / a := by
      rw [intervalIntegral.integral_mul_const, integral_rpow (.inl (by linarith))]
      simp only [sub_add_cancel, Real.zero_rpow ha.ne', sub_zero]
      have : ((1 / 4 : ℝ)) ^ a ≤ 1 := Real.rpow_le_one (by norm_num) (by norm_num) ha.le
      rw [div_mul_eq_mul_div]
      apply div_le_div_of_nonneg_right _ ha.le
      linarith
    refine le_trans (integral_mono_on (by norm_num) (integrable_low ha (by norm_num) (by norm_num))
      ((intervalIntegrable_rpow' (by linarith)).mul_const _) ?_) hp
    intro u hu
    apply mul_le_mul_of_nonneg_left _ (Real.rpow_nonneg hu.1 _)
    have h34 : (3 / 4 : ℝ) ≤ 1 - u := by linarith [hu.2]
    calc (1 - u) ^ ((1 / 2 : ℝ) - 1) ≤ (3 / 4 : ℝ) ^ ((1 / 2 : ℝ) - 1) :=
          Real.rpow_le_rpow_of_nonpos (by norm_num) h34 (by norm_num)
      _ = (Real.sqrt (3 / 4))⁻¹ := by
          rw [show ((1 / 2 : ℝ) - 1) = -(1 / 2) by norm_num, Real.rpow_neg (by norm_num), Real.sqrt_eq_rpow]
      _ ≤ 6 / 5 := by
          rw [show (6 / 5 : ℝ) = (5 / 6)⁻¹ by norm_num]
          apply inv_anti₀ (by norm_num)
          apply Real.le_sqrt_of_sq_le
          norm_num
  have hhigh : ∫ u in (1 / 4 : ℝ)..1, betaDensity a u ≤ 10 := by
    have hp : ∫ u in (1 / 4 : ℝ)..1, 4 * (1 - u) ^ ((1 / 2 : ℝ) - 1) ≤ 10 := by
      rw [intervalIntegral.integral_const_mul, integral_comp_sub_left (fun u : ℝ => u ^ ((1 / 2 : ℝ) - 1)) 1,
        integral_rpow (.inl (by norm_num))]
      have : ((1 - 1 / 4 : ℝ)) ^ ((1 / 2 : ℝ) - 1 + 1) ≤ 1 := Real.rpow_le_one (by norm_num) (by norm_num) (by norm_num)
      have h0 : ((1 - 1 : ℝ)) ^ ((1 / 2 : ℝ) - 1 + 1) = 0 := by norm_num
      rw [h0]
      norm_num at *
      linarith
    have hi : IntervalIntegrable (fun u : ℝ => 4 * (1 - u) ^ ((1 / 2 : ℝ) - 1)) volume (1 / 4) 1 := by
      have := ((intervalIntegrable_rpow' (a := 1 - 1 / 4) (b := 1 - 1) (r := (1 / 2 : ℝ) - 1)
        (by norm_num)).comp_sub_left 1).const_mul 4
      simpa using this
    refine le_trans (integral_mono_on (by norm_num) (integrable_high (by norm_num) (by norm_num)) hi ?_) hp
    intro u hu
    apply mul_le_mul_of_nonneg_right _ (Real.rpow_nonneg (by linarith [hu.2]) _)
    calc u ^ (a - 1) ≤ (1 / 4 : ℝ) ^ (a - 1) := Real.rpow_le_rpow_of_nonpos (by norm_num) hu.1 (by linarith)
      _ ≤ (1 / 4 : ℝ) ^ (-1 : ℝ) := Real.rpow_le_rpow_of_exponent_ge (by norm_num) (by norm_num) (by linarith)
      _ = 4 := by rw [Real.rpow_neg_one]; norm_num
  linarith

/-- For `ν = 2^−149` the upper tail `r / 2`, up to 3/8, lies beyond `2^128`. -/
theorem student_quantile_beyond {r : ℝ} (h0 : 0 < r) (h1 : r ≤ 3 / 4) :
    ∃ z : ℝ, 2 ^ 128 < z ∧ IsStudentUpper (1 / 2 ^ 149) z (1 - r / 2) := by
  obtain ⟨a, haq⟩ : ∃ a : ℝ, a = 1 / 2 ^ 150 := ⟨_, rfl⟩
  have ha : 0 < a := by rw [haq]; positivity
  have hainv : 1 / a = 2 ^ 150 := by rw [haq, one_div_one_div]
  have ha1 : a ≤ 1 / 2 ^ 20 := by
    rw [haq]
    exact one_div_le_one_div_of_le (by positivity) (pow_le_pow_right₀ (by norm_num) (by norm_num))
  -- the argument at `2^128`
  obtain ⟨x0, hx0q⟩ : ∃ x0 : ℝ, x0 = 1 / 2 ^ 406 := ⟨_, rfl⟩
  have hx0 : 0 < x0 := by rw [hx0q]; positivity
  have hx01 : x0 < 1 := by
    rw [hx0q, div_lt_one (by positivity)]
    exact one_lt_pow₀ (by norm_num) (by norm_num)
  have hpow : 99 / 100 ≤ x0 ^ a := by
    have hl : Real.log x0 = -(406 * Real.log 2) := by
      rw [hx0q, one_div, Real.log_inv, Real.log_pow]
      norm_num
    have hl2 : Real.log 2 ≤ 1 := by linarith [Real.log_two_lt_d9]
    have hl0 : 0 ≤ Real.log 2 := Real.log_nonneg (by norm_num)
    rw [Real.rpow_def_of_pos hx0, hl]
    refine le_trans ?_ (Real.add_one_le_exp _)
    have : 406 * Real.log 2 * a ≤ 406 * (1 / 2 ^ 20) := by
      apply mul_le_mul _ ha1 ha.le (by norm_num)
      linarith
    norm_num at *
    linarith
  have hG := mass_low_ge ha hx0.le hx01
  have hH := mass_le ha (by linarith [show (1 / 2 ^ 20 : ℝ) ≤ 1 by norm_num])
  have hHpos : 0 < ∫ u in (0 : ℝ)..1, betaDensity a u := by
    have hle : ∫ u in (0 : ℝ)..x0, betaDensity a u ≤ ∫ u in (0 : ℝ)..1, betaDensity a u := by
      rw [← integral_add_adjacent_intervals (integrable_low ha hx0.le hx01) (integrable_high hx0 hx01.le)]
      have : 0 ≤ ∫ u in x0..1, betaDensity a u := integral_nonneg hx01.le fun u hu =>
        betaDensity_nonneg (le_trans hx0.le hu.1) hu.2
      linarith
    have : 0 < x0 ^ a / a := div_pos (by linarith) ha
    linarith
  have hlt : r * (∫ u in (0 : ℝ)..1, betaDensity a u) < ∫ u in (0 : ℝ)..x0, betaDensity a u := by
    have e1 : x0 ^ a / a = x0 ^ a * 2 ^ 150 := by rw [div_eq_mul_one_div, hainv]
    have e2 : 6 / 5 / a = 6 / 5 * 2 ^ 150 := by rw [div_eq_mul_one_div, hainv]
    have s1 : r * (∫ u in (0 : ℝ)..1, betaDensity a u) ≤ 3 / 4 * (6 / 5 * 2 ^ 150 + 10) := by
      rw [← e2]
      exact mul_le_mul h1 hH hHpos.le (by norm_num)
    have s2 : 99 / 100 * 2 ^ 150 ≤ x0 ^ a * 2 ^ 150 := mul_le_mul_of_nonneg_right hpow (by positivity)
    rw [e1] at hG
    norm_num at *
    linarith
  obtain ⟨x, hxpos, hx, hxe⟩ := exists_mass ha hx0.le hx01 (mul_pos h0 hHpos) hlt.le
  have hx1 : x < 1 := lt_of_le_of_lt hx hx01
  -- the quantile of `x = ν / (ν + z²)`
  refine ⟨Real.sqrt ((1 / 2 ^ 149) * (1 - x) / x), ?_, studentUpper_of_mass (by positivity) hxpos hx1 ?_⟩
  · apply Real.lt_sqrt_of_sq_lt
    rw [lt_div_iff₀ hxpos]
    have : (2 ^ 128) ^ 2 * x ≤ (2 ^ 128) ^ 2 * x0 := mul_le_mul_of_nonneg_left hx (by positivity)
    have e : ((2 : ℝ) ^ 128) ^ 2 * x0 = 1 / 2 ^ 150 := by
      have h406 : (2 : ℝ) ^ 406 = (2 ^ 128) ^ 2 * 2 ^ 150 := by rw [← pow_mul, ← pow_add]
      rw [hx0q, h406]
      field_simp
    rw [e] at this
    have h2 : x ≤ 1 / 4 := le_trans hx (by
      rw [hx0q]
      exact one_div_le_one_div_of_le (by norm_num) (le_trans (by norm_num : (4 : ℝ) ≤ 2 ^ 2)
        (pow_le_pow_right₀ (by norm_num) (by norm_num))))
    have : (1 / 2 ^ 149 : ℝ) * (1 - x) ≥ 1 / 2 ^ 149 * (3 / 4) := mul_le_mul_of_nonneg_left (by linarith) (by positivity)
    norm_num at *
    linarith
  · rw [show (1 / 2 ^ 149 : ℝ) / 2 = a by rw [haq]; norm_num, hxe, mul_div_assoc, div_self hHpos.ne', mul_one]

theorem realValue_one : realValue 0x00000001#32 = 1 / 2 ^ 149 := by
  have h : scaled 0x00000001#32 = 1 := by decide
  unfold realValue
  rw [h]
  simp

/-- The quantiles of the bins 0 and 1 of four, for the smallest subnormal parameter, are below the least finite value. -/
theorem student_low_quantiles {i : Nat} (hi : i < 2) : QuantileBelow .studentsT 0x00000001#32 2 i := by
  have hi' : i = 0 ∨ i = 1 := by omega
  have hr : 0 < (2 * (i : ℝ) + 1) / 4 ∧ (2 * (i : ℝ) + 1) / 4 ≤ 3 / 4 := by
    rcases hi' with rfl | rfl <;> norm_num
  obtain ⟨z, hz, hu⟩ := student_quantile_beyond hr.1 hr.2
  have hz0 : (0 : ℝ) < z := lt_trans (by positivity) hz
  refine ⟨-z, ?_, .inr ⟨by linarith, ?_⟩⟩
  · rw [realValue_minFinite]
    push_cast
    norm_num at *
    linarith
  · rw [realValue_one]
    have : (1 : ℝ) - (2 * (i : ℝ) + 1) / 2 ^ (2 + 1) = 1 - (2 * (i : ℝ) + 1) / 4 / 2 := by ring
    rw [this, neg_neg]
    push_cast
    exact hu

/-- The quantile of the top bin of four, for the smallest subnormal parameter, is above the largest finite value. -/
theorem student_high_quantile : QuantileAbove .studentsT 0x00000001#32 2 3 := by
  obtain ⟨z, hz, hu⟩ := student_quantile_beyond (r := 1 / 4) (by norm_num) (by norm_num)
  have hz0 : (0 : ℝ) < z := lt_trans (by positivity) hz
  refine ⟨z, ?_, .inl ⟨hz0.le, ?_⟩⟩
  · rw [realValue_maxFinite]
    push_cast
    norm_num at *
    linarith
  · rw [realValue_one]
    have : (2 * ((3 : Nat) : ℝ) + 1) / 2 ^ (2 + 1) = 1 - 1 / 4 / 2 := by norm_num
    rw [this]
    push_cast
    exact hu

/-- Why log entry 19 limits (Q5): for StudentsT with the smallest subnormal parameter, the saturation of (T1) makes the
entries of the bins 0 and 1 of four equal, and (Q5) as R106 writes it would put one value in two bins. -/
theorem saturation_breaks_bins (d : DistFns) (hs : d.EntriesSaturate .studentsT 0x00000001#32)
    (hq : ∀ i : Nat, i + 2 ≤ 4 → d.binOf .studentsT 0x00000001#32 2 i = i) : False :=
  shared_saturation_breaks_bins d hs (b := 2) (i := 0) (by norm_num) (by norm_num) (by norm_num)
    ⟨1, by norm_num, by norm_num, .inr ⟨student_low_quantiles (by norm_num), student_low_quantiles (by norm_num)⟩⟩ hq

end Sys2Proof.Machine
end

