-- ==== Sys2Proof/Tests/Slice0.lean ====
section
/-! SUPPORT. Tests of single steps with the results of 95_test_vectors.md, and for every statement with hypotheses a
state and operands that meet them (`witness_…`, one for each clause). -/

namespace Sys2Proof.Tests

-- One theorem after another: each of these kernel evaluations would otherwise hold a thread of its own.
set_option Elab.async false

open Sys2Proof.Machine

/-! ## Helpers -/

/-- The block right after reset with these host accesses to come. -/
def host (l : List HostAccess) : State := { State.reset with accesses := l }

/-- A channel configured Uniform with depth `b`, `n` polarizations and factor `f`. -/
def uniformChan (b n : Nat) (cfg f : Word) : ChannelState where
  cfg := cfg
  param := 0x00000000#32
  factor := f
  active := { bits := b, dist := .uniform, param := 0x00000000#32, npol := n }
  cfgok := true
  table := some (buildTable { bits := b, dist := .uniform, param := 0x00000000#32, npol := n })

/-- Channel V configured Uniform with depth `b`; dither off; factor `f` and inputs. -/
def readyV (b : Nat) (f x0 x1 : Word) : State :=
  { State.reset with
    ctrl := 0x00000000#32, chanV := uniformChan b 1 (BitVec.ofNat 32 b) f, inp := ⟨x0, x1, 0x00000000#32,
      0x00000000#32⟩ }

/-- Channel W configured Uniform with depth 3 and `n` polarizations; dither off; factor `f` and inputs. -/
def readyW (n : Nat) (f : Word) (q : Quad) : State :=
  { State.reset with
    ctrl := 0x00000000#32, chanW := uniformChan 3 n (BitVec.ofNat 32 (3 + 65536 * n)) f, inp := q }

/-- The block right after reset with this request in CFG and PARAM of a channel (10_state.md R29 to R32). -/
def requested (ch : Channel) (cfg param : Word) : State :=
  State.reset.setChan ch { ChannelState.reset with cfg := cfg, param := param }

/-- The request of a channel is one that CONFIG accepts as depth `b`, kind `k`, parameter `p` and `n` polarizations: the
hypotheses of ConfigLatchesAcceptedRequest. -/
abbrev Accepts (s : State) (ch : Channel) (b n : Nat) (k : DistKind) (p : Word) : Prop :=
  b = (s.chan ch).cfg.toNat % 32 ∧ 2 ≤ b ∧ b ≤ 16 ∧ kindOfNum ((s.chan ch).cfg.toNat / 256 % 8) = some k ∧
    p = (s.chan ch).param ∧
    (k = .truncatedGaussian ∨ k = .studentsT → isNaN p = false ∧ isInf p = false ∧ isZero p = false ∧ neg p = false) ∧
    n = (if ch = .w then (s.chan ch).cfg.toNat / 65536 % 8 else 1) ∧ 1 ≤ n ∧ n ≤ 4

/-- Channel V configured Gaussian with depth 2 and a NaN parameter, and IN0 = +∞. -/
def gaussianV : State :=
  { latch (requested .v 0x00000102#32 0x7FC00000#32) .v ⟨2, .gaussian, 0x7FC00000#32, 1⟩ with
    inp := ⟨0x7F800000#32, 0#32, 0#32, 0#32⟩ }

/-- The inputs 4.0, 2.5, 3.0, 6.0 of 95_test_vectors.md 2.7. -/
def weights : Quad := ⟨0x40800000#32, 0x40200000#32, 0x40400000#32, 0x40C00000#32⟩

/-- The stream DD 03 of 95_test_vectors.md 2.8, with WPTR = 12 and the read pointer `r`. -/
def stream (r : Nat) : State :=
  { State.reset with pbuf := [(0, 0xDD#8), (1, 0x03#8)], wptr := 0x0000000C#32, rptr := BitVec.ofNat 32 r }

/-- A buffer of 4 bytes with these pointers and CODE0 (95_test_vectors.md 2.8). -/
def small (wptr code : Nat) : State :=
  { State.reset with pbufBytes := 4, wptr := BitVec.ofNat 32 wptr, code0 := BitVec.ofNat 32 code }

/-- The outcome is a next state on which `p` holds. -/
def nextIs (o : Host.Outcome State Fault Refusal) (p : State → Bool) : Bool :=
  match o with
  | .next t => p t
  | .fault _ => false
  | .refused _ => false

theorem exists_of_nextIs {o : Host.Outcome State Fault Refusal} {p : State → Bool} (h : nextIs o p = true) :
    ∃ t, o = .next t ∧ p t = true := by
  cases o with
  | next t => exact ⟨t, rfl, h⟩
  | fault r => exact absurd h (by simp [nextIs])
  | refused r => exact absurd h (by simp [nextIs])

/-- The error record after an error of a command (60_exceptions.md R196). -/
def failedWith (cause info cmd : Word) (t : State) : Bool :=
  t.err && (causeCode t.errCause == cause) && (t.errInfo == info) && (t.errCmd == cmd)

/-! ## WellFormed and Decode -/

/-- PW_MIN = 1 and PW_MAX = 32 (00_scope.md R7): a width of 0 or 33 has no encoding. -/
theorem test_wellFormed_refuses_widths :
    (Instr.pack .c0 0).wellFormed = false ∧ (Instr.pack .c0 33).wellFormed = false ∧
      (Instr.unpack .c1 0).wellFormed = false ∧ (Instr.unpack .c1 33).wellFormed = false := by decide

theorem test_wellFormed_accepts_widths :
    (Instr.pack .c0 1).wellFormed = true ∧ (Instr.unpack .c1 32).wellFormed = true := by decide

/-- 30_encoding.md R80, R82, field by field: NOP, opcode 00. -/
theorem test_decode_nop : decode 0b00000000000000000000000000000000#32 = .ok .nop := by decide
/-- CONFIG w: opcode 01, CH bit 8. -/
theorem test_decode_config : decode 0b00000000000000000000000100000001#32 = .ok (.config .w) := by decide
/-- ENC v, code1, in2: opcode 02, SRC = 2 in bits 10:9, CSEL bit 13. -/
theorem test_decode_enc : decode 0b00000000000000000010010000000010#32 = .ok (.enc .v .r2 .c1) := by decide
/-- DEC w, out1, code0: opcode 03, CH bit 8, DST = 1 in bits 12:11. -/
theorem test_decode_dec : decode 0b00000000000000000000100100000011#32 = .ok (.dec .w .r1 .c0) := by decide
/-- PACK 12, code0: opcode 04, WM1 = 11 in bits 20:16. -/
theorem test_decode_pack : decode 0b00000000000010110000000000000100#32 = .ok (.pack .c0 12) := by decide
/-- UNPACK code1, 32: opcode 05, WM1 = 31, CSEL bit 13. -/
theorem test_decode_unpack : decode 0b00000000000111110010000000000101#32 = .ok (.unpack .c1 32) := by decide
/-- ENCV, DECV, ENCW, DECW: opcodes 06 to 09 and no field. -/
theorem test_decode_fixed :
    decode 0b00000000000000000000000000000110#32 = .ok .encv ∧ decode 0b00000000000000000000000000000111#32 = .ok .decv ∧
      decode 0b00000000000000000000000000001000#32 = .ok .encw ∧
      decode 0b00000000000000000000000000001001#32 = .ok .decw := by decide
/-- CDF w, in3: opcode 0A, CH bit 8, SRC = 3. -/
theorem test_decode_cdf : decode 0b00000000000000000000011100001010#32 = .ok (.cdf .w .r3) := by decide
/-- LEVEL w, out3: opcode 0B, CH bit 8, DST = 3 (30_encoding.md R88). -/
theorem test_decode_level : decode 0b00000000000000000001100100001011#32 = .ok (.level .w .r3) := by decide
/-- RSTPTR r: opcode 0C, PTRS bit 25. -/
theorem test_decode_rstptr : decode 0b00000010000000000000000000001100#32 = .ok (.rstptr false true) := by decide

/-- The illegal words of 95_test_vectors.md 2.1, each refused by its reason. -/
theorem test_decode_refuses :
    decode 0x0000000E#32 = .error (.unknownOpcode 0x0E) ∧ decode 0x000000FF#32 = .error (.unknownOpcode 0xFF) ∧
      ∀ n ∈ [0x00003F02, 0x00000201, 0x00000800, 0x00000109, 0x00000A0A, 0x0000200B, 0x00200004, 0x01000004, 0x0400000C,
        0x0100010C], decode (BitVec.ofNat 32 n) = .error (.reservedBits (n % 256)) := by decide +kernel

theorem test_decodeTableWord : decodeTableWord 32 0x00002402 = some (.enc .v .r2 .c1) ∧
    decodeTableWord 32 0x00003F02 = none := by decide

/-! ## The step and the bus -/

/-- V70: an illegal word after reset. -/
theorem test_step_illegal :
    nextIs (step (host [.write cmdAddr 0x0000000D#32])) (fun t =>
      failedWith 0x00000001#32 0x0000000D#32 0x0000000D#32 t && (t.readReg .status == 0x00000001#32)) = true := by decide

/-- V75: the word that withFetchWord places runs as the first command after reset. -/
theorem test_step_fetchWord :
    nextIs (step (State.reset.withFetchWord 32 0x00000102)) (failedWith 0x00000006#32 1#32 0x00000102#32) = true := by
  decide

/-- V72, V73: a STATUS write with bit 0 clear changes nothing, one with it set clears ERR and ERR_CAUSE only. -/
theorem test_step_clearError :
    nextIs (step { host [.write 0x0000C#20 0#32] with err := true, errCause := .illegalCmd, errInfo := 0x0D#32 })
      (fun t => t.err && (t.errCause == .illegalCmd)) = true ∧
    nextIs (step { host [.write 0x0000C#20 1#32] with err := true, errCause := .illegalCmd, errInfo := 0x0D#32 })
      (fun t => !t.err && (t.errCause == .none) && (t.errInfo == 0x0D#32)) = true := by decide

/-- 95_test_vectors.md 2.10: WPTR saturates at PBUF_BITS, and PLEN follows. -/
theorem test_step_wptr :
    nextIs (step (host [.write 0x00068#20 0xFFFFFFFF#32])) (fun t =>
      (t.wptr == 0x00080000#32) && (t.readReg .plen == 0x00010000#32)) = true := by decide

/-- 95_test_vectors.md 2.10: a misaligned read. -/
theorem test_step_misaligned :
    nextIs (step (host [.read 0x00002#20])) (fun t => t.answer == .busFault 0x00002#20) = true := by decide

/-- 95_test_vectors.md 2.10: the PBUF window, little-endian by P2's bytes. -/
theorem test_step_pbuf :
    nextIs (step { stream 0 with
      pbuf := [(0, 0xDD#8), (1, 0x03#8), (2, 0xFF#8), (3, 0xFF#8)], accesses := [.read 0x10000#20] })
      (fun t => t.answer == .data 0xFFFF03DD#32) = true := by decide +kernel

/-! ## Each command -/

theorem test_nop : nextIs (exec .nop (stream 6)) (fun t => t == stream 6) = true := by decide +kernel

/-- 95_test_vectors.md 2.3: the table of b = 2 and +0 above it. -/
theorem test_config :
    nextIs (exec (.config .v) { State.reset with chanV := { ChannelState.reset with cfg := 0x00000002#32 } }) (fun t =>
      ([0, 1, 2, 3, 4].map (t.tabEntry .v) ==
        [0xBF400000#32, 0xBE800000#32, 0x3E800000#32, 0x3F400000#32, 0x00000000#32]) && t.chanV.cfgok) = true := by
  decide +kernel

/-- 95_test_vectors.md 2.3: BITS is checked before DIST. -/
theorem test_config_order :
    nextIs (exec (.config .v) { State.reset with chanV := { ChannelState.reset with cfg := 0x00000411#32 } })
      (failedWith 0x00000002#32 0x00000011#32 0x00000001#32) = true := by decide +kernel

/-- The value beside V20: 0.3 at b = 4 without dither is code 10; and V18: a negative factor. -/
theorem test_enc :
    nextIs (exec (.enc .v .r0 .c0) (readyV 4 0#32 0x3E99999A#32 0#32)) (fun t => t.code0 == 10#32) = true ∧
    nextIs (exec (.enc .v .r0 .c0) (readyV 2 0xBF800000#32 0x3E99999A#32 0#32))
      (failedWith 0x00000007#32 0xBF800000#32 0x00000002#32) = true := by decide +kernel

/-- V20's third command: from the second draw's state, code 10 and the third draw's state. -/
theorem test_enc_dither :
    nextIs (exec (.enc .v .r0 .c0)
      { readyV 4 0#32 0x3E99999A#32 0#32 with ctrl := 1#32, dither := 0x04080601#32 })
      (fun t => (t.code0 == 10#32) && (t.dither == 0x9DCCA8C5#32)) = true := by decide +kernel

/-- V23 and V27. -/
theorem test_dec :
    nextIs (exec (.dec .v .r0 .c0) { readyV 2 0x40000000#32 0#32 0#32 with code0 := 2#32 })
      (fun t => t.out.q0 == 0x3F000000#32) = true ∧
    nextIs (exec (.dec .v .r0 .c0) { readyV 2 0x40000000#32 0#32 0#32 with code0 := 4#32 })
      (failedWith 0x00000008#32 4#32 0x00000003#32) = true := by decide +kernel

/-- V25: the sentinel decodes to QNAN with a NaN factor. -/
theorem test_dec_sentinel :
    nextIs (exec (.dec .v .r0 .c0) { readyV 2 0x7FC00000#32 0#32 0#32 with code0 := 3#32 })
      (fun t => (t.out.q0 == 0x7FC00000#32) && !t.err) = true := by decide +kernel

/-- P2's fourth PACK: byte 1 becomes 03, byte 0 DD. -/
theorem test_pack :
    nextIs (exec (.pack .c0 3) { stream 0 with
      pbuf := [(0, 0xDD#8), (1, 0x01#8)], wptr := 9#32, code0 := 1#32 })
      (fun t => (t.pbuf == [(0, 0xDD#8), (1, 0x03#8)]) && (t.wptr == 12#32)) = true := by decide +kernel

/-- 95_test_vectors.md 2.8: PACK_CODE wins over PBUF_OVERFLOW; and the last three bits of 32 are accepted. -/
theorem test_pack_errors :
    nextIs (exec (.pack .c0 3) (small 32 8)) (failedWith 0x00000009#32 8#32 0x00020004#32) = true ∧
    nextIs (exec (.pack .c0 3) (small 29 1)) (fun t => (t.wptr == 32#32) && (t.readReg .plen == 4#32)) = true := by
  decide +kernel

/-- 95_test_vectors.md 2.8: UNPACK from DD 03 at RPTR = 4, w = 5; and beyond WPTR. -/
theorem test_unpack :
    nextIs (exec (.unpack .c0 5) (stream 4)) (fun t => (t.code0 == 0x1D#32) && (t.rptr == 9#32)) = true ∧
    nextIs (exec (.unpack .c0 3) (stream 10)) (failedWith 0x0000000B#32 10#32 0x00020005#32) = true := by decide +kernel

/-- V41: a NaN real part takes no draw, and the imaginary part takes the first. -/
theorem test_encv :
    nextIs (exec .encv { readyV 4 0x40000000#32 0x7FC00000#32 0xBE99999A#32 with ctrl := 1#32 }) (fun t =>
      (t.code0 == 15#32) && (t.code1 == 6#32) && (t.pbuf == [(0, 0x6F#8)]) && (t.wptr == 8#32) &&
        (t.dither == 0x00042021#32)) = true := by decide +kernel

/-- V44: one component is a number, so its factor is checked. -/
theorem test_encv_factor :
    nextIs (exec .encv (readyV 4 0xBF800000#32 0x3F800000#32 0x7FC00000#32))
      (failedWith 0x00000007#32 0xBF800000#32 0x00000006#32) = true := by decide +kernel

/-- V42 and V46. -/
theorem test_decv :
    nextIs (exec .decv { readyV 4 0x40000000#32 0#32 0#32 with pbuf := [(0, 0x6F#8)], wptr := 8#32 }) (fun t =>
      (t.code0 == 15#32) && (t.code1 == 6#32) && (t.out.q0 == 0x7FC00000#32) && (t.out.q1 == 0xBEC00000#32) &&
        (t.rptr == 8#32)) = true ∧
    nextIs (exec .decv { readyV 4 0x40000000#32 0#32 0#32 with wptr := 8#32, rptr := 1#32 })
      (failedWith 0x0000000B#32 1#32 0x00000007#32) = true := by decide +kernel

/-- V50 and V56: the minimum of all four weights; with two polarizations a NaN in IN2 is not read. -/
theorem test_encw :
    nextIs (exec .encw (readyW 4 0x41200000#32 weights)) (fun t =>
      (t.code0 == 5#32) && (t.pbuf == [(0, 0x05#8)]) && (t.wptr == 3#32)) = true ∧
    nextIs (exec .encw (readyW 2 0x41200000#32 { weights with q2 := 0x7FC00000#32 })) (fun t => t.code0 == 5#32) = true := by
  decide +kernel

/-- V53: a NaN weight gives the sentinel without a draw. -/
theorem test_encw_nan :
    nextIs (exec .encw { readyW 4 0x41200000#32 { weights with q2 := 0x7FC00000#32 } with ctrl := 1#32 }) (fun t =>
      (t.code0 == 7#32) && (t.dither == 1#32)) = true := by decide +kernel

/-- V57: two polarizations get the value, the other outputs stay. -/
theorem test_decw :
    nextIs (exec .decw { readyW 2 0x41200000#32 weights with pbuf := [(0, 0x05#8)], wptr := 3#32 }) (fun t =>
      (t.out == ⟨0x40700000#32, 0x40700000#32, 0#32, 0#32⟩) && (t.rptr == 3#32)) = true := by decide +kernel

/-- 95_test_vectors.md 2.4. -/
theorem test_cdf :
    nextIs (exec (.cdf .v .r0) (readyV 2 0#32 0xBE99999A#32 0#32)) (fun t => t.prob == 0x59999980#32) = true ∧
    nextIs (exec (.cdf .v .r0) (readyV 2 0#32 0xFFC00001#32 0#32))
      (failedWith 0x0000000D#32 0xFFC00001#32 0x0000000A#32) = true := by decide +kernel

/-- 95_test_vectors.md 2.4: the top entry, no sentinel. -/
theorem test_level :
    nextIs (exec (.level .v .r0) { readyV 2 0#32 0#32 0#32 with prob := 0xFFFFFFFF#32 })
      (fun t => t.out.q0 == 0x3F400000#32) = true ∧
    nextIs (exec (.level .v .r0) { readyV 2 0#32 0#32 0#32 with prob := 0x3FFFFFFF#32 })
      (fun t => t.out.q0 == 0xBF400000#32) = true := by decide +kernel

/-- 95_test_vectors.md 2.8: RSTPTR w zeroes WPTR only. -/
theorem test_rstptr :
    nextIs (exec (.rstptr true false) (stream 6)) (fun t => t == { stream 6 with wptr := 0#32 }) = true := by
  decide +kernel

/-- 95_test_vectors.md 2.7: the minima. -/
theorem test_fmin32 : fmin32 0x00000000#32 0x80000000#32 = 0x80000000#32 ∧
    fmin32 0x3F800000#32 0x7FC00001#32 = 0x7FC00000#32 ∧ fmin32 0xC0400000#32 0x40000000#32 = 0xC0400000#32 ∧
    fmin32 0x40800000#32 0x40200000#32 = 0x40200000#32 := by decide

/-- 95_test_vectors.md 2.5, V14 and V15: overflow and underflow of the quotient; V31: the product. -/
theorem test_float : fdiv32 0x7F7FFFFF#32 0x00000001#32 = 0x7F800000#32 ∧
    fdiv32 0x00000001#32 0x7F7FFFFF#32 = 0x00000000#32 ∧ fmul32 0xBF7FFF00#32 0x7F7FFFFF#32 = 0xFF7FFEFF#32 := by
  decide +kernel

/-- 95_test_vectors.md 2.4: the ends and the middle of the Uniform CDF. -/
theorem test_uniformCdf : cdfq .uniform 0#32 0x3F7FFFFF#32 = 0xFFFFFF80#32 ∧
    cdfq .uniform 0#32 0x80000001#32 = 0x7FFFFFFF#32 ∧ cdfq .uniform 0#32 0x3F800000#32 = 0xFFFFFFFF#32 := by
  decide +kernel

/-- 95_test_vectors.md 2.3: entries of the Uniform table of b = 16. -/
theorem test_uniformInv : invt .uniform 0#32 16 0 = 0xBF7FFF00#32 ∧ invt .uniform 0#32 16 32767 = 0xB7800000#32 ∧
    invt .uniform 0#32 16 42598 = 0x3E999A00#32 := by decide +kernel

/-! ## Witnesses: encoding -/

theorem witness_DecodeOfEncode :
    (Instr.pack .c1 32).wellFormed = true ∧ (Instr.unpack .c0 1).wellFormed = true ∧
      (Instr.rstptr true true).wellFormed = true := by decide +kernel

theorem witness_EncodeOfDecode : decode 0x001F2004#32 = .ok (.pack .c1 32) ∧ decode 0x00000005#32 = .ok (.unpack .c0 1) := by
  decide +kernel

theorem witness_DecodeFollowsOpcodeMap :
    ((0x00, 0xFFFFFFFF#32) : Nat × Word) ∈ opcodeRows ∧ ((0x0C, 0xFCFFFFFF#32) : Nat × Word) ∈ opcodeRows ∧
      0x0300000C#32 &&& 0xFCFFFFFF#32 = BitVec.ofNat 32 0x0C := by decide +kernel

/-- The first unknown opcode, the last, and a set bit outside the fields of an opcode. -/
theorem witness_IllegalWordsRaiseIllegalCmd :
    (∀ c : Word, (host [.write cmdAddr c]).accesses = .write cmdAddr c :: [] ∧ (host [.write cmdAddr c]).err = false) ∧
      0x0D ≤ (0x0000000D#32 : Word).toNat % 256 ∧ 0x0D ≤ (0x000000FF#32 : Word).toNat % 256 ∧
      ∃ r ∈ opcodeRows, (0x00200004#32 : Word).toNat % 256 = r.1 ∧ 0x00200004#32 &&& r.2 ≠ BitVec.ofNat 32 r.1 :=
  ⟨fun _ => ⟨rfl, rfl⟩, by decide +kernel, by decide +kernel, (0x04, 0xFFE0DFFF#32), by decide +kernel,
    by decide +kernel, by decide +kernel⟩

/-! ## Witnesses: the step and the bus -/

theorem witness_StepRunsDecodedCommand :
    (host [.write cmdAddr 0x00000006#32]).accesses = .write cmdAddr 0x00000006#32 :: [] ∧
      (host [.write cmdAddr 0x00000006#32]).err = false ∧ decode 0x00000006#32 = .ok .encv := by decide +kernel

theorem witness_ErrGateIgnoresCommands_command :
    ({ host [.write cmdAddr 0#32] with err := true } : State).accesses = .write cmdAddr 0#32 :: [] ∧
      ({ host [.write cmdAddr 0#32] with err := true } : State).err = true := by decide +kernel

theorem witness_ErrGateIgnoresCommands_read :
    ({ host [.read 0xFFFFC#20] with err := true } : State).accesses = .read 0xFFFFC#20 :: [] ∧
      ({ host [.read 0xFFFFC#20] with err := true } : State).err = true ∧ misaligned 0xFFFFC#20 = false := by
  decide +kernel

theorem witness_ErrGateIgnoresCommands_write :
    ({ host [.write 0x0000C#20 1#32] with err := true } : State).accesses = .write 0x0000C#20 1#32 :: [] ∧
      ({ host [.write 0x0000C#20 1#32] with err := true } : State).err = true ∧ misaligned 0x0000C#20 = false ∧
      0x0000C#20 ≠ cmdAddr := by decide +kernel

theorem witness_MisalignedAccessIsBusFault_read :
    ∀ n ∈ [0x00001, 0x00013, 0xFFFFF], (host [.read (BitVec.ofNat 20 n)]).accesses = .read (BitVec.ofNat 20 n) :: [] ∧
      (BitVec.ofNat 20 n).toNat % 4 ≠ 0 := by decide +kernel

theorem witness_MisalignedAccessIsBusFault_write :
    ∀ n ∈ [0x00001, 0x00013, 0xFFFFF],
      (host [.write (BitVec.ofNat 20 n) 1#32]).accesses = .write (BitVec.ofNat 20 n) 1#32 :: [] ∧
        (BitVec.ofNat 20 n).toNat % 4 ≠ 0 := by decide +kernel

theorem witness_ReadsHaveNoSideEffect :
    ∀ h ∈ [HostAccess.read 0x00000#20, .read 0x00002#20, .read 0xFFFFC#20], (host [h, h]).accesses = h :: h :: [] := by
  decide +kernel

/-- The first and the last word of the reserved offsets and of each unmapped range. -/
theorem witness_UnmappedIsZeroAndIgnored :
    ∀ n ∈ [0x00078, 0x000FC, 0x00100, 0x0FFFC, 0x20000, 0x3FFFC, 0xC0000, 0xFFFFC],
      (BitVec.ofNat 20 n).toNat = n ∧ n % 4 = 0 ∧
      ((0x00078 ≤ n ∧ n < 0x10000) ∨ (0x20000 ≤ n ∧ n < 0x40000) ∨ 0xC0000 ≤ n) ∧
      (host [.read (BitVec.ofNat 20 n)]).accesses = .read (BitVec.ofNat 20 n) :: [] ∧
      (host [.write (BitVec.ofNat 20 n) 1#32]).accesses = .write (BitVec.ofNat 20 n) 1#32 :: [] := by decide +kernel

/-- The first and the last word of a full buffer. -/
theorem witness_PbufWindowIsLittleEndian_within :
    ∀ k ∈ [0, 0x3FFF], ∀ x ∈ [HostAccess.read (BitVec.ofNat 20 (0x10000 + 4 * k)),
        .write (BitVec.ofNat 20 (0x10000 + 4 * k)) 1#32],
      Config.pbufBytesOk (host [x]).pbufBytes = true ∧ k < 0x4000 ∧ k < (host [x]).pbufBytes / 4 ∧
        (host [x]).accesses = x :: [] := by decide +kernel

/-- The first word beyond a buffer of 4 bytes, and the last of the window. -/
theorem witness_PbufWindowIsLittleEndian_beyond :
    ∀ k ∈ [1, 0x3FFF], ∀ x ∈ [HostAccess.read (BitVec.ofNat 20 (0x10000 + 4 * k)),
        .write (BitVec.ofNat 20 (0x10000 + 4 * k)) 1#32],
      Config.pbufBytesOk ({ small 0 0 with accesses := [x] } : State).pbufBytes = true ∧ k < 0x4000 ∧
        ({ small 0 0 with accesses := [x] } : State).pbufBytes / 4 ≤ k ∧
        ({ small 0 0 with accesses := [x] } : State).accesses = x :: [] := by decide +kernel

theorem witness_TableWindowsAreReadOnly :
    ∀ i ∈ [0, 65535], i < 65536 ∧
      ∀ x ∈ [HostAccess.read (BitVec.ofNat 20 (0x40000 + 4 * i)), .read (BitVec.ofNat 20 (0x80000 + 4 * i)),
        .write (BitVec.ofNat 20 (0x40000 + 4 * i)) 1#32, .write (BitVec.ofNat 20 (0x80000 + 4 * i)) 1#32],
      (host [x]).accesses = x :: [] := by decide +kernel

theorem witness_RegisterWriteStoresByAccessClass_write :
    ∀ r ∈ [HostReg.ctrl, .vcfg, .wcfg, .vparam, .ditherState, .wptr, .id, .out .r3, .pbufSize],
      ∀ v ∈ [0x00000000, 0x00080000, 0xFFFFFFFF], r ≠ .cmd ∧ r ≠ .status ∧
        (host [.write (registerAddr r) (BitVec.ofNat 32 v)]).accesses =
          .write (registerAddr r) (BitVec.ofNat 32 v) :: [] := by decide +kernel

theorem witness_RegisterWriteStoresByAccessClass_read :
    ∀ r ∈ allRegs, (host [.read (registerAddr r)]).accesses = .read (registerAddr r) :: [] := by decide +kernel

/-- 95_test_vectors.md 2.10: ID at offset 0x000, and the error record of V70 at 0x014. -/
theorem test_step_readRegister :
    nextIs (step (host [.read 0x00000#20])) (fun t => t.answer == .data 0x44595343#32) = true ∧
    nextIs (step { host [.read 0x00014#20] with err := true, errCause := .illegalCmd })
      (fun t => t.answer == .data 0x00000001#32) = true := by decide +kernel

theorem witness_DitherStateRegister_access :
    ∀ h ∈ [HostAccess.write 0x00038#20 0x00000000#32, .write 0x00038#20 0xFFFFFFFF#32, .read 0x00038#20],
      (host [h]).accesses = h :: [] := by decide +kernel

theorem witness_DitherStateRegister_neverZero :
    (host [.write 0x00038#20 0#32]).dither ≠ 0x00000000#32 ∧
      ∃ t, step (host [.write 0x00038#20 0#32]) = .next t ∧ (t.dither == 1#32) = true :=
  ⟨by decide +kernel, exists_of_nextIs (p := fun t => t.dither == 1#32) (by decide +kernel)⟩

/-- A command that draws twice. -/
theorem witness_DitherStateRegister_draws :
    ∃ t, exec .encv { readyV 4 0#32 0x3E99999A#32 0x3F800000#32 with ctrl := 1#32 } = .next t ∧
      (t.dither == drawNext (drawNext 1#32)) = true :=
  exists_of_nextIs (p := fun t => t.dither == drawNext (drawNext 1#32)) (by decide +kernel)

theorem witness_StatusWriteReturnsFromError_write :
    ∀ h ∈ [HostAccess.write 0x0000C#20 0x00000000#32, .write 0x0000C#20 0x00000001#32, .write 0x0000C#20 0xFFFFFFFE#32],
      (host [h]).accesses = h :: [] := by decide +kernel

theorem witness_StatusWriteReturnsFromError_executes :
    ({ host [.write 0x0000C#20 1#32, .write cmdAddr 0#32] with err := true } : State).accesses =
        .write 0x0000C#20 1#32 :: .write cmdAddr 0#32 :: [] ∧
      (1#32 : Word).getLsbD 0 = true ∧ decode 0#32 = .ok .nop := by decide +kernel

theorem witness_ResetValues :
    ({ stream 6 with accesses := [.reset] } : State).accesses = .reset :: [] ∧
      ∃ t, step { stream 6 with accesses := [.reset] } = .next t ∧ (t.wptr == 0#32) = true :=
  ⟨by decide +kernel, exists_of_nextIs (p := fun t => t.wptr == 0#32) (by decide +kernel)⟩

theorem witness_BlockNeverStops : State.reset.accesses = [] := by decide +kernel

/-! ## Witnesses: invariants and errors -/

theorem witness_InvAtReset : Config.pbufBytesOk 4 = true ∧ Config.pbufBytesOk 65536 = true := by decide +kernel

/-- A block with a ready channel V and a written buffer meets the invariant, and its step appends two codes. -/
theorem witness_StepKeepsInv :
    ({ readyV 2 0#32 0x3E99999A#32 0x3F800000#32 with accesses := [.write cmdAddr 6#32] } : State).Inv ∧
      ∃ t, step { readyV 2 0#32 0x3E99999A#32 0x3F800000#32 with accesses := [.write cmdAddr 6#32] } = .next t ∧
        (t.wptr == 4#32) = true :=
  ⟨⟨by decide +kernel, by decide +kernel, by decide +kernel, ⟨fun _ => ⟨by decide +kernel, by decide +kernel,
    by decide +kernel, by decide +kernel, by decide +kernel, by decide +kernel⟩, fun _ => rfl,
    by decide +kernel⟩, ⟨fun h => absurd h (by decide +kernel), fun h => absurd h (by decide +kernel),
    by decide +kernel⟩, by decide +kernel, by decide +kernel, by decide +kernel,
    by decide +kernel, by decide +kernel⟩, exists_of_nextIs (p := fun t => t.wptr == 4#32) (by decide +kernel)⟩

theorem witness_ErrorEntryIsPrecise_exec :
    State.reset.err = false ∧ ∃ t, exec (.enc .w .r0 .c0) State.reset = .next t ∧ t.err = true :=
  ⟨by decide +kernel, exists_of_nextIs (p := fun t => t.err) (by decide +kernel)⟩

theorem witness_ErrorEntryIsPrecise_step :
    (host [.write cmdAddr 0x0000000D#32]).accesses = .write cmdAddr 0x0000000D#32 :: [] ∧
      (host [.write cmdAddr 0x0000000D#32]).err = false ∧
      ∃ t, step (host [.write cmdAddr 0x0000000D#32]) = .next t ∧ t.err = true :=
  ⟨by decide +kernel, by decide +kernel, exists_of_nextIs (p := fun t => t.err) (by decide +kernel)⟩

/-- LEVEL meets the premise of every clause for OUT0. -/
theorem witness_CommandsWriteOnlyTheirState :
    (∃ t, exec (.level .v .r1) (readyV 2 0#32 0#32 0#32) = .next t ∧ (t.out.q1 == 0xBF400000#32) = true) ∧
      (∀ ch : Channel, Instr.level .v .r1 ≠ .config ch) ∧ quantizes (.level .v .r1) = false ∧
      (∀ ch src, Instr.level .v .r1 ≠ .cdf ch src) ∧ writesCode .c1 (.level .v .r1) = false ∧
      writesOut 1 .r0 (.level .v .r1) = false ∧ appends (.level .v .r1) = false ∧
      (∀ pr, Instr.level .v .r1 ≠ .rstptr true pr) ∧ takes (.level .v .r1) = false ∧
      ∀ pw, Instr.level .v .r1 ≠ .rstptr pw true :=
  ⟨exists_of_nextIs (p := fun t => t.out.q1 == 0xBF400000#32) (by decide +kernel), fun _ => nofun, by decide +kernel,
    fun _ _ => nofun,
    by decide +kernel, by decide +kernel, by decide +kernel, fun _ => nofun, by decide +kernel, fun _ => nofun⟩

/-! ## Witnesses: where each command completes -/

/-- One bit at the last position of a buffer of 4 bytes, and 32 bits at its first. -/
theorem witness_PackAppendsCode :
    (((small 31 1).code .c0).toNat < 2 ^ 1 ∧ (small 31 1).wptr.toNat + 1 ≤ 8 * (small 31 1).pbufBytes ∧
      Config.pbufBytesOk (small 31 1).pbufBytes = true) ∧
    ((small 0 0xFFFFFFFF).code .c0).toNat < 2 ^ 32 ∧
      (small 0 0xFFFFFFFF).wptr.toNat + 32 ≤ 8 * (small 0 0xFFFFFFFF).pbufBytes ∧
      Config.pbufBytesOk (small 0 0xFFFFFFFF).pbufBytes = true := by decide +kernel

theorem witness_UnpackReadsCode :
    (stream 11).rptr.toNat + 1 ≤ (stream 11).wptr.toNat ∧ (small 32 0).rptr.toNat + 32 ≤ (small 32 0).wptr.toNat := by
  decide +kernel

/-- The least and the greatest depth, a checked parameter, and the least and the greatest number of polarizations. -/
theorem witness_ConfigLatchesAcceptedRequest :
    Accepts (requested .v 0x00000002#32 0#32) .v 2 1 .uniform 0#32 ∧
      Accepts (requested .w 0x00010210#32 1#32) .w 16 1 .truncatedGaussian 1#32 ∧
      Accepts (requested .w 0x00040003#32 0#32) .w 3 4 .uniform 0#32 := by decide +kernel

/-- A NaN parameter, which Gaussian neither checks nor uses. -/
theorem witness_ConfigLatchesAcceptedRequest_gaussian :
    Accepts (requested .v 0x00000102#32 0x7FC00000#32) .v 2 1 .gaussian 0x7FC00000#32 := by decide +kernel

/-- The quantile of the top bin of b = 2 for StudentsT with `ν = 2^−149` is beyond the binary32 range. -/
theorem witness_ConfigLatchesAcceptedRequest_high :
    Accepts (requested .v 0x00000302#32 0x00000001#32) .v 2 1 .studentsT 0x00000001#32 ∧
      ∃ z : ℝ, (2 ^ 24 - 1) * 2 ^ 104 < z ∧
        IsCdf .studentsT (realValue 0x00000001#32 : ℝ) z ((2 * ((3 : Nat) : ℝ) + 1) / 2 ^ (2 + 1)) := by
  obtain ⟨z, hz, hc⟩ := student_high_quantile
  refine ⟨by decide +kernel, z, ?_, hc⟩
  rw [realValue_maxFinite] at hz
  push_cast at hz
  norm_num at *
  exact hz

/-- The quantile of the bottom bin of the same request. -/
theorem witness_ConfigLatchesAcceptedRequest_low :
    Accepts (requested .v 0x00000302#32 0x00000001#32) .v 2 1 .studentsT 0x00000001#32 ∧
      ∃ z : ℝ, z < -((2 ^ 24 - 1) * 2 ^ 104) ∧
        IsCdf .studentsT (realValue 0x00000001#32 : ℝ) z ((2 * ((0 : Nat) : ℝ) + 1) / 2 ^ (2 + 1)) := by
  obtain ⟨z, hz, hc⟩ := student_low_quantiles (i := 0) (by norm_num)
  refine ⟨by decide +kernel, z, ?_, hc⟩
  rw [realValue_minFinite] at hz
  push_cast at hz
  norm_num at *
  exact hz

theorem witness_EncWritesQuantizedCode_nan :
    ((readyV 2 0xBF800000#32 0x7FC00000#32 0#32).chan .v).cfgok = true ∧
      2 = ((readyV 2 0xBF800000#32 0x7FC00000#32 0#32).chan .v).active.bits ∧
      isNaN ((readyV 2 0xBF800000#32 0x7FC00000#32 0#32).inp.get .r0) = true := by decide +kernel

theorem witness_EncWritesQuantizedCode_plain :
    ((readyV 4 0x80000000#32 0xFF800000#32 0#32).chan .v).cfgok = true ∧
      4 = ((readyV 4 0x80000000#32 0xFF800000#32 0#32).chan .v).active.bits ∧
      isNaN ((readyV 4 0x80000000#32 0xFF800000#32 0#32).inp.get .r0) = false ∧
      validFactor ((readyV 4 0x80000000#32 0xFF800000#32 0#32).chan .v).factor = true ∧
      (readyV 4 0x80000000#32 0xFF800000#32 0#32).ditherEn = false := by decide +kernel

theorem witness_EncWritesQuantizedCode_dither :
    ((readyV 4 0x7F7FFFFF#32 1#32 0#32).chan .v).cfgok = true ∧
      4 = ((readyV 4 0x7F7FFFFF#32 1#32 0#32).chan .v).active.bits ∧
      isNaN ((readyV 4 0x7F7FFFFF#32 1#32 0#32).inp.get .r0) = false ∧
      validFactor ((readyV 4 0x7F7FFFFF#32 1#32 0#32).chan .v).factor = true ∧
      ({ readyV 4 0x7F7FFFFF#32 1#32 0#32 with ctrl := 1#32 } : State).ditherEn = true := by decide +kernel

/-- The sentinel with a NaN factor, and the code below it with the greatest finite factor. -/
theorem witness_DecWritesDecodedValue :
    (∀ c ∈ [2, 3], (({ readyV 2 0x7F7FFFFF#32 0#32 0#32 with code0 := BitVec.ofNat 32 c } : State).code .c0).toNat = c ∧
      c < 2 ^ ((readyV 2 0x7F7FFFFF#32 0#32 0#32).chan .v).active.bits) ∧
      ((readyV 2 0x7FC00000#32 0#32 0#32).chan .v).cfgok = true ∧
      (readyV 2 0x7FC00000#32 0#32 0#32).Decodes .v 3 0x7FC00000#32 0x7FC00000#32 ∧
      (readyV 2 0x7F7FFFFF#32 0#32 0#32).Decodes .v 2 0x7F7FFFFF#32 (fmul32 0x3E800000#32 0x7F7FFFFF#32) :=
  ⟨by decide +kernel, by decide +kernel, .inl ⟨by decide +kernel, rfl⟩,
    .inr ⟨by decide +kernel, by decide +kernel, by decide +kernel, by decide +kernel⟩⟩

theorem witness_CdfWritesProbability :
    ((readyV 2 0#32 0x7F800000#32 0#32).chan .v).cfgok = true ∧
      isNaN ((readyV 2 0#32 0x7F800000#32 0#32).inp.get .r0) = false := by decide +kernel

theorem witness_CdfWritesProbability_uniform :
    ((readyV 2 0#32 0x7F800000#32 0#32).chan .v).cfgok = true ∧
      isNaN ((readyV 2 0#32 0x7F800000#32 0#32).inp.get .r0) = false ∧
      ((readyV 2 0#32 0x7F800000#32 0#32).chan .v).active.dist = .uniform := by decide +kernel

theorem witness_CdfWritesProbability_gaussian :
    (gaussianV.chan .v).cfgok = true ∧ isNaN (gaussianV.inp.get .r0) = false ∧
      (gaussianV.chan .v).active.dist = .gaussian := by decide +kernel

theorem witness_LevelReadsBin :
    ((readyV 2 0#32 0#32 0#32).chan .v).cfgok = true ∧ 2 = ((readyV 2 0#32 0#32 0#32).chan .v).active.bits ∧
      ((readyW 4 0#32 weights).chan .w).cfgok = true ∧ 3 = ((readyW 4 0#32 weights).chan .w).active.bits := by
  decide +kernel

/-- Two NaN with an invalid factor, and two numbers with a valid one. -/
theorem witness_EncvQuantizesAndAppends :
    ∀ s ∈ [readyV 2 0xFF800000#32 0x7FC00000#32 0x7F800001#32, readyV 2 0x41200000#32 0x3F800000#32 0x7FC00000#32],
      s.chanV.cfgok = true ∧ 2 = s.chanV.active.bits ∧ s.wptr.toNat + 2 * 2 ≤ 8 * s.pbufBytes ∧
        Config.pbufBytesOk s.pbufBytes = true ∧
        ((isNaN s.inp.q0 = true ∧ isNaN s.inp.q1 = true) ∨ validFactor s.chanV.factor = true) := by decide +kernel

theorem witness_DecvDecodesPair :
    ∀ s ∈ [{ readyV 4 0x40000000#32 0#32 0#32 with pbuf := [(0, 0x6F#8)], wptr := 8#32 }],
      s.chanV.cfgok = true ∧ 4 = s.chanV.active.bits ∧ s.rptr.toNat + 2 * 4 ≤ s.wptr.toNat ∧
        15 = s.streamBits s.rptr.toNat 4 ∧ 6 = s.streamBits (s.rptr.toNat + 4) 4 ∧
        s.Decodes .v 15 s.chanV.factor 0x7FC00000#32 ∧ s.Decodes .v 6 s.chanV.factor 0xBEC00000#32 := by
  intro s hs
  obtain rfl := List.mem_singleton.mp hs
  exact ⟨by decide +kernel, by decide +kernel, by decide +kernel, by decide +kernel, by decide +kernel,
    .inl ⟨by decide +kernel, rfl⟩,
    .inr ⟨by decide +kernel, by decide +kernel, by decide +kernel, by decide +kernel⟩⟩

/-- Every number of polarizations; a NaN minimum with an invalid factor and a number with a valid one. -/
theorem witness_EncwQuantizesMinimum :
    ∀ n ∈ [1, 2, 3, 4], ∀ s ∈ [readyW n 0x41200000#32 weights,
      readyW n 0xFF800000#32 { weights with q0 := 0x7FC00000#32 }],
      s.chanW.cfgok = true ∧ 3 = s.chanW.active.bits ∧ s.wptr.toNat + 3 ≤ 8 * s.pbufBytes ∧
        Config.pbufBytesOk s.pbufBytes = true ∧ s.chanW.active.npol = n ∧
        (isNaN (s.inp.wmin n) = true ∨ validFactor s.chanW.factor = true) := by decide +kernel

theorem witness_DecwReplicatesValue :
    ∀ s ∈ [{ readyW 2 0x41200000#32 weights with pbuf := [(0, 0x05#8)], wptr := 3#32 }],
      s.chanW.cfgok = true ∧ 3 = s.chanW.active.bits ∧ s.rptr.toNat + 3 ≤ s.wptr.toNat ∧
        5 = s.streamBits s.rptr.toNat 3 ∧ s.Decodes .w 5 s.chanW.factor 0x40700000#32 := by
  intro s hs
  obtain rfl := List.mem_singleton.mp hs
  exact ⟨by decide +kernel, by decide +kernel, by decide +kernel, by decide +kernel, .inr ⟨by decide +kernel,
    by decide +kernel, by decide +kernel, by decide +kernel⟩⟩

/-! ## Witnesses: the errors -/

/-- Requests that fail each test and no earlier one, at the boundary of the test. -/
theorem witness_ConfigRejectsInOrder :
    ((0x00000001#32 : Word).toNat % 32 < 2 ∧ 16 < (0x00000011#32 : Word).toNat % 32) ∧
    ((0x00000402#32 : Word).toNat % 32 = 2 ∧ 3 < (0x00000402#32 : Word).toNat / 256 % 8) ∧
    ((0x00000310#32 : Word).toNat % 32 = 16 ∧ (0x00000310#32 : Word).toNat / 256 % 8 = 3 ∧ isInf 0x7F800000#32 = true) ∧
    (0x00000003#32 : Word).toNat / 65536 % 8 < 1 ∧ 4 < (0x00050003#32 : Word).toNat / 65536 % 8 := by decide +kernel

theorem witness_EncErrors :
    (State.reset.chan .w).cfgok = false ∧
      ((readyV 2 0x80000001#32 0x3E99999A#32 0#32).chan .v).cfgok = true ∧
      isNaN ((readyV 2 0x80000001#32 0x3E99999A#32 0#32).inp.get .r0) = false ∧
      validFactor ((readyV 2 0x80000001#32 0x3E99999A#32 0#32).chan .v).factor = false := by decide +kernel

/-- At b = 2, code 4 is out of range and code 2 is below the sentinel; no Uniform entry times a factor overflows, so the
overflow is shown on a channel whose entry 0 is −2.0. -/
theorem witness_DecErrors :
    (State.reset.chan .v).cfgok = false ∧
    ((readyV 2 0x7FC00000#32 0#32 0#32).chan .v).cfgok = true ∧
    2 ^ ((readyV 2 0#32 0#32 0#32).chan .v).active.bits ≤ (4#32 : Word).toNat ∧
    (2#32 : Word).toNat + 1 < 2 ^ ((readyV 2 0#32 0#32 0#32).chan .v).active.bits ∧
    validFactor 0x7FC00000#32 = false ∧ validFactor 0x7F7FFFFF#32 = true ∧
    ∀ s ∈ [{ readyV 2 0x7F7FFFFF#32 0#32 0#32 with
        chanV := { uniformChan 2 1 2#32 0x7F7FFFFF#32 with table := some [0xC0000000#32] } }],
      (s.chan .v).cfgok = true ∧ (s.code .c0).toNat + 1 < 2 ^ (s.chan .v).active.bits ∧
        isInf (fmul32 (s.tabEntry .v (s.code .c0).toNat) (effFactor (s.chan .v).factor)) = true := by decide +kernel

theorem witness_CdfAndLevelErrors :
    (State.reset.chan .v).cfgok = false ∧ ((readyV 2 0#32 0xFFC00001#32 0#32).chan .v).cfgok = true ∧
      isNaN ((readyV 2 0#32 0xFFC00001#32 0#32).inp.get .r0) = true := by decide +kernel

/-- Not configured; four bits where three are left; a number with an invalid factor where four are left. -/
theorem witness_EncvErrors :
    State.reset.chanV.cfgok = false ∧
    (∀ s ∈ [{ readyV 2 0#32 0#32 0#32 with pbufBytes := 4, wptr := 29#32 }],
      s.chanV.cfgok = true ∧ 8 * s.pbufBytes < s.wptr.toNat + 2 * s.chanV.active.bits) ∧
    ∀ s ∈ [{ readyV 2 0xBF800000#32 0x3F800000#32 0x7FC00000#32 with pbufBytes := 4, wptr := 28#32 }],
      s.chanV.cfgok = true ∧ s.wptr.toNat + 2 * s.chanV.active.bits ≤ 8 * s.pbufBytes ∧ isNaN s.inp.q0 = false ∧
        validFactor s.chanV.factor = false := by decide +kernel

/-- Channel V of depth 2 whose table has −2.0 at entry 0 and 0.25 at entry 1, with the stream of codes `c0`, `c1`. -/
def pair (f : Word) (c0 c1 : Nat) : State :=
  { readyV 2 f 0#32 0#32 with
    chanV := { uniformChan 2 1 2#32 f with table := some [0xC0000000#32, 0x3E800000#32] }
    pbuf := [(0, BitVec.ofNat 8 (c0 + 4 * c1))], wptr := 4#32 }

theorem witness_DecvErrors :
    State.reset.chanV.cfgok = false ∧ (pair 0#32 0 0).wptr.toNat < (3#32 : Word).toNat + 2 * 2 ∧
    ((pair 0xBF800000#32 3 0).chanV.cfgok = true ∧ (pair 0xBF800000#32 3 0).rptr.toNat + 2 * 2 ≤ (pair 0xBF800000#32 3 0).wptr.toNat ∧
      (pair 0xBF800000#32 3 0).streamBits 2 2 + 1 ≠ 2 ^ 2 ∧ validFactor (pair 0xBF800000#32 3 0).chanV.factor = false) ∧
    ((pair 0x7F7FFFFF#32 0 1).streamBits 0 2 = 0 ∧
      isInf (fmul32 ((pair 0x7F7FFFFF#32 0 1).tabEntry .v 0) (effFactor 0x7F7FFFFF#32)) = true) ∧
    (pair 0x7F7FFFFF#32 1 0).streamBits 0 2 = 1 ∧ (pair 0x7F7FFFFF#32 1 0).streamBits 2 2 = 0 ∧
      (pair 0x7F7FFFFF#32 1 0).Decodes .v 1 0x7F7FFFFF#32 (fmul32 0x3E800000#32 0x7F7FFFFF#32) :=
  ⟨by decide +kernel, by decide +kernel, by decide +kernel, by decide +kernel, by decide +kernel, by decide +kernel,
    .inr ⟨by decide +kernel, by decide +kernel, by decide +kernel, by decide +kernel⟩⟩

theorem witness_EncwErrors :
    State.reset.chanW.cfgok = false ∧
    (∀ s ∈ [{ readyW 4 0#32 weights with pbufBytes := 4, wptr := 30#32 }],
      s.chanW.cfgok = true ∧ 8 * s.pbufBytes < s.wptr.toNat + s.chanW.active.bits) ∧
    ∀ s ∈ [{ readyW 4 0x7FC00000#32 weights with pbufBytes := 4, wptr := 29#32 }],
      s.chanW.cfgok = true ∧ s.wptr.toNat + s.chanW.active.bits ≤ 8 * s.pbufBytes ∧
        isNaN (s.inp.wmin s.chanW.active.npol) = false ∧ validFactor s.chanW.factor = false := by decide +kernel

/-- Not configured; three bits where two are left; code 5 with an invalid factor, and with an entry of −2.0. -/
theorem witness_DecwErrors :
    State.reset.chanW.cfgok = false ∧
    (∀ s ∈ [{ readyW 4 0#32 weights with wptr := 3#32, rptr := 1#32 }],
      s.chanW.cfgok = true ∧ s.wptr.toNat < s.rptr.toNat + s.chanW.active.bits) ∧
    (∀ s ∈ [{ readyW 4 0x7FC00000#32 weights with pbuf := [(0, 0x05#8)], wptr := 3#32 }],
      s.chanW.cfgok = true ∧ s.rptr.toNat + 3 ≤ s.wptr.toNat ∧ s.streamBits s.rptr.toNat 3 + 1 ≠ 2 ^ 3 ∧
        validFactor s.chanW.factor = false) ∧
    ∀ s ∈ [{ readyW 4 0x7F7FFFFF#32 weights with
        chanW := { uniformChan 3 4 3#32 0x7F7FFFFF#32 with table := some [0xC0000000#32] },
        pbuf := [(0, 0x00#8)], wptr := 3#32 }],
      s.chanW.cfgok = true ∧ s.rptr.toNat + 3 ≤ s.wptr.toNat ∧ s.streamBits s.rptr.toNat 3 = 0 ∧
        validFactor s.chanW.factor = true ∧ isInf (fmul32 (s.tabEntry .w 0) (effFactor s.chanW.factor)) = true := by
  decide +kernel

theorem witness_PackAndUnpackErrors :
    (∀ w ∈ [1, 31], 2 ^ w ≤ ((small 0 0x80000000).code .c0).toNat) ∧
    (((small 30 7).code .c0).toNat < 2 ^ 3 ∧ 8 * (small 30 7).pbufBytes < (small 30 7).wptr.toNat + 3) ∧
    (stream 12).wptr.toNat < (stream 12).rptr.toNat + 1 := by decide +kernel

/-! ## Witnesses: the dither and the quantizer -/

theorem witness_DrawNeverReachesZero : drawNext 0#32 = drawNext 0#32 ∧ (0x00000001#32 : Word) ≠ 0x00000000#32 := by
  decide +kernel

/-- The ends of the dither of the least and the greatest depth. -/
theorem witness_DitherIsUniform :
    ditherOf 2 0x00000000#32 = -536870912 ∧ ditherOf 2 0xFFFFFFFF#32 = 536870911 ∧ ditherOf 16 0x00000000#32 = -32768 ∧
      ditherOf 16 0xFFFFFFFF#32 = 32767 ∧ ((readyV 2 0#32 0#32 0#32).chanV.active).bits = 2 ∧ isNaN 0x7F800000#32 = false := by
  decide +kernel

theorem witness_FactorIsValidOrReplaced :
    isZero 0x80000000#32 = true ∧ isZero 0x00000001#32 = false ∧ validFactor 0x80000000#32 = true ∧
      validFactor 0x7F7FFFFF#32 = true := by decide +kernel

/-- The least and the greatest probability code away from the clamped ends. -/
theorem witness_DitheredCodeIsUnbiased :
    ∀ b ∈ [2, 16], ∀ p ∈ [2 ^ (31 - b), (2 * 2 ^ b - 3) * 2 ^ (31 - b)],
      2 ^ (31 - b) ≤ p ∧ 2 * p ≤ (2 * 2 ^ b - 3) * 2 ^ (32 - b) := by decide +kernel

theorem witness_SentinelMeansNaN_enc :
    ((readyV 2 0#32 0x7F800001#32 0#32).chan .v).cfgok = true ∧
      isNaN ((readyV 2 0#32 0x7F800001#32 0#32).inp.get .r0) = true := by decide +kernel

theorem witness_SentinelMeansNaN_dec :
    ({ readyV 2 0x7FC00000#32 0#32 0#32 with code0 := 3#32 } : State).code .c0 =
      BitVec.ofNat 32 (2 ^ ((readyV 2 0x7FC00000#32 0#32 0#32).chan .v).active.bits - 1) := by decide +kernel

theorem witness_SentinelMeansNaN_number :
    isNaN ((readyV 2 0#32 0x7F800000#32 0#32).inp.get .r0) = false ∧
      ∃ t, exec (.enc .v .r0 .c0) (readyV 2 0#32 0x7F800000#32 0#32) = .next t ∧ (t.err == false) = true :=
  ⟨by decide +kernel, exists_of_nextIs (p := fun t => t.err == false) (by decide +kernel)⟩

theorem witness_SentinelMeansNaN_encv :
    (readyV 2 0#32 0x3F800000#32 0x7FC00000#32).err = false ∧
      ∃ t, exec .encv (readyV 2 0#32 0x3F800000#32 0x7FC00000#32) = .next t ∧
        ((t.err == false) && (t.code1 == 3#32)) = true :=
  ⟨by decide +kernel, exists_of_nextIs (p := fun t => (t.err == false) && (t.code1 == 3#32)) (by decide +kernel)⟩

theorem witness_SentinelMeansNaN_decv :
    ∃ t, exec .decv { readyV 2 0#32 0#32 0#32 with pbuf := [(0, 0x0F#8)], wptr := 4#32 } = .next t ∧
      ((t.err == false) && (t.code0 == 3#32) && (t.code1 == 3#32)) = true :=
  exists_of_nextIs (p := fun t => (t.err == false) && (t.code0 == 3#32) && (t.code1 == 3#32)) (by decide +kernel)

theorem witness_DrawsAreAccounted_error :
    State.reset.err = false ∧ ∃ t, exec .encv State.reset = .next t ∧ t.err = true :=
  ⟨by decide +kernel, exists_of_nextIs (p := fun t => t.err) (by decide +kernel)⟩

theorem witness_DrawsAreAccounted_draws :
    drawCount { readyV 4 0#32 0x3E99999A#32 0x3F800000#32 with ctrl := 1#32 } .encv = 2 ∧
      ∃ t,
      exec .encv { readyV 4 0#32 0x3E99999A#32 0x3F800000#32 with ctrl := 1#32 } = .next t ∧ (t.err == false) = true :=
  ⟨by decide +kernel, exists_of_nextIs (p := fun t => t.err == false) (by decide +kernel)⟩

theorem readyV_channelOk (f x : Word) : ChannelOk .v ((readyV 2 f x 0#32).chan .v) :=
  ⟨fun _ => ⟨(by decide : 2 ≤ 2), (by decide : 2 ≤ 16), rfl, (by decide : 1 ≤ 1), (by decide : 1 ≤ 4), fun _ => rfl⟩,
    fun _ => rfl,
    (by decide : 0x00000002#32 &&& 0x0000071F#32 = 0x00000002#32)⟩

/-- 95_test_vectors.md 2.5 at b = 2, f = 2.0: entry 2 is 0.25 and 0.25 × 2.0 = 0.5 comes back; entry 3 is 0.75. -/
theorem witness_RoundTripWithoutDither :
    ChannelOk .v ((readyV 2 0x40000000#32 0x3F000000#32 0#32).chan .v) ∧
    (∀ k, k < 3 → (cdfq .uniform 0#32 ((readyV 2 0x40000000#32 0x3F000000#32 0#32).tabEntry .v k)).toNat / 2 ^ 30 = k) ∧
    ∀ p ∈ [(2, 0x3F000000#32), (3, 0x3FC00000#32)], ∀ s ∈ [readyV 2 0x40000000#32 p.2 0#32],
      (s.chan .v).cfgok = true ∧ s.ditherEn = false ∧ validFactor (s.chan .v).factor = true ∧
        p.2 = fmul32 (s.tabEntry .v p.1) (effFactor (s.chan .v).factor) ∧
        fdiv32 p.2 (effFactor (s.chan .v).factor) = s.tabEntry .v p.1 ∧ s.inp.get .r0 = p.2 ∧
        (p.1 + 2 ≤ 2 ^ (s.chan .v).active.bits ∨ p.1 + 1 = 2 ^ (s.chan .v).active.bits) :=
  ⟨readyV_channelOk _ _, by decide +kernel, by decide +kernel⟩

/-! ## Witnesses: distributions, weights, the stream, arithmetic -/

/-- −1, 1, and the two values next to them inside; −0. -/
theorem witness_UniformCdfIsExact :
    (isNaN 0xBF800000#32 = false ∧ realRank 0xBF800000#32 ≤ realRank 0xBF800000#32) ∧
    (isNaN 0x3F800000#32 = false ∧ realRank 0x3F800000#32 ≤ realRank 0x3F800000#32) ∧
    ∀ n ∈ [0xBF7FFFFF, 0x3F7FFFFF, 0x80000000],
      isNaN (BitVec.ofNat 32 n) = false ∧ realRank 0xBF800000#32 < realRank (BitVec.ofNat 32 n) ∧
        realRank (BitVec.ofNat 32 n) < realRank 0x3F800000#32 := by decide +kernel

theorem witness_UniformTableIsExact : (2 ≤ 2 ∧ 2 ≤ 16 ∧ 3 < 2 ^ 2) ∧ 2 ≤ 16 ∧ 16 ≤ 16 ∧ 65535 < 2 ^ 16 := by
  decide +kernel

theorem witness_TableLaws :
    ChannelOk .v ((readyV 2 0#32 0#32 0#32).chan .v) ∧ ((readyV 2 0#32 0#32 0#32).chan .v).cfgok = true ∧
      ((readyV 2 0#32 0#32 0#32).chan .v).active.dist = .uniform ∧
      4 = 2 ^ ((readyV 2 0#32 0#32 0#32).chan .v).active.bits :=
  ⟨readyV_channelOk _ _, by decide +kernel, by decide +kernel, by decide +kernel⟩

/-- The input is entry 2 of the table of b = 2. -/
theorem witness_CdfThenLevelFindsBin :
    ChannelOk .v ((readyV 2 0#32 0x3E800000#32 0#32).chan .v) ∧ ((readyV 2 0#32 0x3E800000#32 0#32).chan .v).cfgok = true ∧
      isNaN ((readyV 2 0#32 0x3E800000#32 0#32).inp.get .r0) = false ∧
      (readyV 2 0#32 0x3E800000#32 0#32).inp.get .r0 = (readyV 2 0#32 0x3E800000#32 0#32).tabEntry .v 2 :=
  ⟨readyV_channelOk _ _, by decide +kernel, by decide +kernel, by decide +kernel⟩

theorem witness_MinimumOfWeights :
    (isNaN 0x3F800000#32 = false ∧ isNaN 0x7FC00001#32 = true) ∧ (isZero 0x80000000#32 = true ∧ isZero 0x00000000#32 = true) ∧
      regNum .r3 < 4 := by decide +kernel

theorem witness_WeightLaws_permutation :
    (readyW 4 0x41200000#32 weights).chanW.active.npol = 4 ∧
      ([0x40C00000#32, 0x40400000#32, 0x40200000#32,
      0x40800000#32].take (readyW 4 0x41200000#32 weights).chanW.active.npol).Perm
        ([weights.q0, weights.q1, weights.q2, weights.q3].take (readyW 4 0x41200000#32 weights).chanW.active.npol) := by
  decide +kernel

theorem witness_WeightLaws_decw :
    regNum .r1 < (readyW 2 0x41200000#32 weights).chanW.active.npol ∧
      ∃ t, exec .decw { readyW 2 0x41200000#32 weights with pbuf := [(0, 0x05#8)], wptr := 3#32 } = .next t ∧
        (t.err == false) = true :=
  ⟨by decide +kernel, exists_of_nextIs (p := fun t => t.err == false) (by decide +kernel)⟩

/-- V53, then V55: a NaN weight with an invalid factor is encoded, and decoded from where it was appended. -/
theorem witness_WeightLaws_nan :
    isNaN (({ weights with q3 := 0x7F800001#32 } : Quad).get .r3) = true ∧
    regNum .r3 < (readyW 4 0xBF800000#32 { weights with q3 := 0x7F800001#32 }).chanW.active.npol ∧
      ∃ t, exec .encw (readyW 4 0xBF800000#32 { weights with q3 := 0x7F800001#32 }) = .next t ∧
        ((t.err == false) && nextIs (exec .decw { t with rptr := 0#32 }) fun u => u.out.q3 == 0x7FC00000#32) = true :=
  ⟨by decide +kernel, by decide +kernel, exists_of_nextIs
    (p := fun t => (t.err == false) && nextIs (exec .decw { t with rptr := 0#32 }) fun u => u.out.q3 == 0x7FC00000#32)
    (by decide +kernel)⟩

/-- A buffer of 4 bytes filled by one code of 32 bits, and by ten codes of 3. -/
theorem witness_PackThenUnpackIsExact :
    Config.pbufBytesOk (small 0 0).pbufBytes = true ∧
    ((∀ c ∈ [(0xFFFFFFFF#32 : Word)], c.toNat < 2 ^ 32) ∧
      [(0xFFFFFFFF#32 : Word)].length * 32 ≤ 8 * (small 0 0).pbufBytes) ∧
    (∀ c ∈ List.replicate 10 (7#32 : Word), c.toNat < 2 ^ 3) ∧
      (List.replicate 10 (7#32 : Word)).length * 3 ≤ 8 * (small 0 0).pbufBytes :=
  ⟨by decide +kernel, ⟨by simp, by decide +kernel⟩, by simp, by decide +kernel⟩

theorem witness_ProductIsNearestEven :
    isFinite 0x7F7FFFFF#32 = true ∧ isFinite 0x80000001#32 = true ∧ isFinite (fmul32 0x7F7FFFFF#32 0x80000001#32) = true := by
  decide +kernel

theorem witness_QuotientIsNearestEven :
    isFinite 0x3F800000#32 = true ∧ isFinite 0x40400000#32 = true ∧ isZero 0x40400000#32 = false ∧
      isFinite (fdiv32 0x3F800000#32 0x40400000#32) = true := by decide +kernel

end Sys2Proof.Tests
end

/-! SUPPORT. The dither generator and DITHER_STATE (41_quantizer.md R131, 10_state.md R33), and the interrupt line
(10_state.md R50). -/

namespace Sys2Proof.Machine

/-! ## xor with a shifted copy is injective -/

theorem eq_zero_of_shiftLeft_eq {w a : Nat} (ha : 0 < a) {u : BitVec w} (h : u <<< a = u) : u = 0#w := by
  have hk (k : Nat) : u <<< (a * k) = u := by
    induction k with
    | zero => simp
    | succ k ih => rw [Nat.mul_succ, BitVec.shiftLeft_add, ih, h]
  rw [← hk w]
  exact BitVec.shiftLeft_eq_zero (Nat.le_mul_of_pos_left w ha)

theorem eq_zero_of_ushiftRight_eq {w a : Nat} (ha : 0 < a) {u : BitVec w} (h : u >>> a = u) : u = 0#w := by
  have hk (k : Nat) : u >>> (a * k) = u := by
    induction k with
    | zero => simp
    | succ k ih => rw [Nat.mul_succ, BitVec.shiftRight_add, ih, h]
  rw [← hk w]
  exact BitVec.ushiftRight_eq_zero (Nat.le_mul_of_pos_left w ha)

/-- Over the two-element field: `1 + f` is injective when `f` is additive and fixes nothing but 0. -/
theorem xor_map_injective {w : Nat} {f : BitVec w → BitVec w} (hadd : ∀ x y, f (x ^^^ y) = f x ^^^ f y)
    (hfix : ∀ u, f u = u → u = 0#w) : Function.Injective fun x => x ^^^ f x := by
  intro x y (h : x ^^^ f x = y ^^^ f y)
  have hu : f (x ^^^ y) ^^^ (x ^^^ y) = 0#w := calc
    f (x ^^^ y) ^^^ (x ^^^ y) = (x ^^^ f x) ^^^ (y ^^^ f y) := by rw [hadd]; ac_rfl
    _ = 0#w := by rw [h, BitVec.xor_self]
  exact BitVec.xor_eq_zero_iff.1 (hfix _ (BitVec.xor_eq_zero_iff.1 hu))

theorem xor_shiftLeft_injective {w a : Nat} (ha : 0 < a) : Function.Injective fun x : BitVec w => x ^^^ x <<< a :=
  xor_map_injective (fun x y => BitVec.shiftLeft_xor_distrib x y a) fun _ => eq_zero_of_shiftLeft_eq ha

theorem xor_ushiftRight_injective {w a : Nat} (ha : 0 < a) : Function.Injective fun x : BitVec w => x ^^^ x >>> a :=
  xor_map_injective (fun x y => BitVec.ushiftRight_xor_distrib x y a) fun _ => eq_zero_of_ushiftRight_eq ha

/-! ## The draw: injective, never 0 from a state that is not 0 (41_quantizer.md R131) -/

theorem drawNext_injective : Function.Injective drawNext :=
  (xor_shiftLeft_injective (by decide)).comp
    ((xor_ushiftRight_injective (by decide)).comp (xor_shiftLeft_injective (by decide)))

@[simp] theorem drawNext_zero : drawNext 0x00000000#32 = 0x00000000#32 := by decide

theorem drawNext_ne_zero {x : Word} (h : x ≠ 0x00000000#32) : drawNext x ≠ 0x00000000#32 :=
  fun h0 => h (drawNext_injective (h0.trans drawNext_zero.symm))

theorem iterate_drawNext_ne_zero {x : Word} (h : x ≠ 0x00000000#32) (n : Nat) : drawNext^[n] x ≠ 0x00000000#32 := by
  induction n with
  | zero => exact h
  | succ n ih =>
    rw [Function.iterate_succ_apply']
    exact drawNext_ne_zero ih

/-! ## The draw: 0 is its one fixed point

At a fixed point the three shifts of a draw collapse into one relation on the word `z` between the second and the third
shift (`shift_relation_of_fixed`). Read bit by bit it makes bits 0 to 8 of `z` equal, then 0, and every higher bit follows
from lower ones. -/

/-- The relation of `shift_relation_of_fixed`, for the positions in which at most two further bits appear. -/
theorem low_bits_eq_false {b : Nat → Bool} (h17 : ∀ k < 5, b (17 + k) = false) (h22 : ∀ k < 5, b (22 + k) = b k)
    (h10 : ∀ k < 3, b (10 + k) = b (2 + k)) (h13 : ∀ k < 14, b (13 + k) = (b (5 + k) ^^ b k)) : ∀ k < 17, b k = false := by
  have h9 (k : Nat) (hk : k < 5) : b (9 + k) = b (4 + k) := by
    have h := h13 (4 + k) (by omega)
    rw [← Nat.add_assoc, ← Nat.add_assoc, h17 k hk] at h
    simpa using h.symm
  have h14 (k : Nat) (hk : k < 5) : b k = (b (14 + k) ^^ b (4 + k)) := by
    have h := h13 (9 + k) (by omega)
    rwa [← Nat.add_assoc, ← Nat.add_assoc, h22 k hk, h9 k hk] at h
  have e7 : b 7 = b 4 := (h9 3 (by decide)).symm.trans (h10 2 (by decide))
  have e3 : b 3 = b 4 := by simpa [h17 0, e7] using h14 3 (by decide)
  have e8 : b 8 = b 4 := by simpa [h17 1] using (h14 4 (by decide)).symm
  have e6 : b 6 = b 4 := ((h9 2 (by decide)).symm.trans (h10 1 (by decide))).trans e3
  have e16 : b 16 = false := by simpa [e8, e3] using h13 3 (by decide)
  have e2 : b 2 = b 4 := by simpa [e16, e6] using h14 2 (by decide)
  have e5 : b 5 = b 4 := ((h9 1 (by decide)).symm.trans (h10 0 (by decide))).trans e2
  have e15 : b 15 = false := by simpa [e7, e2] using h13 2 (by decide)
  have e1 : b 1 = b 4 := by simpa [e15, e5] using h14 1 (by decide)
  have e14 : b 14 = false := by simpa [e6, e1] using h13 1 (by decide)
  have e0 : b 0 = b 4 := by simpa [e14] using h14 0 (by decide)
  have e13 : b 13 = false := by simpa [e5, e0] using h13 0 (by decide)
  have e4 : b 4 = false := e8.symm.trans ((h9 4 (by decide)).symm.trans e13)
  have low (k : Nat) (hk : k < 9) : b k = false := by interval_cases k <;> simp only [*]
  intro k hk
  by_cases hk9 : k < 9
  · exact low k hk9
  by_cases hk13 : k < 13
  · obtain ⟨j, rfl⟩ := Nat.exists_eq_add_of_le (Nat.le_of_not_lt hk9)
    exact (h9 j (by omega)).trans (low _ (by omega))
  · obtain ⟨j, rfl⟩ := Nat.exists_eq_add_of_le (Nat.le_of_not_lt hk13)
    rw [h13 j (by omega), low _ (by omega), low j (by omega), Bool.xor_false]

section ShiftRelation

variable {z : Word} (h : z >>> 17 = z <<< 5 ^^^ z <<< 13 ^^^ z <<< 18)
include h

theorem getLsbD_of_shift_relation {i : Nat} (hi : i < 32) :
    z.getLsbD (17 + i) = (((!decide (i < 5) && z.getLsbD (i - 5)) ^^ (!decide (i < 13) && z.getLsbD (i - 13))) ^^
      (!decide (i < 18) && z.getLsbD (i - 18))) := by
  rw [← BitVec.getLsbD_ushiftRight, h]
  simp only [BitVec.getLsbD_xor, BitVec.getLsbD_shiftLeft, hi, decide_true, Bool.true_and]

theorem low_bits_of_shift_relation : ∀ k < 17, z.getLsbD k = false := by
  apply low_bits_eq_false
  case h17 =>
    intro k hk
    have hbit := getLsbD_of_shift_relation h (i := k) (by omega)
    interval_cases k <;> simpa using hbit
  case h22 =>
    intro k hk
    have hbit := getLsbD_of_shift_relation h (i := 5 + k) (by omega)
    interval_cases k <;> simpa using hbit
  case h10 =>
    intro k hk
    have hbit := getLsbD_of_shift_relation h (i := 15 + k) (by omega)
    interval_cases k <;> simpa using hbit
  case h13 =>
    intro k hk
    have hbit := getLsbD_of_shift_relation h (i := 18 + k) (by omega)
    interval_cases k <;> simpa using hbit

theorem eq_zero_of_shift_relation : z = 0x00000000#32 := by
  have all (i : Nat) : i < 32 → z.getLsbD i = false := by
    induction i using Nat.strong_induction_on with
    | _ i ih =>
      intro hi
      by_cases hi17 : i < 17
      · exact low_bits_of_shift_relation h i hi17
      · obtain ⟨j, rfl⟩ := Nat.exists_eq_add_of_le (Nat.le_of_not_lt hi17)
        rw [getLsbD_of_shift_relation h (by omega), ih (j - 5) (by omega) (by omega), ih (j - 13) (by omega) (by omega),
          ih (j - 18) (by omega) (by omega)]
        simp only [Bool.and_false, Bool.xor_false]
  exact BitVec.eq_of_getLsbD_eq fun i hi => (all i hi).trans BitVec.getLsbD_zero.symm

end ShiftRelation

/-- A fixed point `x` in terms of the word `z` between the second and the third shift. -/
theorem shift_relation_of_fixed {x : Word} (h : drawNext x = x) :
    ∃ z : Word, x = z ^^^ z <<< 5 ∧ z >>> 17 = z <<< 5 ^^^ z <<< 13 ^^^ z <<< 18 := by
  obtain ⟨y, hy⟩ : ∃ y, y = x ^^^ x <<< 13 := ⟨_, rfl⟩
  obtain ⟨z, hz⟩ : ∃ z, z = y ^^^ y >>> 17 := ⟨_, rfl⟩
  have hx : x = z ^^^ z <<< 5 := by
    rw [hz, hy]
    exact h.symm
  have hyy : y >>> 17 >>> 17 = 0#32 := by
    rw [← BitVec.shiftRight_add]
    exact BitVec.ushiftRight_eq_zero (by decide)
  have hback : y = z ^^^ z >>> 17 := by
    rw [hz, BitVec.ushiftRight_xor_distrib, hyy, BitVec.xor_zero, BitVec.xor_assoc, BitVec.xor_self, BitVec.xor_zero]
  have hz18 : z <<< 5 <<< 13 = z <<< 18 := (BitVec.shiftLeft_add z 5 13).symm
  refine ⟨z, hx, (BitVec.xor_right_inj z).1 ?_⟩
  rw [← hback, hy, hx, BitVec.shiftLeft_xor_distrib, hz18]
  simp only [BitVec.xor_assoc]

/-- The generator's one fixed point is 0 (10_state.md R33). -/
theorem drawNext_eq_self_iff (x : Word) : drawNext x = x ↔ x = 0x00000000#32 := by
  constructor
  · intro h
    obtain ⟨z, hx, hz⟩ := shift_relation_of_fixed h
    rw [hx, eq_zero_of_shift_relation hz]
    decide
  · rintro rfl
    exact drawNext_zero

/-! ## What a command does to DITHER_STATE (41_quantizer.md R145) -/

/-- QUANT draws once for a value that is not NaN while DITHER_EN = 1, and not at all otherwise. -/
theorem quantize_seed (a : ActiveConfig) (en : Bool) (seed x f : Word) :
    (quantize a en seed x f).seed = drawNext^[if en then (!isNaN x).toNat else 0] seed := by
  cases hx : isNaN x with
  | true =>
    rw [quantize_nan _ _ _ _ _ hx]
    cases en <;> rfl
  | false =>
    cases en with
    | true => rw [quantize_dithered _ _ _ _ hx]; rfl
    | false => rw [quantize_plain _ _ _ _ hx]; rfl

@[simp] theorem latch_dither (s : State) (ch : Channel) (a : ActiveConfig) : (latch s ch a).dither = s.dither :=
  setChan_dither _ _ _

theorem drawCount_le_two (s : State) (i : Instr) : drawCount s i ≤ 2 := by
  have hone (b : Bool) : b.toNat ≤ 1 := Bool.toNat_le b
  cases i with
  | enc ch src j =>
    have := hone (!isNaN (s.inp.get src))
    simp only [drawCount]
    split <;> omega
  | encv =>
    have := hone (!isNaN s.inp.q0)
    have := hone (!isNaN s.inp.q1)
    simp only [drawCount]
    split <;> omega
  | encw =>
    have := hone (!isNaN (s.inp.wmin s.chanW.active.npol))
    simp only [drawCount]
    split <;> omega
  | _ => exact Nat.zero_le 2

/-- A command that completes leaves DITHER_STATE as many draws on as it makes. -/
theorem staged_dither {i : Instr} {s t : State} (h : staged i s = .ok t) : t.dither = drawNext^[drawCount s i] s.dither := by
  cases i with
  | nop => cases h; rfl
  | config ch =>
    obtain ⟨a, _, rfl⟩ := (stageConfig_eq_ok _ _ _).1 h
    exact latch_dither _ _ _
  | enc ch src j =>
    obtain ⟨_, _, q, rfl, rfl⟩ := (stageEnc_eq_ok _ _ _ _ _).1 h
    rw [setCode_dither]
    exact quantize_seed _ _ _ _ _
  | dec ch dst j =>
    obtain ⟨_, _, v, _, rfl⟩ := (stageDec_eq_ok _ _ _ _ _).1 h
    rfl
  | pack j w =>
    obtain ⟨_, _, rfl⟩ := (stagePack_eq_ok _ _ _ _).1 h
    rfl
  | unpack j w =>
    obtain ⟨_, rfl⟩ := (stageUnpack_eq_ok _ _ _ _).1 h
    rw [advanceRptr_dither, setCode_dither]
    rfl
  | encv =>
    obtain ⟨_, _, _, q0, q1, rfl, rfl, rfl⟩ := (stageEncv_eq_ok _ _).1 h
    rw [packBits_dither, packBits_dither, quantize_seed, quantize_seed, ← Function.iterate_add_apply]
    unfold drawCount
    cases s.ditherEn with
    | true => rw [if_pos rfl, if_pos rfl, if_pos rfl, Nat.add_comm]
    | false => rfl
  | decv =>
    obtain ⟨_, _, c0, c1, v0, v1, _, _, _, _, rfl⟩ := (stageDecv_eq_ok _ _).1 h
    rfl
  | encw =>
    obtain ⟨_, _, _, q, rfl, rfl⟩ := (stageEncw_eq_ok _ _).1 h
    rw [packBits_dither]
    exact quantize_seed _ _ _ _ _
  | decw =>
    obtain ⟨_, _, c, v, _, _, rfl⟩ := (stageDecw_eq_ok _ _).1 h
    rfl
  | cdf ch src =>
    obtain ⟨_, _, rfl⟩ := (stageCdf_eq_ok _ _ _ _).1 h
    rfl
  | level ch dst =>
    obtain ⟨_, rfl⟩ := (stageLevel_eq_ok _ _ _ _).1 h
    rfl
  | rstptr pw pr => cases h; rfl

/-- Every command changes DITHER_STATE by draws only: those it makes where it completes, none where it raises an error. -/
theorem exec_dither {i : Instr} {s t : State} (h : exec i s = .next t) : ∃ n, n ≤ 2 ∧ t.dither = drawNext^[n] s.dither := by
  rcases (exec_eq_next i s t).1 h with hok | ⟨e, _, rfl⟩
  · exact ⟨drawCount s i, drawCount_le_two s i, staged_dither hok⟩
  · exact ⟨0, by decide, rfl⟩

/-! ## What a step does to DITHER_STATE (10_state.md R33) -/

/-- Everything a CMD write can do (60_exceptions.md R195, 30_encoding.md R83). -/
theorem commandWrite_cases {c : Word} {s t : State} (h : commandWrite c s = .next t) :
    (s.err = true ∧ t = s) ∨ (s.err = false ∧ ∃ i, decode c = .ok i ∧ exec i s = .next t) ∨
      (s.err = false ∧ (∃ e, decode c = .error e) ∧ t = s.errorEntry ⟨.illegalCmd, c⟩ c) := by
  unfold commandWrite at h
  cases he : s.err with
  | true =>
    rw [he, if_pos rfl] at h
    cases h
    exact .inl ⟨rfl, rfl⟩
  | false =>
    rw [he, if_neg Bool.false_ne_true] at h
    cases hd : decode c with
    | ok i =>
      rw [hd] at h
      exact .inr (.inl ⟨rfl, i, rfl, h⟩)
    | error e =>
      rw [hd] at h
      cases h
      exact .inr (.inr ⟨rfl, ⟨e, rfl⟩, rfl⟩)

theorem commandWrite_dither_ne_zero {c : Word} {s t : State} (h : commandWrite c s = .next t)
    (h0 : s.dither ≠ 0x00000000#32) : t.dither ≠ 0x00000000#32 := by
  rcases commandWrite_cases h with ⟨_, rfl⟩ | ⟨_, i, _, hexec⟩ | ⟨_, _, rfl⟩
  · exact h0
  · obtain ⟨n, _, hn⟩ := exec_dither hexec
    rw [hn]
    exact iterate_drawNext_ne_zero h0 n
  · exact h0

theorem writeReg_dither (s : State) (v : Word) (r : HostReg) : (s.writeReg v r).dither =
    if r = .ditherState then if v = 0x00000000#32 then 0x00000001#32 else v else s.dither := by
  cases r with
  | status =>
    change (s.writeStatus v).dither = s.dither
    unfold State.writeStatus
    split <;> rfl
  | code j => exact setCode_dither s j v
  | _ => rfl

theorem writeTarget_dither_ne_zero {s : State} (v : Word) (tgt : Target) (h0 : s.dither ≠ 0x00000000#32) :
    (s.writeTarget v tgt).dither ≠ 0x00000000#32 := by
  cases tgt with
  | reg r =>
    change (s.writeReg v r).dither ≠ 0x00000000#32
    rw [writeReg_dither]
    split_ifs with hr hv
    · decide
    · exact hv
    · exact h0
  | pbuf k => exact h0
  | table ch i => exact h0
  | unmapped => exact h0

/-- DITHER_STATE never becomes 0. -/
theorem step_dither_ne_zero {s t : State} (h0 : s.dither ≠ 0x00000000#32) (h : step s = .next t) :
    t.dither ≠ 0x00000000#32 := by
  rcases step_cases s with ⟨_, hs⟩ | ⟨_, _, hs⟩ | ⟨_, _, _, hs⟩ | ⟨_, _, v, _, _, hs⟩ | ⟨_, _, _, hs⟩ | ⟨_, _, hs⟩ <;>
    rw [hs] at h
  case inr.inr.inr.inl => cases h; exact writeTarget_dither_ne_zero v _ h0
  case inr.inr.inr.inr.inl => exact commandWrite_dither_ne_zero h h0
  case inr.inr.inr.inr.inr => cases h; exact (by decide : (0x00000001#32 : Word) ≠ 0x00000000#32)
  all_goals cases h; exact h0

/-! ## The interrupt line (10_state.md R50) -/

theorem statusWord_getLsbD_zero (s : State) : s.statusWord.getLsbD 0 = s.err := by
  have hparity : (s.err.toNat + 2 * s.chanV.cfgok.toNat + 4 * s.chanW.cfgok.toNat) % 2 = s.err.toNat % 2 := by omega
  rw [State.statusWord, BitVec.getLsbD_ofNat, Nat.testBit_zero, hparity]
  cases s.err <;> rfl

/-! ## The obligations -/

/-- Settles O16: STATUS holds ERR in bit 0, and CTRL.ERR_IE is bit 1 of CTRL. -/
theorem irqIsErrAndErrIe : Obligations.IrqIsErrAndErrIe := by
  refine ⟨fun s => ?_, rfl⟩
  change (s.err && s.ctrl.getLsbD 1) = (s.statusWord.getLsbD 0 && s.ctrl.getLsbD 1)
  rw [statusWord_getLsbD_zero]

/-- Settles O14: a draw is injective and fixes 0, so it never gives 0 from another state, and commands only draw. -/
theorem ditherStateRegister : Obligations.DitherStateRegister := by
  refine ⟨fun s v rest h => ?_, fun s rest h => ?_, rfl, fun s t => step_dither_ne_zero, fun i s t => exec_dither,
    drawNext_eq_self_iff⟩
  · have htgt : targetOf s.pbufBytes 0x00038#20 = .reg .ditherState := targetOf_regAddr _ .ditherState
    rw [step_write h (misaligned_regAddr .ditherState) (by decide), htgt]
    rfl
  · have htgt : targetOf s.pbufBytes 0x00038#20 = .reg .ditherState := targetOf_regAddr _ .ditherState
    rw [step_read h (misaligned_regAddr .ditherState), htgt]
    rfl

end Sys2Proof.Machine

/-! SUPPORT. Host accesses by what their address names, and the bytes of a PBUF window word (20_memory.md R61 to R65). -/

namespace Sys2Proof.Machine

/-! ## An aligned access, by the target of its address -/

theorem misaligned_ofNat_add_mul_four {base : Nat} (hb : base % 4 = 0) (k : Nat) :
    misaligned (BitVec.ofNat 20 (base + 4 * k)) = false := by
  rw [misaligned_eq_false, BitVec.toNat_ofNat]
  omega

section AlignedAccess

variable {s : State} {addr : BusAddr} {v : Word} {rest : List HostAccess} {tgt : Target}

theorem step_read_target (h : s.accesses = .read addr :: rest) (ha : misaligned addr = false)
    (ht : targetOf s.pbufBytes addr = tgt) :
    step s = .next { s with accesses := rest, answer := .data (s.readTarget tgt) } := by
  rw [step_read h ha, ht]

theorem step_write_target (h : s.accesses = .write addr v :: rest) (ha : misaligned addr = false)
    (ht : targetOf s.pbufBytes addr = tgt) (hc : tgt ≠ .reg .cmd) :
    step s = .next ({ s with accesses := rest, answer := .done }.writeTarget v tgt) := by
  have hcmd : addr ≠ cmdAddr := fun he => hc (ht.symm.trans ((targetOf_eq_cmd _ _).2 he))
  rw [step_write h ha hcmd, ht]

/-- An address that names nothing is RAZ/WI (20_memory.md R62, R64). -/
theorem step_unmapped (ha : misaligned addr = false) (ht : targetOf s.pbufBytes addr = .unmapped) :
    (s.accesses = .read addr :: rest → step s = .next { s with accesses := rest, answer := .data 0x00000000#32 }) ∧
    (s.accesses = .write addr v :: rest → step s = .next { s with accesses := rest, answer := .done }) :=
  ⟨fun h => step_read_target h ha ht, fun h => step_write_target h ha ht Target.noConfusion⟩

/-- A table entry is read only (20_memory.md R63). -/
theorem step_table {ch : Channel} {i : Nat} (ha : misaligned addr = false)
    (ht : targetOf s.pbufBytes addr = .table ch i) :
    (s.accesses = .read addr :: rest → step s = .next { s with accesses := rest, answer := .data (s.tabEntry ch i) }) ∧
    (s.accesses = .write addr v :: rest → step s = .next { s with accesses := rest, answer := .done }) :=
  ⟨fun h => step_read_target h ha ht, fun h => step_write_target h ha ht Target.noConfusion⟩

end AlignedAccess

/-! ## The bytes of a window word (20_memory.md R62) -/

/-- Byte `m` of the word that a window read answers: bit `i` of it is stream bit `32k + 8m + i`. -/
theorem extractLsb'_pbufWord (s : State) (k : Nat) {m : Nat} (hm : m < 4) :
    (s.pbufWord k).extractLsb' (8 * m) 8 = s.pbufByte (4 * k + m) := by
  refine BitVec.eq_of_getLsbD_eq fun i hi => ?_
  have hbyte : (32 * k + (8 * m + i)) / 8 = 4 * k + m := by omega
  have hbit : (32 * k + (8 * m + i)) % 8 = i := by omega
  rw [BitVec.getLsbD_extractLsb', getLsbD_pbufWord s k _ (by omega), State.pbufBit, hbyte, hbit, decide_eq_true hi,
    Bool.true_and]

theorem pbufByte_setPbufWord_same (s : State) (k : Nat) (v : Word) {m : Nat} (hm : m < 4) :
    (s.setPbufWord k v).pbufByte (4 * k + m) = v.extractLsb' (8 * m) 8 := by
  rw [pbufByte_setPbufWord, if_pos (by omega), Nat.add_sub_cancel_left, byteOfWord]

theorem pbufByte_setPbufWord_other (s : State) {k j : Nat} (v : Word) (hj : j < 4 * k ∨ 4 * k + 4 ≤ j) :
    (s.setPbufWord k v).pbufByte j = s.pbufByte j := by
  rw [pbufByte_setPbufWord, if_neg (by omega)]

/-! ## The obligations -/

/-- Settles O11: below PBUF_BYTES / 4 the address names window word `k`, whose bytes the lemmas above give; from there on
it names nothing. -/
theorem pbufWindowIsLittleEndian : Obligations.PbufWindowIsLittleEndian := by
  intro s k v rest _ hk
  have ha : misaligned (BitVec.ofNat 20 (0x10000 + 4 * k)) = false := misaligned_ofNat_add_mul_four (by decide) k
  have htgt := targetOf_pbufAddr s.pbufBytes k hk
  refine ⟨fun hin => ?_, fun hout => step_unmapped ha (by rw [htgt, if_neg (by omega)])⟩
  rw [if_pos hin] at htgt
  constructor
  · intro h
    exact ⟨s.pbufWord k, step_read_target h ha htgt, fun m hm => extractLsb'_pbufWord s k hm⟩
  · intro h
    refine ⟨{ s with accesses := rest, answer := .done }.setPbufWord k v,
      step_write_target h ha htgt Target.noConfusion, rfl, ?_, ?_⟩
    · intro m hm
      exact pbufByte_setPbufWord_same _ k v hm
    · intro j hj
      exact pbufByte_setPbufWord_other _ v hj

/-- Settles O8: the model tests the low two address bits before the address map is looked up. -/
theorem misalignedAccessIsBusFault : Obligations.MisalignedAccessIsBusFault := by
  refine ⟨fun s addr rest h ha => ?_, fun s addr v rest h ha => ?_, fun addr => rfl⟩
  · exact step_misaligned_read h ((misaligned_eq_true addr).2 ha)
  · exact step_misaligned_write h ((misaligned_eq_true addr).2 ha)

/-- Settles O10: each of the three ranges names nothing. -/
theorem unmappedIsZeroAndIgnored : Obligations.UnmappedIsZeroAndIgnored := by
  intro s addr v rest halign hrange
  exact step_unmapped ((misaligned_eq_false addr).2 halign) (targetOf_unmapped s.pbufBytes addr hrange)

/-- Settles O12: entry `i` of each window names entry `i` of the channel's table. -/
theorem tableWindowsAreReadOnly : Obligations.TableWindowsAreReadOnly := by
  intro s i v rest hi
  obtain ⟨readV, writeV⟩ := step_table (v := v) (rest := rest) (misaligned_ofNat_add_mul_four (by decide) i)
    (targetOf_vtabAddr s.pbufBytes i hi)
  obtain ⟨readW, writeW⟩ := step_table (v := v) (rest := rest) (misaligned_ofNat_add_mul_four (by decide) i)
    (targetOf_wtabAddr s.pbufBytes i hi)
  exact ⟨readV, readW, fun h => h.elim writeV writeW⟩

end Sys2Proof.Machine

/-! SUPPORT. Illegal words, and what a CMD write of one does (30_encoding.md R83, R84). -/

namespace Sys2Proof.Machine

/-! ## When no command has a word -/

/-- The two kinds of illegal word of 30_encoding.md R84: an opcode above 0x0C, and a word that fails the mask of its
opcode's row. -/
def IllegalWord (c : Word) : Prop :=
  0x0D ≤ c.toNat % 256 ∨ ∃ r ∈ opcodeRows, c.toNat % 256 = r.1 ∧ c &&& r.2 ≠ BitVec.ofNat 32 r.1

theorem rowMask_eq_none (op : Nat) : rowMask op = none ↔ 0x0D ≤ op := by
  constructor
  · intro hnone
    by_contra hlt
    interval_cases op <;> cases hnone
  · intro hop
    obtain ⟨k, rfl⟩ := Nat.exists_eq_add_of_le' hop
    rfl

/-- A word that fails its own row's mask. -/
theorem illegalWord_of_rowMask {c m : Word} (hm : rowMask (c.toNat % 256) = some m)
    (hfails : c &&& m ≠ BitVec.ofNat 32 (c.toNat % 256)) : IllegalWord c :=
  .inr ⟨(c.toNat % 256, m), (mem_opcodeRows _ _).2 hm, rfl, hfails⟩

theorem exists_decode_error_iff (c : Word) : (∃ e, decode c = .error e) ↔ IllegalWord c := by
  rw [decode_eq_error, opField_eq]
  constructor
  · intro hfails
    cases hm : rowMask (c.toNat % 256) with
    | none => exact .inl ((rowMask_eq_none _).1 hm)
    | some m => exact illegalWord_of_rowMask hm (hfails m hm)
  · rintro (hop | ⟨⟨op, m⟩, hr, rfl, hfails⟩) m' hm'
    · rw [(rowMask_eq_none _).2 hop] at hm'
      cases hm'
    · have hm : rowMask (c.toNat % 256) = some m := (mem_opcodeRows _ _).1 hr
      obtain rfl : m = m' := Option.some.inj (hm.symm.trans hm')
      exact hfails

theorem IllegalWord.decode_ne_ok {c : Word} (h : IllegalWord c) (i : Instr) : decode c ≠ .ok i := by
  obtain ⟨e, he⟩ := (exists_decode_error_iff c).2 h
  rw [he]
  nofun

/-! ## When a row's command has a word -/

/-- A word decodes to a command of a row exactly when it matches the row (30_encoding.md R82). -/
theorem exists_decode_ok_iff (c : Word) {op : Nat} {m : Word} (hm : rowMask op = some m) :
    (∃ i, decode c = .ok i ∧ opcodeOf i = op) ↔ c &&& m = BitVec.ofNat 32 op := by
  constructor
  · rintro ⟨i, hdec, rfl⟩
    obtain ⟨m', hm', hi, hmatch⟩ := (decode_eq_ok c i).1 hdec
    rw [opcodeOf_instrOf hi] at hm ⊢
    obtain rfl : m' = m := Option.some.inj (hm'.symm.trans hm)
    exact hmatch
  · intro hmatch
    obtain rfl := opField_of_row hm hmatch
    obtain ⟨i, hi⟩ : ∃ i, instrOf c (opField c) = some i := by
      rw [← Option.isSome_iff_exists, isSome_instrOf, hm]
      rfl
    exact ⟨i, (decode_eq_ok c i).2 ⟨m, hm, hi, hmatch⟩, opcodeOf_instrOf hi⟩

/-! ## A CMD write of an illegal word -/

theorem commandWrite_illegal {s : State} {c : Word} (hc : IllegalWord c) (he : s.err = false) :
    commandWrite c s = .next (s.errorEntry ⟨.illegalCmd, c⟩ c) := by
  obtain ⟨e, hdec⟩ := (exists_decode_error_iff c).2 hc
  rw [commandWrite, he, hdec]
  rfl

/-! ## The obligations -/

/-- Settles O3: the rows written out are the decoder's rows, and the decoder accepts a word by its own row. -/
theorem decodeFollowsOpcodeMap : Obligations.DecodeFollowsOpcodeMap := by
  rintro c ⟨op, m⟩ hr
  exact exists_decode_ok_iff c ((mem_opcodeRows op m).1 hr)

/-- Settles O4: no row matches an illegal word, so the CMD write takes the error entry; RSTPTR without a pointer resets
nothing. -/
theorem illegalWordsRaiseIllegalCmd : Obligations.IllegalWordsRaiseIllegalCmd := by
  refine ⟨fun s c rest h he hc => ?_, by decide, fun s => rfl⟩
  rw [step_command h, commandWrite_illegal (s := { s with accesses := rest, answer := .done }) hc he]
  rfl

/-- Settles O5: of the five illegal words the first has an unknown opcode, and the others have a bit set outside the
fields of ENCV, ENC, ENC and NOP. -/
theorem specWordsDecode : Obligations.SpecWordsDecode := by
  refine ⟨by decide, ?_⟩
  have hunknown : IllegalWord 0x0000000D#32 := .inl (by decide)
  have hencv : IllegalWord 0x00000106#32 := illegalWord_of_rowMask rfl (by decide)
  have henc14 : IllegalWord 0x00004002#32 := illegalWord_of_rowMask rfl (by decide)
  have henc16 : IllegalWord 0x00010002#32 := illegalWord_of_rowMask rfl (by decide)
  have hnop : IllegalWord 0x80000000#32 := illegalWord_of_rowMask rfl (by decide)
  simp only [List.forall_mem_cons, List.not_mem_nil, IsEmpty.forall_iff, implies_true, and_true]
  exact ⟨hunknown.decode_ne_ok, hencv.decode_ne_ok, henc14.decode_ne_ok, henc16.decode_ne_ok, hnop.decode_ne_ok⟩

end Sys2Proof.Machine

/-! SUPPORT. The exact Uniform functions (40_distribution.md R104, R105) and the laws of a built table (R112). -/

namespace Sys2Proof.Machine

/-! ## INVT of Uniform (40_distribution.md R105) -/

/-- An integer of at most 24 bits in units of a power of two is a binary32 value, and rounding leaves it alone. -/
theorem withSign_roundMag_exact (num : Int) {k : Nat} (hnum : num.natAbs < 2 ^ 24) (hk : k ≤ 253) :
    isFinite (withSign (decide (num < 0)) (roundMag (num.natAbs * 2 ^ k) 1)) = true ∧
      realValue (withSign (decide (num < 0)) (roundMag (num.natAbs * 2 ^ k) 1)) = (num : ℚ) * 2 ^ k / 2 ^ 149 := by
  obtain ⟨m, hm, hinf, hval⟩ := roundMag_exact num.natAbs k hnum hk
  have hmag : m < 2 ^ 31 := hinf.trans (by decide)
  rw [hm]
  refine ⟨by rwa [isFinite_iff, magnitude_withSign _ _ hmag], ?_⟩
  rw [realValue_withSign _ _ hmag, hval]
  push_cast [Nat.cast_natAbs]
  by_cases hneg : num < 0
  · rw [if_pos (decide_eq_true hneg), abs_of_neg (Int.cast_lt_zero.2 hneg)]
    ring
  · rw [if_neg (by simpa using hneg), abs_of_nonneg (Int.cast_nonneg (not_lt.1 hneg))]

/-- The midpoint of bin `i` is an odd number below `2^b` of units `2^−b`, which binary32 holds for `b ≤ 16`. -/
theorem uniformInv_exact {b i : Nat} (hb : b ≤ 16) (hi : i < 2 ^ b) :
    isFinite (uniformInv b i) = true ∧ realValue (uniformInv b i) = (2 * (i : ℚ) + 1) / 2 ^ b - 1 := by
  have hpow := two_pow_le_of_le b hb
  have hnum : (2 * (i : Int) + 1 - 2 ^ b).natAbs < 2 ^ 24 := by
    have hcast : ((2 ^ b : Nat) : Int) = 2 ^ b := by push_cast; rfl
    omega
  obtain ⟨hfin, hval⟩ := withSign_roundMag_exact _ hnum (k := 149 - b) (by omega)
  refine ⟨hfin, ?_⟩
  have hunit : (2 : ℚ) ^ 149 = 2 ^ b * 2 ^ (149 - b) := by rw [← pow_add, Nat.add_sub_cancel' (by omega)]
  calc realValue (uniformInv b i) = ((2 * (i : Int) + 1 - 2 ^ b : Int) : ℚ) * 2 ^ (149 - b) / 2 ^ 149 := hval
    _ = (2 * (i : ℚ) + 1 - 2 ^ b) / 2 ^ b := by
      rw [hunit, mul_div_mul_right _ _ (by positivity)]
      push_cast
      rfl
    _ = (2 * (i : ℚ) + 1) / 2 ^ b - 1 := by rw [sub_div, div_self (by positivity)]

/-! ## CDFQ of Uniform (40_distribution.md R104) -/

@[simp] theorem le32_eq_true (a b : Word) : le32 a b = true ↔ realRank a ≤ realRank b := decide_eq_true_iff

@[simp] theorem realRank_one32 : realRank one32 = 0x3F800000 := by decide

@[simp] theorem realRank_minusOne : realRank 0xBF800000#32 = -0x3F800000 := by decide

theorem scaled_one32 : scaled one32 = 2 ^ 149 := by decide +kernel

theorem scaled_minusOne : scaled 0xBF800000#32 = -2 ^ 149 := by decide +kernel

/-- On finite patterns the pattern order is the order of the exact integers. -/
theorem scaled_lt_iff (v w : Word) : scaled v < scaled w ↔ realRank v < realRank w := by
  rw [← not_le, ← not_le (a := realRank w), ← realValue_le_iff, realValue, realValue,
    div_le_div_iff_of_pos_right (by positivity), Int.cast_le]

theorem natAbs_realRank (v : Word) : (realRank v).natAbs = magnitude v := by
  unfold realRank
  split <;> omega

theorem uniformCdf_of_le_minusOne {x : Word} (h : realRank x ≤ realRank 0xBF800000#32) :
    uniformCdf x = 0x00000000#32 := if_pos ((le32_eq_true _ _).2 h)

theorem uniformCdf_of_one_le {x : Word} (h : realRank one32 ≤ realRank x) : uniformCdf x = 0xFFFFFFFF#32 := by
  have hlow : ¬le32 x 0xBF800000#32 = true := by
    rw [le32_eq_true, realRank_minusOne]
    rw [realRank_one32] at h
    omega
  rw [uniformCdf, if_neg hlow, if_pos ((le32_eq_true _ _).2 h)]

/-- Between −1 and 1 the code is a quotient of exact integers, and it fits in the word. -/
theorem uniformCdf_between {x : Word} (hlow : realRank 0xBF800000#32 < realRank x) (hhigh : realRank x < realRank one32) :
    ((uniformCdf x).toNat : Int) = (scaled x + 2 ^ 149) / 2 ^ 118 := by
  have hlow' : -2 ^ 149 < scaled x := scaled_minusOne ▸ (scaled_lt_iff _ _).2 hlow
  have hhigh' : scaled x < 2 ^ 149 := scaled_one32 ▸ (scaled_lt_iff _ _).2 hhigh
  have hword : (scaled x + 2 ^ 149).toNat / 2 ^ 118 < 2 ^ 32 := by
    rw [Nat.div_lt_iff_lt_mul (by positivity)]
    omega
  rw [uniformCdf, if_neg (by simpa using hlow), if_neg (by simpa using hhigh), BitVec.toNat_ofNat,
    Nat.mod_eq_of_lt hword]
  omega

/-- `(x + 1) / 2 × 2^32` in units of `2^−149`. -/
theorem floor_uniform_code (x : Word) :
    ⌊(realValue x + 1) / 2 * 2 ^ 32⌋ = (scaled x + 2 ^ 149) / 2 ^ 118 := by
  have hquot : (realValue x + 1) / 2 * 2 ^ 32 = ((scaled x + 2 ^ 149 : Int) : ℚ) / ((2 ^ 118 : Nat) : ℚ) := by
    unfold realValue
    push_cast
    ring
  rw [hquot, Rat.floor_intCast_div_natCast]
  push_cast
  rfl

/-! ## The tables of every kind (40_distribution.md R112) -/

section Entries

variable {k : DistKind} {p : Word} {b i : Nat}

theorem isFinite_invt (hp : paramOk k p = true) (hb2 : 2 ≤ b) (hb16 : b ≤ 16) (hi : i < 2 ^ b) :
    isFinite (invt k p b i) = true := by
  by_cases hk : k = .uniform
  · subst hk
    exact (uniformInv_exact hb16 hi).1
  · rw [invt_open hk]
    exact (dist_lawful hk hp).entriesFinite b i hb2 hb16 hi

theorem realValue_uniformInv_succ_sub (hb16 : b ≤ 16) (hi : i + 1 < 2 ^ b) :
    realValue (uniformInv b (i + 1)) - realValue (uniformInv b i) = 2 / 2 ^ b := by
  rw [(uniformInv_exact hb16 hi).2, (uniformInv_exact hb16 (by omega)).2]
  push_cast
  ring

theorem realRank_invt_le_succ (hp : paramOk k p = true) (hb2 : 2 ≤ b) (hb16 : b ≤ 16) (hi : i + 1 < 2 ^ b) :
    realRank (invt k p b i) ≤ realRank (invt k p b (i + 1)) := by
  by_cases hk : k = .uniform
  · subst hk
    rw [invt_uniform, invt_uniform, ← realValue_le_iff, ← sub_nonneg, realValue_uniformInv_succ_sub hb16 hi]
    positivity
  · rw [invt_open hk, invt_open hk]
    exact (dist_lawful hk hp).entriesSorted b i hb2 hb16 hi

/-- The midpoints of the bins `i` from the bottom and `i` from the top are opposite. -/
theorem realValue_uniformInv_mirror (hb16 : b ≤ 16) (hi : i < 2 ^ b) :
    realValue (uniformInv b (2 ^ b - 1 - i)) = -realValue (uniformInv b i) := by
  have hmirror : ((2 ^ b - 1 - i : Nat) : ℚ) = 2 ^ b - 1 - i := by
    rw [Nat.sub_sub, Nat.cast_sub (by omega)]
    push_cast
    ring
  rw [(uniformInv_exact hb16 hi).2, (uniformInv_exact hb16 (by omega)).2, hmirror]
  field_simp
  ring

end Entries

/-! ## The obligations -/

/-- Settles O52: the midpoint is exact, whatever the parameter. -/
theorem uniformTableIsExact : Obligations.UniformTableIsExact := fun _ _ _ _ hb16 hi => uniformInv_exact hb16 hi

/-- Settles O51: the three ranges are the branches of the definition; a value between −1 and 1 is finite, its magnitude
being below that of 1. -/
theorem uniformCdfIsExact : Obligations.UniformCdfIsExact := by
  intro p x _
  refine ⟨uniformCdf_of_le_minusOne, uniformCdf_of_one_le, fun hlow hhigh => ⟨?_, ?_⟩⟩
  · change realRank x < realRank one32 at hhigh
    rw [realRank_minusOne] at hlow
    rw [realRank_one32] at hhigh
    rw [isFinite_iff, ← natAbs_realRank, infMag]
    omega
  · rw [floor_uniform_code]
    exact uniformCdf_between hlow hhigh

/-- Settles O54: a ready channel holds the table built for a validated configuration, whose entries obey the laws of
INVT. -/
theorem tableLaws : Obligations.TableLaws := by
  intro s ch n hch hready hn
  obtain ⟨hb2, hb16, hparam, -, -, -⟩ := hch.active hready
  have hentry := tabEntry_of_table (hch.table hready)
  rw [← hn] at hentry
  have hin {i : Nat} (hi : i < n) : s.tabEntry ch i = _ := (hentry i).trans (if_pos hi)
  refine ⟨fun i hi => ?_, fun i hi => ?_, fun huniform => ⟨fun i hi => ?_, fun i hi => ?_⟩, fun i hi => ?_⟩
  · rw [hin hi, hin (by omega)]
    exact realRank_invt_le_succ hparam hb2 hb16 (hn ▸ hi)
  · rw [hin hi]
    exact isFinite_invt hparam hb2 hb16 (hn ▸ hi)
  · rw [hin hi, hin (by omega), huniform, hn]
    exact realValue_uniformInv_mirror hb16 (hn ▸ hi)
  · rw [hin hi, hin (by omega), huniform, hn]
    push_cast
    exact realValue_uniformInv_succ_sub hb16 (hn ▸ hi)
  · exact (hentry i).trans (if_neg (by omega))

end Sys2Proof.Machine

/-! SUPPORT. CONFIG: the tests of a request, and what an accepted and a rejected one leave (40_distribution.md R100 to
R102). -/

namespace Sys2Proof.Machine

/-! ## The fields of a request (10_state.md R29, R30) -/

theorem cfgBits_eq (cfg : Word) : cfgBits cfg = cfg.toNat % 32 := by
  rw [cfgBits, field_eq, Nat.pow_zero, Nat.div_one]
  rfl

theorem cfgDist_eq (cfg : Word) : cfgDist cfg = cfg.toNat / 256 % 8 := field_eq cfg 8 3

theorem cfgNpol_eq (cfg : Word) : cfgNpol cfg = cfg.toNat / 65536 % 8 := field_eq cfg 16 3

/-- The kind that a DIST of 0 to 3 names (40_distribution.md R108). -/
def kindNamed (d : Nat) : DistKind :=
  if d = 0 then .uniform else if d = 1 then .gaussian else if d = 2 then .truncatedGaussian else .studentsT

theorem kindOfNum_of_gt {d : Nat} (hd : 3 < d) : kindOfNum d = none := by
  obtain ⟨k, rfl⟩ := Nat.exists_eq_add_of_le' hd
  rfl

theorem kindOfNum_of_le {d : Nat} (hd : d ≤ 3) : kindOfNum d = some (kindNamed d) := by
  interval_cases d <;> rfl

theorem kindHasParam_kindNamed {d : Nat} (hd : d ≤ 3) : kindHasParam (kindNamed d) = true ↔ d = 2 ∨ d = 3 := by
  interval_cases d <;> decide

theorem positiveFinite_eq_false (p : Word) :
    positiveFinite p = false ↔ isNaN p = true ∨ isInf p = true ∨ isZero p = true ∨ neg p = true := by
  simp only [positiveFinite, Bool.and_eq_false_iff, Bool.not_eq_false', or_assoc]

theorem paramOk_kindNamed_eq_false {d : Nat} (hd : d ≤ 3) (p : Word) : paramOk (kindNamed d) p = false ↔
    (d = 2 ∨ d = 3) ∧ (isNaN p = true ∨ isInf p = true ∨ isZero p = true ∨ neg p = true) := by
  rw [paramOk, Bool.or_eq_false_iff, Bool.not_eq_false', kindHasParam_kindNamed hd, positiveFinite_eq_false]

/-! ## The tests in their order (40_distribution.md R101) -/

theorem validate_eq_ite {ch : Channel} {cfg : Word} {b d n : Nat} (p : Word) (hb : b = cfg.toNat % 32)
    (hd : d = cfg.toNat / 256 % 8) (hn : n = cfg.toNat / 65536 % 8) : validate ch cfg p =
      if b < 2 ∨ 16 < b then .error ⟨.cfgBits, BitVec.ofNat 32 b⟩
      else if 3 < d then .error ⟨.cfgDist, BitVec.ofNat 32 d⟩
      else if (d = 2 ∨ d = 3) ∧ (isNaN p = true ∨ isInf p = true ∨ isZero p = true ∨ neg p = true) then
        .error ⟨.cfgParam, p⟩
      else if ch = .w ∧ (n < 1 ∨ 4 < n) then .error ⟨.cfgNpol, BitVec.ofNat 32 n⟩
      else .ok { bits := b, dist := kindNamed d, param := p, npol := if ch = .w then n else 1 } := by
  rw [← cfgBits_eq] at hb
  rw [← cfgDist_eq] at hd
  rw [← cfgNpol_eq] at hn
  rw [validate, ← hb, ← hd]
  refine if_congr (by rw [Bool.or_eq_true, decide_eq_true_iff, decide_eq_true_iff]; rfl) rfl ?_
  by_cases hdist : 3 < d
  · rw [if_pos hdist, kindOfNum_of_gt hdist]
  · rw [if_neg hdist, kindOfNum_of_le (not_lt.1 hdist)]
    refine if_congr (by rw [Bool.not_eq_true', paramOk_kindNamed_eq_false (not_lt.1 hdist)]) rfl ?_
    cases ch with
    | v => rfl
    | w =>
      rw [requestedNpol, ← hn]
      exact if_congr (by simp only [Bool.or_eq_true, decide_eq_true_iff, true_and]; rfl) rfl rfl

/-! ## What CONFIG leaves (40_distribution.md R100, R102) -/

theorem exec_config_of_rejected {ch : Channel} {s : State} {c : Cause} {info : Word}
    (h : validate ch (s.chan ch).cfg (s.chan ch).param = .error ⟨c, info⟩) :
    exec (.config ch) s = .next (s.failed (.config ch) c info) :=
  complete_of_error (by rw [stageConfig, h])

theorem exec_config_of_accepted {ch : Channel} {s : State} {a : ActiveConfig}
    (h : validate ch (s.chan ch).cfg (s.chan ch).param = .ok a) : exec (.config ch) s = .next (latch s ch a) :=
  complete_of_ok ((stageConfig_eq_ok ch s _).2 ⟨a, h, rfl⟩)

theorem listFrom_eq_map_range' (f : Nat → Word) (i n : Nat) : listFrom f i n = (List.range' i n).map f := by
  induction n generalizing i with
  | zero => rfl
  | succ n ih => rw [listFrom, ih, List.range'_succ, List.map_cons]

theorem buildTable_eq_map_range (a : ActiveConfig) :
    buildTable a = (List.range (2 ^ a.bits)).map (invt a.dist a.param a.bits) := by
  rw [buildTable, listFrom_eq_map_range', List.range_eq_range']

/-! ## The obligation -/

/-- Settles O35: the model's tests are those of the rule in its order, and each outcome of the tests is an outcome of
CONFIG. -/
theorem configRejectsInOrder : Obligations.ConfigRejectsInOrder := by
  rintro s ch b d n p hb hd rfl hn
  have hv := validate_eq_ite (ch := ch) (s.chan ch).param hb hd hn
  by_cases hbits : b < 2 ∨ 16 < b
  · rw [if_pos hbits] at hv ⊢
    exact exec_config_of_rejected hv
  rw [if_neg hbits] at hv ⊢
  by_cases hdist : 3 < d
  · rw [if_pos hdist] at hv ⊢
    exact exec_config_of_rejected hv
  rw [if_neg hdist] at hv ⊢
  by_cases hparam : (d = 2 ∨ d = 3) ∧ (isNaN (s.chan ch).param = true ∨ isInf (s.chan ch).param = true ∨
      isZero (s.chan ch).param = true ∨ neg (s.chan ch).param = true)
  · rw [if_pos hparam] at hv ⊢
    exact exec_config_of_rejected hv
  rw [if_neg hparam] at hv ⊢
  by_cases hnpol : ch = .w ∧ (n < 1 ∨ 4 < n)
  · rw [if_pos hnpol] at hv ⊢
    exact exec_config_of_rejected hv
  rw [if_neg hnpol] at hv ⊢
  rw [exec_config_of_accepted hv, latch, buildTable_eq_map_range]
  rfl

end Sys2Proof.Machine

/-! SUPPORT. The dither of a draw (41_quantizer.md R132). -/

namespace Sys2Proof.Machine

/-- Among the words of `w` bits, those with one and the same quotient by `2^b` are `2^b` consecutive ones. -/
theorem card_filter_toNat_div {w b q : Nat} (hq : (q + 1) * 2 ^ b ≤ 2 ^ w) :
    (Finset.univ.filter fun r : BitVec w => r.toNat / 2 ^ b = q).card = 2 ^ b := by
  have hrange (n : Nat) : n / 2 ^ b = q ↔ q * 2 ^ b ≤ n ∧ n < (q + 1) * 2 ^ b := by
    rw [← Nat.le_div_iff_mul_le (by positivity), ← Nat.div_lt_iff_lt_mul (by positivity)]
    omega
  have himage : (Finset.univ.filter fun r : BitVec w => r.toNat / 2 ^ b = q).image BitVec.toNat =
      Finset.Ico (q * 2 ^ b) ((q + 1) * 2 ^ b) := by
    ext n
    simp only [Finset.mem_image, Finset.mem_filter, Finset.mem_univ, true_and, Finset.mem_Ico, ← hrange]
    constructor
    · rintro ⟨r, hr, rfl⟩
      exact hr
    · intro hn
      exact ⟨.ofNatLT n (((hrange n).1 hn).2.trans_le hq), hn, rfl⟩
  rw [← Finset.card_image_of_injective _ BitVec.toNat_injective, himage, Nat.card_Ico, ← Nat.sub_mul,
    Nat.add_sub_cancel_left, Nat.one_mul]

section Depth

variable {b : Nat} (hb : b ≤ 31)
include hb

/-- The `M = 2^(32−b)` dithers of `2^b` draws each make up all the words. -/
theorem dithers_mul_draws : 2 * 2 ^ (31 - b) * 2 ^ b = 2 ^ 32 := by
  rw [← pow_succ', ← pow_add]
  congr 1
  omega

/-- The dither lies between `−M/2` and `M/2 − 1`. -/
theorem ditherOf_bounds (r : Word) : -(2 ^ (31 - b) : Int) ≤ ditherOf b r ∧ ditherOf b r ≤ 2 ^ (31 - b) - 1 := by
  have hlt : r.toNat / 2 ^ b < 2 * 2 ^ (31 - b) := by
    rw [Nat.div_lt_iff_lt_mul (by positivity), dithers_mul_draws hb]
    exact r.isLt
  unfold ditherOf
  generalize r.toNat / 2 ^ b = q at hlt ⊢
  zify at hlt ⊢
  omega

/-- Half a bin width over `2^32` is half of `1 / 2^b`. -/
theorem half_bin_over_two_pow : (2 ^ (31 - b) : ℚ) / 2 ^ 32 = 1 / 2 / 2 ^ b := by
  have h : (2 * 2 ^ (31 - b) * 2 ^ b : ℚ) = 2 ^ 32 := mod_cast dithers_mul_draws hb
  rw [← h]
  field_simp

/-- DYSCO's interval for the dither. -/
theorem ditherOf_interval (r : Word) :
    -(1 / 2 / 2 ^ b : ℚ) ≤ (ditherOf b r : ℚ) / 2 ^ 32 ∧ (ditherOf b r : ℚ) / 2 ^ 32 < 1 / 2 / 2 ^ b := by
  obtain ⟨hlow, hhigh⟩ := ditherOf_bounds hb r
  rw [← half_bin_over_two_pow hb, ← neg_div, div_le_div_iff_of_pos_right (by positivity),
    div_lt_div_iff_of_pos_right (by positivity)]
  exact ⟨mod_cast hlow, mod_cast Int.lt_of_le_sub_one hhigh⟩

/-- Each dither is that of one block of `2^b` consecutive draws. -/
theorem card_filter_ditherOf {d : Int} (hlow : -(2 ^ (31 - b) : Int) ≤ d) (hhigh : d ≤ 2 ^ (31 - b) - 1) :
    (Finset.univ.filter fun r : Word => ditherOf b r = d).card = 2 ^ b := by
  obtain ⟨q, hq⟩ := Int.eq_ofNat_of_zero_le (a := d + (2 ^ (31 - b) : Nat)) (by push_cast; omega)
  have hblock : q + 1 ≤ 2 * 2 ^ (31 - b) := by
    zify at hq ⊢
    omega
  have hiff (r : Word) : ditherOf b r = d ↔ r.toNat / 2 ^ b = q := by
    unfold ditherOf
    omega
  simp only [hiff]
  exact card_filter_toNat_div ((Nat.mul_le_mul_right _ hblock).trans_eq (dithers_mul_draws hb))

end Depth

/-! ## The obligation -/

/-- Settles O45: a draw's dither is its block of `2^b` consecutive draws, counted from the middle. -/
theorem ditherIsUniform : Obligations.DitherIsUniform := by
  intro b _ hb16
  have hb : b ≤ 31 := by omega
  refine ⟨fun r => ?_, fun d => card_filter_ditherOf hb, ?_⟩
  · obtain ⟨hlow, hhigh⟩ := ditherOf_bounds hb r
    refine ⟨?_, hlow, hhigh, ditherOf_interval hb r⟩
    rw [ditherOf, BitVec.toNat_ushiftRight, Nat.shiftRight_eq_div_pow, Nat.cast_pow, Nat.cast_ofNat]
  · rintro a seed x f rfl hx
    exact ⟨quantize_plain a seed x f hx, quantize_dithered a seed x f hx⟩

end Sys2Proof.Machine

/-! SUPPORT. ENC, DEC, ENCV and DECV where they complete: the sentinel (41_quantizer.md R143) and the round trip of a table
entry without dither (R142). -/

namespace Sys2Proof.Machine

/-! ## A command that completes -/

theorem staged_ok_of_exec {i : Instr} {s t : State} (h : exec i s = .next t) (ht : t.err = false) : staged i s = .ok t := by
  rcases (exec_eq_next i s t).1 h with hok | ⟨e, _, rfl⟩
  · exact hok
  · cases ht

/-- ENC of a value that needs no factor or has a valid one (41_quantizer.md R137). -/
theorem exec_enc_of_quantize {s : State} {ch : Channel} {src : RegIdx} (j : CodeIdx) {q : Quantized}
    (hready : (s.chan ch).cfgok = true) (hf : isNaN (s.inp.get src) = false → validFactor (s.chan ch).factor = true)
    (hq : quantize (s.chan ch).active s.ditherEn s.dither (s.inp.get src) (s.chan ch).factor = q) :
    exec (.enc ch src j) s = .next ({ s with dither := q.seed }.setCode j (BitVec.ofNat 32 q.code)) :=
  complete_of_ok ((stageEnc_eq_ok _ _ _ _ _).2 ⟨hready, hf, q, hq.symm, rfl⟩)

/-- DEC of a code in range that DEQ gives a value (41_quantizer.md R138). -/
theorem exec_dec_of_dequantize {s : State} {ch : Channel} {c : Nat} {v : Word} (d : RegIdx) {j : CodeIdx}
    (hready : (s.chan ch).cfgok = true) (hc : (s.code j).toNat = c) (hle : c ≤ sentinel (s.chan ch).active)
    (hv : dequantize s ch c (s.chan ch).factor = .ok v) : exec (.dec ch d j) s = .next (s.setOut d v) := by
  subst hc
  exact complete_of_ok ((stageDec_eq_ok _ _ _ _ _).2 ⟨hready, hle, v, hv, rfl⟩)

/-! ## The sentinel (41_quantizer.md R143) -/

/-- QUANT gives the sentinel for NaN and for nothing else: the clamp stops one below it. -/
theorem quantize_code_eq_sentinel_iff {a : ActiveConfig} (hb : 2 ≤ a.bits) (en : Bool) (seed x f : Word) :
    (quantize a en seed x f).code = sentinel a ↔ isNaN x = true := by
  have hpow : 2 ^ 2 ≤ 2 ^ a.bits := Nat.pow_le_pow_right (by decide) hb
  have hclamp (p d : Int) : quantIndex a.bits p d ≠ sentinel a := by
    have := quantIndex_le a.bits p d (by omega)
    unfold sentinel
    omega
  cases hx : isNaN x with
  | true => simp [quantize_nan _ _ _ _ _ hx]
  | false =>
    cases en with
    | true => simpa [quantize_dithered _ _ _ _ hx] using hclamp _ _
    | false => simpa [quantize_plain _ _ _ _ hx] using hclamp _ _

/-- DEQ of the sentinel is QNAN, and tests no factor. -/
theorem dequantize_sentinel (s : State) (ch : Channel) (f : Word) :
    dequantize s ch (sentinel (s.chan ch).active) f = .ok qnan :=
  (dequantize_eq_ok _ _ _ _ _).2 (.inl ⟨rfl, rfl⟩)

/-- A code of at most 16 bits is its code word's number. -/
theorem toNat_ofNat_of_lt_two_pow {b c : Nat} (hb : b ≤ 16) (hc : c < 2 ^ b) : (BitVec.ofNat 32 c).toNat = c := by
  have := two_pow_le_of_le b hb
  rw [BitVec.toNat_ofNat, Nat.mod_eq_of_lt (by omega)]

theorem sentinel_lt (a : ActiveConfig) : sentinel a < 2 ^ a.bits := Nat.sub_lt (by positivity) (by decide)

/-- A code word is the sentinel's exactly when its code is the sentinel. -/
theorem ofNat_eq_sentinel_iff {a : ActiveConfig} (hb : a.bits ≤ 16) {c : Nat} (hc : c < 2 ^ a.bits) :
    BitVec.ofNat 32 c = BitVec.ofNat 32 (2 ^ a.bits - 1) ↔ c = sentinel a := by
  rw [← BitVec.toNat_inj, toNat_ofNat_of_lt_two_pow hb hc]
  exact Eq.congr_right (toNat_ofNat_of_lt_two_pow hb (sentinel_lt a))

/-- The code word that an encode writes is the sentinel's exactly when the value is NaN. -/
theorem quantize_codeWord_eq_sentinel_iff {a : ActiveConfig} (hb2 : 2 ≤ a.bits) (hb16 : a.bits ≤ 16) (en : Bool)
    (seed x f : Word) :
    BitVec.ofNat 32 (quantize a en seed x f).code = BitVec.ofNat 32 (2 ^ a.bits - 1) ↔ isNaN x = true := by
  rw [ofNat_eq_sentinel_iff hb16 (quantize_code_lt a en seed x f (by omega)), quantize_code_eq_sentinel_iff hb2]

/-- A value that DEQ gives for a code of the stream is QNAN where the code word is the sentinel's. -/
theorem eq_qnan_of_dequantize_streamBits {s : State} {ch : Channel} {k : Nat} {f v : Word}
    (hb : (s.chan ch).active.bits ≤ 16)
    (hv : dequantize s ch (s.streamBits k (s.chan ch).active.bits) f = .ok v)
    (hc : BitVec.ofNat 32 (s.streamBits k (s.chan ch).active.bits) = BitVec.ofNat 32 (2 ^ (s.chan ch).active.bits - 1)) :
    v = qnan := by
  rw [(ofNat_eq_sentinel_iff hb (streamBits_lt _ _ _)).1 hc, dequantize_sentinel] at hv
  exact (Except.ok.inj hv).symm

/-! ## QUANT without dither (41_quantizer.md R134) -/

/-- Without dither the code is the bin of the probability code, the top bin joined to the one below it. -/
theorem quantIndex_zero (b p : Nat) (hb : 1 ≤ b) : quantIndex b p 0 = min (p / 2 ^ (32 - b)) (2 ^ b - 2) := by
  have h2 : 2 ^ 1 ≤ 2 ^ b := Nat.pow_le_pow_right (by decide) hb
  unfold quantIndex
  generalize 2 ^ (32 - b) = M
  rw [Int.add_zero, ← Int.natCast_div]
  generalize p / M = q
  omega

theorem uniformCdf_mono {x y : Word} (h : realRank x ≤ realRank y) : (uniformCdf x).toNat ≤ (uniformCdf y).toNat := by
  by_cases hlow : realRank x ≤ realRank 0xBF800000#32
  · rw [uniformCdf_of_le_minusOne hlow]
    exact Nat.zero_le _
  by_cases hhigh : realRank one32 ≤ realRank y
  · rw [uniformCdf_of_one_le hhigh]
    exact Nat.le_of_lt_succ (uniformCdf x).isLt
  rw [not_le] at hlow hhigh
  have hscaled : scaled x ≤ scaled y := by
    rw [← not_lt, scaled_lt_iff, not_lt]
    exact h
  zify
  rw [uniformCdf_between hlow (h.trans_lt hhigh), uniformCdf_between (hlow.trans_le h) hhigh]
  omega

/-- (Q2) of every kind: CDFQ is monotone (40_distribution.md R106). -/
theorem cdfq_mono {k : DistKind} {p : Word} (hp : paramOk k p = true) {x y : Word} (hx : isNaN x = false)
    (hy : isNaN y = false) (h : realRank x ≤ realRank y) : (cdfq k p x).toNat ≤ (cdfq k p y).toNat := by
  by_cases hk : k = .uniform
  · subst hk
    exact uniformCdf_mono h
  · rw [cdfq_open hk, cdfq_open hk]
    exact (dist_lawful hk hp).monotone x y hx hy h

/-! ## The value of a rescaled entry -/

theorem isFinite_withSign_infMag (sign : Bool) : isFinite (withSign sign infMag) = false := by cases sign <;> decide

theorem isFinite_iff_not_isNaN_isInf (v : Word) : isFinite v = true ↔ isNaN v = false ∧ isInf v = false := by
  rw [← Bool.not_eq_true, ← Bool.not_eq_true, isFinite_iff, isNaN_iff, isInf_iff]
  omega

/-- A finite quotient has a finite dividend. -/
theorem isFinite_of_isFinite_fdiv32 {a b : Word} (h : isFinite (fdiv32 a b) = true) : isFinite a = true := by
  have hqnan : isFinite qnan = false := by decide
  cases hnan : isNaN a with
  | true => simp [fdiv32, hnan, hqnan] at h
  | false =>
    cases hinf : isInf a with
    | true =>
      simp only [fdiv32, hnan, hinf, Bool.false_or, if_true] at h
      split_ifs at h <;> simp [hqnan, isFinite_withSign_infMag] at h
    | false => exact (isFinite_iff_not_isNaN_isInf a).2 ⟨hnan, hinf⟩

/-! ## The round trip of a rescaled entry (41_quantizer.md R142) -/

section RescaledEntry

variable {s : State} {ch : Channel} {i : Nat} (hch : ChannelOk ch (s.chan ch)) (hready : (s.chan ch).cfgok = true)
include hch hready

theorem isFinite_tabEntry (hi : i < 2 ^ (s.chan ch).active.bits) : isFinite (s.tabEntry ch i) = true := by
  obtain ⟨-, hfinite, -, -⟩ := tableLaws s ch _ hch hready rfl
  exact hfinite i hi

/-- The probability codes of the entries do not decrease, by (Q2) and (T2). -/
theorem cdfq_tabEntry_le_succ (hi : i + 1 < 2 ^ (s.chan ch).active.bits) :
    (cdfq (s.chan ch).active.dist (s.chan ch).active.param (s.tabEntry ch i)).toNat ≤
      (cdfq (s.chan ch).active.dist (s.chan ch).active.param (s.tabEntry ch (i + 1))).toNat := by
  obtain ⟨hsorted, hfinite, -, -⟩ := tableLaws s ch _ hch hready rfl
  have hnotNaN {k : Nat} (hk : k < 2 ^ (s.chan ch).active.bits) : isNaN (s.tabEntry ch k) = false :=
    ((isFinite_iff_not_isNaN_isInf _).1 (hfinite k hk)).1
  exact cdfq_mono (hch.active hready).param (hnotNaN (by omega)) (hnotNaN hi) (hsorted i hi)

/-- A value whose quotient by the effective factor is an entry is finite, entries being finite. -/
theorem isFinite_of_rescaled {y f : Word} (hi : i < 2 ^ (s.chan ch).active.bits) (hback : fdiv32 y f = s.tabEntry ch i) :
    isFinite y = true :=
  isFinite_of_isFinite_fdiv32 (hback ▸ isFinite_tabEntry hch hready hi)

/-- ENC of a rescaled entry gives the bin of the entry's probability code, the top bin joined to the one below it. -/
theorem exec_enc_of_rescaled {src : RegIdx} (j : CodeIdx) (hi : i < 2 ^ (s.chan ch).active.bits)
    (hdither : s.ditherEn = false) (hfactor : validFactor (s.chan ch).factor = true)
    (hback : fdiv32 (s.inp.get src) (effFactor (s.chan ch).factor) = s.tabEntry ch i) :
    exec (.enc ch src j) s = .next (s.setCode j (BitVec.ofNat 32
      (min ((cdfq (s.chan ch).active.dist (s.chan ch).active.param (s.tabEntry ch i)).toNat /
        2 ^ (32 - (s.chan ch).active.bits)) (2 ^ (s.chan ch).active.bits - 2)))) := by
  have hb2 := (hch.active hready).bitsMin
  have hnan := ((isFinite_iff_not_isNaN_isInf _).1 (isFinite_of_rescaled hch hready hi hback)).1
  refine exec_enc_of_quantize j hready (fun _ => hfactor) (q := ⟨_, s.dither⟩) ?_
  rw [hdither, quantize_plain _ _ _ _ hnan, probOf, hback, quantIndex_zero _ _ (by omega)]

end RescaledEntry

theorem dequantize_setCode (s : State) (j : CodeIdx) (x : Word) (ch : Channel) (c : Nat) (f : Word) :
    dequantize (s.setCode j x) ch c f = dequantize s ch c f := by cases j <;> rfl

/-- DEC of the index of an entry below the top one gives the product of the entry and the factor where that is finite. -/
theorem exec_dec_entry {s : State} {ch : Channel} {i : Nat} {v : Word} (d : RegIdx) (j : CodeIdx)
    (hready : (s.chan ch).cfgok = true) (hb : (s.chan ch).active.bits ≤ 16)
    (hfactor : validFactor (s.chan ch).factor = true) (hi : i + 2 ≤ 2 ^ (s.chan ch).active.bits)
    (hv : v = fmul32 (s.tabEntry ch i) (effFactor (s.chan ch).factor)) (hfin : isFinite v = true) :
    exec (.dec ch d j) (s.setCode j (BitVec.ofNat 32 i)) = .next ((s.setCode j (BitVec.ofNat 32 i)).setOut d v) := by
  have hlt : i < sentinel (s.chan ch).active := by
    unfold sentinel
    omega
  have hdeq : dequantize s ch i (s.chan ch).factor = .ok v :=
    (dequantize_eq_ok _ _ _ _ _).2 (.inr ⟨hlt.ne, hfactor, hv, ((isFinite_iff_not_isNaN_isInf _).1 hfin).2⟩)
  have hcode : ((s.setCode j (BitVec.ofNat 32 i)).code j).toNat = i := by
    rw [setCode_code_same, toNat_ofNat_of_lt_two_pow hb (by omega)]
  refine exec_dec_of_dequantize (c := i) d ?_ hcode ?_ ?_ <;> rw [setCode_chan]
  · exact hready
  · exact hlt.le
  · rw [dequantize_setCode, hdeq]

/-! ## The obligations -/

/-- Settles O48: NaN is the one value that QUANT gives the sentinel, and DEQ answers the sentinel before it looks at the
factor. -/
theorem sentinelMeansNaN : Obligations.SentinelMeansNaN := by
  refine ⟨?enc_nan, ?dec, ?enc_number, ?encv, ?decv⟩
  case enc_nan =>
    intro s ch src j hready hnan
    refine ⟨_, exec_enc_of_quantize j hready (fun h => ?_) (quantize_nan _ _ _ _ _ hnan), setCode_code_same _ _ _⟩
    rw [hnan] at h
    cases h
  case dec =>
    intro s ch d j hready hb16 hcode
    have hc : (s.code j).toNat = sentinel (s.chan ch).active :=
      hcode ▸ toNat_ofNat_of_lt_two_pow hb16 (sentinel_lt _)
    exact ⟨_, exec_dec_of_dequantize d hready hc le_rfl (dequantize_sentinel _ _ _), quad_get_set_same _ _ _⟩
  case enc_number =>
    intro s t ch src j _ hb2 hb16 hexec ht hnan
    obtain ⟨_, _, q, rfl, rfl⟩ := (stageEnc_eq_ok _ _ _ _ _).1 (staged_ok_of_exec hexec ht)
    rw [setCode_code_same, Ne, quantize_codeWord_eq_sentinel_iff hb2 hb16, hnan]
    exact Bool.false_ne_true
  case encv =>
    intro s t _ hb2 hb16 hexec ht
    obtain ⟨_, _, _, q0, q1, rfl, rfl, rfl⟩ := (stageEncv_eq_ok _ _).1 (staged_ok_of_exec hexec ht)
    exact ⟨quantize_codeWord_eq_sentinel_iff hb2 hb16 _ _ _ _, quantize_codeWord_eq_sentinel_iff hb2 hb16 _ _ _ _⟩
  case decv =>
    intro s t _ _ hb16 hexec ht
    obtain ⟨_, _, c0, c1, v0, v1, rfl, rfl, hv0, hv1, rfl⟩ := (stageDecv_eq_ok _ _).1 (staged_ok_of_exec hexec ht)
    exact ⟨eq_qnan_of_dequantize_streamBits (ch := .v) hb16 hv0,
      eq_qnan_of_dequantize_streamBits (ch := .v) hb16 hv1⟩

/-- Settles O50: a rescaled entry is divided back to the entry, whose bin is its index; the top entry lies in the bin of
the one below it or in the top one, which the clamp joins. -/
theorem roundTripWithoutDither : Obligations.RoundTripWithoutDither := by
  intro s ch src d j i y hch hready hdither hfactor hbin hy hback hsrc
  rw [← hsrc] at hback
  obtain ⟨hb2, hb16, -, -, -, -⟩ := hch.active hready
  have hpow : 2 ^ 2 ≤ 2 ^ (s.chan ch).active.bits := Nat.pow_le_pow_right (by decide) hb2
  have henc (hi : i < 2 ^ (s.chan ch).active.bits) := exec_enc_of_rescaled hch hready j hi hdither hfactor hback
  constructor
  · intro hi
    have hfin : isFinite y = true := hsrc ▸ isFinite_of_rescaled hch hready (by omega) hback
    refine ⟨s.setCode j (BitVec.ofNat 32 i), _, ?_, ?_, exec_dec_entry d j hready hb16 hfactor hi hy hfin,
      quad_get_set_same _ _ _, setCode_err _ _ _⟩
    · rw [henc (by omega), hbin i hi, min_eq_left (by omega)]
    · rw [setCode_code_same, toNat_ofNat_of_lt_two_pow hb16 (by omega)]
  · intro hi
    obtain ⟨k, rfl⟩ : ∃ k, i = k + 1 := ⟨i - 1, by omega⟩
    have hle := Nat.div_le_div_right (c := 2 ^ (32 - (s.chan ch).active.bits))
      (cdfq_tabEntry_le_succ hch hready (i := k) (by omega))
    rw [hbin k (by omega)] at hle
    refine ⟨_, henc (by omega), ?_⟩
    rw [min_eq_right (by omega), setCode_code_same, toNat_ofNat_of_lt_two_pow hb16 (by omega)]
    omega

end Sys2Proof.Machine

/-! SUPPORT. The weights (42_weight.md R160 to R164): an order under which the reduction step is the minimum, what ENCW
raises, and the round trip of the sentinel through the stream. -/

namespace Sys2Proof.Machine

/-! ## The reduction as a minimum (42_weight.md R160) -/

/-- The real order of the numbers with −0 put below +0, so that no two patterns share a place. -/
def patternRank (v : Word) : Int := if neg v then -(magnitude v : Int) - 1 else (magnitude v : Int)

/-- A pattern's place in the order that `fmin32` takes the minimum of: every NaN below every number. -/
def weightKey (v : Word) : WithBot Int := if isNaN v then ⊥ else (patternRank v : WithBot Int)

theorem weightKey_of_isNaN {v : Word} (h : isNaN v = true) : weightKey v = ⊥ := if_pos h

theorem weightKey_of_number {v : Word} (h : isNaN v = false) : weightKey v = (patternRank v : WithBot Int) :=
  if_neg (by simp [h])

theorem weightKey_eq_bot_iff (v : Word) : weightKey v = ⊥ ↔ isNaN v = true := by
  cases h : isNaN v with
  | true => simp [weightKey_of_isNaN h]
  | false => simp [weightKey_of_number h]

theorem patternRank_injective : Function.Injective patternRank := by
  intro v w h
  simp only [patternRank, neg_eq, magnitude_eq, decide_eq_true_eq] at h
  apply BitVec.eq_of_toNat_eq
  split_ifs at h <;> omega

/-- One place in the order means one pattern, NaNs apart. -/
theorem eq_or_isNaN_of_weightKey_eq {v w : Word} (h : weightKey v = weightKey w) :
    v = w ∨ (isNaN v = true ∧ isNaN w = true) := by
  cases hv : isNaN v with
  | true => exact .inr ⟨rfl, (weightKey_eq_bot_iff w).1 (h ▸ weightKey_of_isNaN hv)⟩
  | false =>
    have hw : isNaN w = false := by
      rw [Bool.eq_false_iff, Ne, ← weightKey_eq_bot_iff, ← h, weightKey_eq_bot_iff, hv]
      exact Bool.false_ne_true
    rw [weightKey_of_number hv, weightKey_of_number hw, WithBot.coe_inj] at h
    exact .inl (patternRank_injective h)

/-- On numbers that are not both zero, the real order decides as the order of the patterns does. -/
theorem le32_iff_patternRank_le {a b : Word} (h : (isZero a && isZero b) = false) :
    le32 a b = true ↔ patternRank a ≤ patternRank b := by
  have hzero : ¬ (magnitude a = 0 ∧ magnitude b = 0) := by
    rw [← isZero_iff, ← isZero_iff, ← Bool.and_eq_true, h]
    exact Bool.false_ne_true
  rw [le32_eq_true, realRank, realRank, patternRank, patternRank]
  split_ifs <;> omega

theorem patternRank_of_isZero {v : Word} (h : isZero v = true) : patternRank v = if neg v then -1 else 0 := by
  rw [patternRank, (isZero_iff v).1 h]
  rfl

/-- Two zeros reduce to the lower pattern. -/
theorem patternRank_minZero {a b : Word} (ha : isZero a = true) (hb : isZero b = true) :
    patternRank (if neg a || neg b then 0x80000000#32 else 0x00000000#32) = min (patternRank a) (patternRank b) := by
  rw [patternRank_of_isZero ha, patternRank_of_isZero hb]
  cases neg a <;> cases neg b <;> decide

/-- `fmin32` is the minimum in the order of `weightKey`. -/
theorem weightKey_fmin32 (a b : Word) : weightKey (fmin32 a b) = min (weightKey a) (weightKey b) := by
  have hqnan : isNaN qnan = true := by decide
  unfold fmin32
  cases ha : isNaN a with
  | true => simp [weightKey_of_isNaN ha, weightKey_of_isNaN hqnan]
  | false =>
    cases hb : isNaN b with
    | true => simp [weightKey_of_isNaN hb, weightKey_of_isNaN hqnan]
    | false =>
      rw [weightKey_of_number ha, weightKey_of_number hb, ← WithBot.coe_min, if_neg (by simp)]
      cases hz : isZero a && isZero b with
      | true =>
        obtain ⟨hza, hzb⟩ := (Bool.and_eq_true _ _).mp hz
        rw [if_pos rfl, ← patternRank_minZero hza hzb]
        exact weightKey_of_number (by split <;> decide)
      | false =>
        rw [if_neg Bool.false_ne_true]
        split_ifs with hle
        · rw [le32_iff_patternRank_le hz] at hle
          rw [weightKey_of_number ha, min_eq_left hle]
        · rw [le32_iff_patternRank_le hz, not_le] at hle
          rw [weightKey_of_number hb, min_eq_right hle.le]

theorem le_weightKey_foldl_iff (k : WithBot Int) (l : List Word) (a : Word) :
    k ≤ weightKey (l.foldl fmin32 a) ↔ ∀ x ∈ a :: l, k ≤ weightKey x := by
  induction l generalizing a with
  | nil => simp
  | cons b l ih => simp [ih, weightKey_fmin32, and_assoc]

/-- The registers that ENCW reads where channel W has `n` polarizations (42_weight.md R161). -/
def Quad.weights (q : Quad) (n : Nat) : List Word := [q.q0, q.q1, q.q2, q.q3].take n

theorem get_mem_weights (q : Quad) {i : RegIdx} {n : Nat} (h : regNum i < n) : q.get i ∈ q.weights n := by
  rw [Quad.weights, List.mem_take_iff_getElem]
  exact ⟨regNum i, by cases i <;> simpa [regNum] using h, by cases i <;> rfl⟩

/-- WMIN is the greatest lower bound of the weights. -/
theorem le_weightKey_wmin_iff (k : WithBot Int) (q : Quad) {n : Nat} (hn : 1 ≤ n) :
    k ≤ weightKey (q.wmin n) ↔ ∀ x ∈ q.weights n, k ≤ weightKey x := by
  obtain ⟨m, rfl⟩ : ∃ m, n = m + 1 := ⟨n - 1, by omega⟩
  exact le_weightKey_foldl_iff k _ _

theorem weightKey_wmin_of_perm {q r : Quad} {n : Nat} (hn : 1 ≤ n) (h : (q.weights n).Perm (r.weights n)) :
    weightKey (q.wmin n) = weightKey (r.wmin n) :=
  eq_of_forall_le_iff fun k => by simp only [le_weightKey_wmin_iff k _ hn, h.mem_iff]

/-- One NaN weight makes the minimum a NaN. -/
theorem isNaN_wmin_of_isNaN {q : Quad} {i : RegIdx} {n : Nat} (hi : regNum i < n) (h : isNaN (q.get i) = true) :
    isNaN (q.wmin n) = true := by
  have hle := (le_weightKey_wmin_iff _ q (by omega)).1 le_rfl _ (get_mem_weights q hi)
  rwa [weightKey_of_isNaN h, le_bot_iff, weightKey_eq_bot_iff] at hle

/-! ## ENCW reads the weights through their minimum (42_weight.md R162) -/

theorem quantize_eq_of_weightKey_eq {x y : Word} (h : weightKey x = weightKey y) (a : ActiveConfig) (en : Bool)
    (seed f : Word) : quantize a en seed x f = quantize a en seed y f := by
  rcases eq_or_isNaN_of_weightKey_eq h with rfl | ⟨hx, hy⟩
  · rfl
  · rw [quantize_nan _ _ _ _ _ hx, quantize_nan _ _ _ _ _ hy]

theorem isNaN_eq_of_weightKey_eq {x y : Word} (h : weightKey x = weightKey y) : isNaN x = isNaN y := by
  rw [Bool.eq_iff_iff, ← weightKey_eq_bot_iff, ← weightKey_eq_bot_iff, h]

/-- What ENCW can raise. -/
theorem stageEncw_eq_error (s : State) (e : CmdError) : stageEncw s = .error e ↔
    (s.chanW.cfgok = false ∧ e = ⟨.notConfigured, channelWord .w⟩) ∨
      (s.chanW.cfgok = true ∧
        ((s.pbufBits < s.wptr.toNat + s.chanW.active.bits ∧ e = ⟨.pbufOverflow, s.wptr⟩) ∨
          (s.wptr.toNat + s.chanW.active.bits ≤ s.pbufBits ∧ isNaN (s.inp.wmin s.chanW.active.npol) = false ∧
            validFactor s.chanW.factor = false ∧ e = ⟨.factor, s.chanW.factor⟩))) := by
  unfold stageEncw
  rw [whenConfigured_eq_error, whenRoom_eq_error, whenFactor_eq_error]
  simp only [chan_w, Bool.not_eq_true', reduceCtorEq, and_false, or_false]

/-- ENCW of weights with one minimum: one result, the weights themselves apart. -/
theorem exec_encw_of_weightKey_eq {s : State} {q : Quad}
    (h : weightKey (q.wmin s.chanW.active.npol) = weightKey (s.inp.wmin s.chanW.active.npol)) :
    ∃ t, exec .encw s = .next t ∧ exec .encw { s with inp := q } = .next { t with inp := q } := by
  have hnan := isNaN_eq_of_weightKey_eq h
  cases hs : stageEncw s with
  | ok t =>
    refine ⟨t, complete_of_ok hs, complete_of_ok ((stageEncw_eq_ok _ _).2 ?_)⟩
    obtain ⟨hready, hroom, hfactor, _, rfl, rfl⟩ := (stageEncw_eq_ok _ _).1 hs
    exact ⟨hready, hroom, hnan ▸ hfactor, _, rfl, by rw [quantize_eq_of_weightKey_eq h]; rfl⟩
  | error e =>
    have hq : stageEncw { s with inp := q } = .error e :=
      (stageEncw_eq_error _ _).2 (hnan ▸ (stageEncw_eq_error _ _).1 hs)
    refine ⟨s.errorEntry e (encode .encw), ?_, ?_⟩
    · exact (exec_eq_next _ _ _).2 (.inr ⟨e, hs, rfl⟩)
    · exact (exec_eq_next _ _ _).2 (.inr ⟨e, hq, rfl⟩)

/-! ## DECW of what ENCW appended (42_weight.md R163) -/

/-- PackBits puts the low `w` bits of the code where WPTR stood (43_bitpack.md R170, R171). -/
theorem streamBits_packBits (s : State) (c : Word) (w : Nat) :
    (s.packBits c w).streamBits s.wptr.toNat w = c.toNat % 2 ^ w := by
  rw [← bitsToNat_testBit]
  refine bitsToNat_congr fun i hi => ?_
  rw [pbufBit_packBits, if_neg (by omega), if_pos (by omega), Nat.add_sub_cancel_left]
  rfl

/-- DECW of the sentinel completes with QNAN, whatever the factor. -/
theorem exec_decw_sentinel {s : State} (hready : s.chanW.cfgok = true)
    (hdata : s.rptr.toNat + s.chanW.active.bits ≤ s.wptr.toNat)
    (hcode : s.streamBits s.rptr.toNat s.chanW.active.bits = sentinel s.chanW.active) :
    exec .decw s = .next ({ s with
      code0 := BitVec.ofNat 32 (sentinel s.chanW.active)
      out := s.out.fill s.chanW.active.npol qnan }.advanceRptr s.chanW.active.bits) :=
  complete_of_ok ((stageDecw_eq_ok _ _).2
    ⟨hready, hdata, _, qnan, hcode.symm, dequantize_sentinel s .w _, rfl⟩)

/-- PBUF has at most 2^19 bits (00_scope.md R8). -/
theorem pbufBits_le {s : State} (h : Config.pbufBytesOk s.pbufBytes = true) : s.pbufBits ≤ 2 ^ 19 := by
  simp only [Config.pbufBytesOk, Bool.and_eq_true, decide_eq_true_eq] at h
  unfold State.pbufBits
  omega

/-- WPTR after an append within the buffer does not wrap. -/
theorem packBits_wptr_toNat {s : State} {c : Word} {w : Nat} (h : Config.pbufBytesOk s.pbufBytes = true)
    (hroom : s.wptr.toNat + w ≤ s.pbufBits) : (s.packBits c w).wptr.toNat = s.wptr.toNat + w := by
  have := pbufBits_le h
  rw [packBits_wptr, BitVec.toNat_ofNat, Nat.mod_eq_of_lt (by omega)]

/-- ENCW of a NaN minimum appends the sentinel. -/
theorem streamBits_of_encw_nan {s t : State} (hb : s.chanW.active.bits ≤ 16)
    (hnan : isNaN (s.inp.wmin s.chanW.active.npol) = true) (ht : stageEncw s = .ok t) :
    t.streamBits s.wptr.toNat s.chanW.active.bits = sentinel s.chanW.active := by
  obtain ⟨_, _, _, q, hq, rfl⟩ := (stageEncw_eq_ok _ _).1 ht
  have hcode : q.code = sentinel s.chanW.active := by rw [hq, quantize_nan _ _ _ _ _ hnan]
  refine (streamBits_packBits { s with dither := q.seed, code0 := BitVec.ofNat 32 q.code } _ _).trans ?_
  rw [hcode, toNat_ofNat_of_lt_two_pow hb (sentinel_lt _), Nat.mod_eq_of_lt (sentinel_lt _)]

/-- What ENCW leaves as it was, and where it leaves WPTR. -/
theorem encw_frame {s t : State} (hpbuf : Config.pbufBytesOk s.pbufBytes = true) (ht : stageEncw s = .ok t) :
    t.chanW = s.chanW ∧ t.err = s.err ∧ t.out = s.out ∧ t.wptr.toNat = s.wptr.toNat + s.chanW.active.bits := by
  obtain ⟨_, hroom, _, q, _, rfl⟩ := (stageEncw_eq_ok _ _).1 ht
  exact ⟨rfl, rfl, rfl, packBits_wptr_toNat hpbuf hroom⟩

/-- DECW at the code that ENCW of a NaN minimum appended. -/
theorem exec_decw_of_encw_nan {s t : State} (hpbuf : Config.pbufBytesOk s.pbufBytes = true)
    (hb : s.chanW.active.bits ≤ 16) (hnan : isNaN (s.inp.wmin s.chanW.active.npol) = true)
    (ht : stageEncw s = .ok t) :
    ∃ u, exec .decw { t with rptr := s.wptr } = .next u ∧ u.err = s.err ∧
      u.out = s.out.fill s.chanW.active.npol qnan := by
  obtain ⟨hchan, herr, hout, hwptr⟩ := encw_frame hpbuf ht
  obtain ⟨hready, -⟩ := (stageEncw_eq_ok _ _).1 ht
  have hcode := streamBits_of_encw_nan hb hnan ht
  rw [← hchan] at hready hwptr hcode
  exact ⟨_, exec_decw_sentinel hready hwptr.ge hcode, herr, by rw [advanceRptr_out, hout, hchan]⟩

/-! ## The obligation -/

/-- Settles O57: the weights reach ENCW through their minimum alone, DECW fills the outputs with one value, and the
sentinel of a NaN minimum comes back from the stream as QNAN. -/
theorem weightLaws : Obligations.WeightLaws := by
  refine ⟨?permutation, ?replication, ?nan⟩
  case permutation =>
    intro s q hn _ hperm
    exact exec_encw_of_weightKey_eq (weightKey_wmin_of_perm hn hperm)
  case replication =>
    intro s t k _ hexec ht hk
    obtain ⟨_, _, c, v, _, _, rfl⟩ := (stageDecw_eq_ok _ _).1 (staged_ok_of_exec hexec ht)
    have h0 : regNum .r0 < s.chanW.active.npol := Nat.zero_lt_of_lt hk
    rw [advanceRptr_out, quad_get_fill, quad_get_fill, if_pos hk, if_pos h0]
  case nan =>
    intro s t u k i hs hpbuf _ hb hi hnan hencw ht hdecw hk
    obtain ⟨_, hexec, herr, hout⟩ :=
      exec_decw_of_encw_nan hpbuf hb (isNaN_wmin_of_isNaN hi hnan) (staged_ok_of_exec hencw ht)
    cases hexec.symm.trans hdecw
    rw [herr, hout, quad_get_fill, if_pos hk]
    exact ⟨hs, rfl⟩

end Sys2Proof.Machine

/-! SUPPORT. The bit packer: where its commands complete, what a sequence of PACKs leaves in the stream, and the round trip
through it (43_bitpack.md R170 to R179). -/

namespace Sys2Proof.Machine

/-! ## Where the commands complete -/

theorem exec_nop (s : State) : exec .nop s = .next s := (exec_eq_next .nop s s).2 (.inl rfl)

theorem exec_rstptr (pw pr : Bool) (s : State) : exec (.rstptr pw pr) s = .next { s with
    wptr := if pw then 0x00000000#32 else s.wptr
    rptr := if pr then 0x00000000#32 else s.rptr } := (exec_eq_next (.rstptr pw pr) s _).2 (.inl rfl)

/-- The state with an empty stream, both pointers at bit 0. -/
def State.rewound (s : State) : State := { s with
  wptr := 0x00000000#32
  rptr := 0x00000000#32 }

theorem exec_rstptr_both (s : State) : exec (.rstptr true true) s = .next s.rewound := exec_rstptr true true s

theorem exec_pack_of_fits {s : State} {j : CodeIdx} {w : Nat} (hcode : (s.code j).toNat < 2 ^ w)
    (hroom : s.wptr.toNat + w ≤ s.pbufBits) : exec (.pack j w) s = .next (s.packBits (s.code j) w) :=
  complete_of_ok ((stagePack_eq_ok j w s _).2 ⟨fun _ => hcode, hroom, rfl⟩)

theorem exec_unpack_of_data {s : State} {w : Nat} (j : CodeIdx) (hdata : s.rptr.toNat + w ≤ s.wptr.toNat) :
    exec (.unpack j w) s = .next ((s.setCode j (BitVec.ofNat 32 (s.streamBits s.rptr.toNat w))).advanceRptr w) :=
  complete_of_ok ((stageUnpack_eq_ok j w s _).2 ⟨hdata, rfl⟩)

/-- PLEN does not wrap (10_state.md R44). -/
theorem plen_toNat (s : State) : s.plen.toNat = bytesFor s.wptr.toNat := by
  have := s.wptr.isLt
  rw [State.plen, BitVec.toNat_ofNat, Nat.mod_eq_of_lt]
  unfold bytesFor
  omega

/-- RPTR after a read of packed data does not wrap, being at most WPTR. -/
theorem advanceRptr_rptr_toNat {s : State} {w : Nat} (hdata : s.rptr.toNat + w ≤ s.wptr.toNat) :
    (s.advanceRptr w).rptr.toNat = s.rptr.toNat + w := by
  rw [advanceRptr_rptr, BitVec.toNat_ofNat, Nat.mod_eq_of_lt (hdata.trans_lt s.wptr.isLt)]

@[simp] theorem pbufBit_setCode (s : State) (j : CodeIdx) (x : Word) (k : Nat) :
    (s.setCode j x).pbufBit k = s.pbufBit k :=
  pbufBit_congr (setCode_pbuf s j x) (setCode_resets s j x) k

@[simp] theorem pbufBit_advanceRptr (s : State) (w k : Nat) : (s.advanceRptr w).pbufBit k = s.pbufBit k :=
  pbufBit_congr rfl rfl k

/-! ## The stream as a list of codes (43_bitpack.md R175) -/

/-- The stream holds the codes `cs`, `w` bits each, one after the other from bit `k` on. -/
def State.HoldsCodes (s : State) (w : Nat) : Nat → List Word → Prop
  | _, [] => True
  | k, c :: cs => s.streamBits k w = c.toNat ∧ s.HoldsCodes w (k + w) cs

/-- The bits from WPTR to the end of its byte are zero (43_bitpack.md R176). -/
def State.ZeroPadded (s : State) : Prop :=
  ∀ k, s.wptr.toNat ≤ k → k < 8 * bytesFor s.wptr.toNat → s.pbufBit k = false

theorem State.HoldsCodes.congr {s t : State} {w : Nat} (hbits : ∀ k, t.pbufBit k = s.pbufBit k) {k : Nat}
    {cs : List Word} (h : s.HoldsCodes w k cs) : t.HoldsCodes w k cs := by
  induction cs generalizing k with
  | nil => trivial
  | cons c cs ih =>
    obtain ⟨hc, hcs⟩ := h
    exact ⟨(streamBits_congr hbits k w).trans hc, ih hcs⟩

theorem zeroPadded_of_wptr_eq_zero {s : State} (h : s.wptr = 0x00000000#32) : s.ZeroPadded := by
  intro k _ hk
  rw [h] at hk
  exact absurd hk (Nat.not_lt_zero k)

theorem zeroPadded_packBits {s : State} {c : Word} {w : Nat}
    (hwptr : (s.packBits c w).wptr.toNat = s.wptr.toNat + w) : (s.packBits c w).ZeroPadded := by
  intro k hlow hhigh
  rw [hwptr] at hlow hhigh
  rw [pbufBit_packBits, if_neg (by omega), if_neg (by omega), if_pos hhigh]

/-! ## A sequence of PACKs -/

/-- From `s` to `t` the codes `cs` are appended to the stream, `w` bits each: everything that the round trip needs to
know of a sequence of PACKs. -/
structure Appended (w : Nat) (cs : List Word) (s t : State) : Prop where
  err : t.err = s.err
  rptr : t.rptr = s.rptr
  wptr : t.wptr.toNat = s.wptr.toNat + cs.length * w
  before : ∀ k < s.wptr.toNat, t.pbufBit k = s.pbufBit k
  codes : t.HoldsCodes w s.wptr.toNat cs
  padded : s.ZeroPadded → t.ZeroPadded

theorem Appended.nil (w : Nat) (s : State) : Appended w [] s s where
  err := rfl
  rptr := rfl
  wptr := by rw [List.length_nil, Nat.zero_mul, Nat.add_zero]
  before _ _ := rfl
  codes := trivial
  padded := id

/-- The appends of `cs` leave the code `c` before them in place. -/
theorem Appended.cons {w : Nat} {c : Word} {cs : List Word} {s t u : State} (hc : Appended w [c] s t)
    (hcs : Appended w cs t u) : Appended w (c :: cs) s u := by
  have hwptr : t.wptr.toNat = s.wptr.toNat + w := by
    rw [hc.wptr, List.length_singleton, Nat.one_mul]
  obtain ⟨hcode, -⟩ := hc.codes
  have hkept : u.streamBits s.wptr.toNat w = t.streamBits s.wptr.toNat w :=
    bitsToNat_congr fun i hi => hcs.before _ (by omega)
  exact {
    err := hcs.err.trans hc.err
    rptr := hcs.rptr.trans hc.rptr
    wptr := by
      rw [hcs.wptr, hwptr, List.length_cons, Nat.add_one_mul]
      omega
    before := fun k hk => (hcs.before k (by omega)).trans (hc.before k hk)
    codes := ⟨hkept.trans hcode, hwptr ▸ hcs.codes⟩
    padded := fun h => hcs.padded (hc.padded h) }

/-- PackBits of a code of at most `w` bits appends it, where there is room. -/
theorem Appended.packBits {s : State} {c : Word} {w : Nat} (hpbuf : Config.pbufBytesOk s.pbufBytes = true)
    (hc : c.toNat < 2 ^ w) (hroom : s.wptr.toNat + w ≤ s.pbufBits) : Appended w [c] s (s.packBits c w) where
  err := rfl
  rptr := rfl
  wptr := by rw [packBits_wptr_toNat hpbuf hroom, List.length_singleton, Nat.one_mul]
  before k hk := by rw [pbufBit_packBits, if_pos hk]
  codes := ⟨by rw [streamBits_packBits, Nat.mod_eq_of_lt hc], trivial⟩
  padded _ := zeroPadded_packBits (packBits_wptr_toNat hpbuf hroom)

/-- CODE0 holds no part of the stream. -/
theorem Appended.of_setCode {w : Nat} {cs : List Word} {j : CodeIdx} {x : Word} {s t : State}
    (h : Appended w cs (s.setCode j x) t) : Appended w cs s t where
  err := h.err.trans (setCode_err s j x)
  rptr := h.rptr.trans (setCode_rptr s j x)
  wptr := setCode_wptr s j x ▸ h.wptr
  before k hk := by
    rw [← pbufBit_setCode s j x]
    exact h.before k (by rwa [setCode_wptr])
  codes := setCode_wptr s j x ▸ h.codes
  padded hs := h.padded fun k => by
    rw [setCode_wptr, pbufBit_setCode]
    exact hs k

/-- Codes that fit are all packed (43_bitpack.md R175). -/
theorem exists_packAll_appended {w : Nat} {cs : List Word} {s : State} (hpbuf : Config.pbufBytesOk s.pbufBytes = true)
    (hcs : ∀ c ∈ cs, c.toNat < 2 ^ w) (hroom : s.wptr.toNat + cs.length * w ≤ s.pbufBits) :
    ∃ t, packAll w cs s = .next t ∧ Appended w cs s t := by
  induction cs generalizing s with
  | nil => exact ⟨s, rfl, Appended.nil w s⟩
  | cons c cs ih =>
    obtain ⟨hc, hrest⟩ := List.forall_mem_cons.1 hcs
    rw [List.length_cons, Nat.add_one_mul] at hroom
    have hfits : (s.setCode .c0 c).wptr.toNat + w ≤ (s.setCode .c0 c).pbufBits :=
      (by omega : s.wptr.toNat + w ≤ s.pbufBits)
    have hexec : exec (.pack .c0 w) (s.setCode .c0 c) = .next ((s.setCode .c0 c).packBits c w) :=
      exec_pack_of_fits (j := .c0) hc hfits
    have hwptr : ((s.setCode .c0 c).packBits c w).wptr.toNat = s.wptr.toNat + w := packBits_wptr_toNat hpbuf hfits
    have hroom' : ((s.setCode .c0 c).packBits c w).wptr.toNat + cs.length * w ≤ s.pbufBits := by omega
    obtain ⟨u, hu, happ⟩ := ih (s := (s.setCode .c0 c).packBits c w) hpbuf hrest hroom'
    refine ⟨u, ?_, (Appended.packBits (s := s.setCode .c0 c) hpbuf hc hfits).of_setCode.cons happ⟩
    rw [packAll, hexec]
    exact hu

/-! ## A sequence of UNPACKs -/

/-- Codes that stand in the stream from RPTR on, below WPTR, are all read back (43_bitpack.md R173 to R175). -/
theorem unpackAll_of_holdsCodes {w : Nat} {cs : List Word} {s : State} (hcodes : s.HoldsCodes w s.rptr.toNat cs)
    (hdata : s.rptr.toNat + cs.length * w ≤ s.wptr.toNat) :
    unpackAll w cs.length s = cs.map fun c => (c, s.err) := by
  induction cs generalizing s with
  | nil => rfl
  | cons c cs ih =>
    obtain ⟨hc, hrest⟩ := hcodes
    rw [List.length_cons, Nat.add_one_mul] at hdata
    have hread : s.rptr.toNat + w ≤ s.wptr.toNat := by omega
    have hexec : exec (.unpack .c0 w) s = .next ((s.setCode .c0 c).advanceRptr w) := by
      rw [exec_unpack_of_data .c0 hread, hc, BitVec.ofNat_toNat, BitVec.setWidth_eq]
    have hrptr : ((s.setCode .c0 c).advanceRptr w).rptr.toNat = s.rptr.toNat + w :=
      advanceRptr_rptr_toNat (s := s.setCode .c0 c) hread
    have htail : unpackAll w cs.length ((s.setCode .c0 c).advanceRptr w) = cs.map fun c => (c, s.err) := by
      refine ih ?_ ?_
      · rw [hrptr]
        exact hrest.congr fun k => by rw [pbufBit_advanceRptr, pbufBit_setCode]
      · rw [hrptr, advanceRptr_wptr, setCode_wptr]
        omega
    rw [List.length_cons, unpackAll, hexec, List.map_cons, ← htail]
    rfl

/-! ## The obligations -/

/-- Settles O58: the PACKs append the codes from bit 0 on, the last of them clears the rest of its byte, and the UNPACKs
read the stream from bit 0 on as the PACKs left it. -/
theorem packThenUnpackIsExact : Obligations.PackThenUnpackIsExact := by
  intro s w cs _ _ hpbuf hcs hroom
  have hwptr0 : s.rewound.wptr.toNat = 0 := rfl
  obtain ⟨t, ht, happ⟩ := exists_packAll_appended (s := s.rewound) hpbuf hcs ((Nat.zero_add _).trans_le hroom)
  have herr : t.err = s.err := happ.err
  have hwptr : t.wptr.toNat = cs.length * w := by rw [happ.wptr, hwptr0, Nat.zero_add]
  have hrptr : t.rptr.toNat = 0 := congrArg BitVec.toNat happ.rptr
  have hplen : t.plen.toNat = bytesFor (cs.length * w) := by rw [plen_toNat, hwptr]
  refine ⟨s.rewound, t, exec_rstptr_both s, ht, herr, ?_, hwptr, hplen, fun k hlow hhigh => ?_⟩
  · have hcodes : t.HoldsCodes w t.rptr.toNat cs := hrptr ▸ happ.codes
    rw [unpackAll_of_holdsCodes hcodes (by omega), herr]
  · exact happ.padded (zeroPadded_of_wptr_eq_zero rfl) k (hwptr.trans_le hlow) (by rwa [hplen, ← hwptr] at hhigh)

/-- Settles O23: neither command has a check, so each completes with its staged writes. -/
theorem nopAndRstptrEffects : Obligations.NopAndRstptrEffects :=
  ⟨exec_nop, fun s pw pr => exec_rstptr pw pr s⟩

end Sys2Proof.Machine

/-! SUPPORT. The error path (60_exceptions.md R195, R196, R200): the ERR gate before CMD, what a STATUS write does, and that
an error entry is the only way a command raises STATUS.ERR, with the host's word as ERR_CMD. -/

namespace Sys2Proof.Machine

/-! ## The ERR gate (60_exceptions.md R195) -/

theorem commandWrite_of_err {s : State} (c : Word) (he : s.err = true) : commandWrite c s = .next s := if_pos he

theorem step_command_of_decode {s : State} {c : Word} {i : Instr} {rest : List HostAccess}
    (h : s.accesses = .write cmdAddr c :: rest) (he : s.err = false) (hd : decode c = .ok i) :
    step s = exec i { s with accesses := rest, answer := .done } := by
  rw [step_command h, commandWrite, hd]
  exact if_neg (Bool.eq_false_iff.1 he)

/-! ## The return from an error (60_exceptions.md R200) -/

theorem step_status_write {s : State} {v : Word} {rest : List HostAccess} (h : s.accesses = .write 0x0000C#20 v :: rest) :
    step s = .next ({ s with accesses := rest, answer := .done }.writeStatus v) :=
  step_write_target h (misaligned_regAddr .status) (targetOf_regAddr _ .status) (by decide)

theorem step_status_return {s : State} {v : Word} {rest : List HostAccess} (h : s.accesses = .write 0x0000C#20 v :: rest)
    (hv : v.getLsbD 0 = true) : step s = .next { s with accesses := rest, answer := .done }.clearError := by
  rw [step_status_write h, State.writeStatus, if_pos hv]

/-! ## The word of a decoded instruction (30_encoding.md R83, R86) -/

/-- Bits that a row fixes to 0: `ones` says that the mask is 1 in the whole field, `zeros` that the opcode is 0 there. -/
theorem toNat_field_eq_zero_of_and_eq {c m k : Word} (h : c &&& m = k) (lo len : Nat)
    (ones : m.extractLsb' lo len = BitVec.allOnes len) (zeros : k.extractLsb' lo len = 0#len) :
    c.toNat / 2 ^ lo % 2 ^ len = 0 := by
  rw [← field_eq, field, ← BitVec.and_allOnes (x := c.extractLsb' lo len), ← ones, ← BitVec.extractLsb'_and, h, zeros,
    BitVec.toNat_ofNat, Nat.zero_mod]

theorem channelNum_channelOfNum {n : Nat} (h : n < 2) : channelNum (channelOfNum n) = n := by
  interval_cases n <;> rfl

theorem regNum_regOfNum {n : Nat} (h : n < 4) : regNum (regOfNum n) = n := by
  interval_cases n <;> rfl

theorem codeNum_codeOfNum {n : Nat} (h : n < 2) : codeNum (codeOfNum n) = n := by
  interval_cases n <;> rfl

theorem channelNum_chField (c : Word) : channelNum (chField c) = c.toNat / 2 ^ 8 % 2 ^ 1 :=
  (channelNum_channelOfNum (field_lt c 8 1)).trans (field_eq c 8 1)

theorem regNum_srcField (c : Word) : regNum (srcField c) = c.toNat / 2 ^ 9 % 2 ^ 2 :=
  (regNum_regOfNum (field_lt c 9 2)).trans (field_eq c 9 2)

theorem regNum_dstField (c : Word) : regNum (dstField c) = c.toNat / 2 ^ 11 % 2 ^ 2 :=
  (regNum_regOfNum (field_lt c 11 2)).trans (field_eq c 11 2)

theorem codeNum_cselField (c : Word) : codeNum (cselField c) = c.toNat / 2 ^ 13 % 2 ^ 1 :=
  (codeNum_codeOfNum (field_lt c 13 1)).trans (field_eq c 13 1)

theorem widthField_sub_one (c : Word) : widthField c - 1 = c.toNat / 2 ^ 16 % 2 ^ 5 := field_eq c 16 5

/-- The opcode and the operand fields in their places make up the whole word: the row fixes every bit between them to 0. -/
theorem opcodeOf_add_operandBits_of_row {c m : Word} {op : Nat} {i : Instr} (hm : rowMask op = some m)
    (hi : instrOf c op = some i) (hrow : c &&& m = BitVec.ofNat 32 op) : opcodeOf i + operandBits i = c.toNat := by
  have hlt := c.isLt
  have hop : c.toNat % 256 = op := opField_eq c ▸ opField_of_row hm hrow
  have hch := channelNum_chField c
  have hsrc := regNum_srcField c
  have hdst := regNum_dstField c
  have hcsel := codeNum_cselField c
  have hwidth := widthField_sub_one c
  have hpw : (c.getLsbD 24).toNat = c.toNat / 2 ^ 24 % 2 := Nat.toNat_testBit _ _
  have hpr : (c.getLsbD 25).toNat = c.toNat / 2 ^ 25 % 2 := Nat.toNat_testBit _ _
  have hzero := toNat_field_eq_zero_of_and_eq hrow
  obtain rfl := opcodeOf_instrOf hi
  cases i <;> cases hm <;> cases hi <;> simp only [opcodeOf, operandBits] at hop hzero ⊢
  case nop.refl.refl | encv.refl.refl | decv.refl.refl | encw.refl.refl | decw.refl.refl =>
    have hhigh := hzero 8 24 rfl rfl
    omega
  case config.refl.refl =>
    have hhigh := hzero 9 23 rfl rfl
    omega
  case enc.refl.refl =>
    have hmid := hzero 11 2 rfl rfl
    have hhigh := hzero 14 18 rfl rfl
    omega
  case dec.refl.refl =>
    have hmid := hzero 9 2 rfl rfl
    have hhigh := hzero 14 18 rfl rfl
    omega
  case pack.refl.refl | unpack.refl.refl =>
    have hlow := hzero 8 5 rfl rfl
    have hmid := hzero 14 2 rfl rfl
    have hhigh := hzero 21 11 rfl rfl
    omega
  case cdf.refl.refl =>
    have hhigh := hzero 11 21 rfl rfl
    omega
  case level.refl.refl =>
    have hmid := hzero 9 2 rfl rfl
    have hhigh := hzero 13 19 rfl rfl
    omega
  case rstptr.refl.refl =>
    have hmid := hzero 8 16 rfl rfl
    have hhigh := hzero 26 6 rfl rfl
    omega

/-- A legal word is the word of the instruction it decodes to, so ERR_CMD records what the host wrote (log entry 13). -/
theorem encode_of_decode {c : Word} {i : Instr} (h : decode c = .ok i) : encode i = c := by
  obtain ⟨m, hm, hi, hrow⟩ := (decode_eq_ok c i).1 h
  rw [encode, opcodeOf_add_operandBits_of_row hm hi hrow, BitVec.ofNat_toNat, BitVec.setWidth_eq]

/-! ## The error entry (60_exceptions.md R196) -/

@[simp] theorem latch_err (s : State) (ch : Channel) (a : ActiveConfig) : (latch s ch a).err = s.err := setChan_err _ _ _

/-- A command that completes does not touch STATUS.ERR. -/
theorem staged_err {i : Instr} {s t : State} (h : staged i s = .ok t) : t.err = s.err := by
  cases i with
  | nop => cases h; rfl
  | config ch =>
    obtain ⟨a, _, rfl⟩ := (stageConfig_eq_ok _ _ _).1 h
    exact latch_err _ _ _
  | enc ch src j =>
    obtain ⟨_, _, q, _, rfl⟩ := (stageEnc_eq_ok _ _ _ _ _).1 h
    exact setCode_err _ _ _
  | dec ch dst j =>
    obtain ⟨_, _, v, _, rfl⟩ := (stageDec_eq_ok _ _ _ _ _).1 h
    rfl
  | pack j w =>
    obtain ⟨_, _, rfl⟩ := (stagePack_eq_ok _ _ _ _).1 h
    rfl
  | unpack j w =>
    obtain ⟨_, rfl⟩ := (stageUnpack_eq_ok _ _ _ _).1 h
    exact setCode_err _ _ _
  | encv =>
    obtain ⟨_, _, _, q0, q1, _, _, rfl⟩ := (stageEncv_eq_ok _ _).1 h
    rfl
  | decv =>
    obtain ⟨_, _, c0, c1, v0, v1, _, _, _, _, rfl⟩ := (stageDecv_eq_ok _ _).1 h
    rfl
  | encw =>
    obtain ⟨_, _, _, q, _, rfl⟩ := (stageEncw_eq_ok _ _).1 h
    rfl
  | decw =>
    obtain ⟨_, _, c, v, _, _, rfl⟩ := (stageDecw_eq_ok _ _).1 h
    rfl
  | cdf ch src =>
    obtain ⟨_, _, rfl⟩ := (stageCdf_eq_ok _ _ _ _).1 h
    rfl
  | level ch dst =>
    obtain ⟨_, rfl⟩ := (stageLevel_eq_ok _ _ _ _).1 h
    rfl
  | rstptr pw pr => cases h; rfl

/-- A command after which STATUS.ERR is newly 1 took the error entry, with a cause. -/
theorem errorEntry_of_exec {i : Instr} {s t : State} (hs : s.err = false) (h : exec i s = .next t) (ht : t.err = true) :
    ∃ e : CmdError, e.cause ≠ .none ∧ t = s.errorEntry e (encode i) := by
  rcases (exec_eq_next i s t).1 h with hok | ⟨e, he, rfl⟩
  · have hfalse : t.err = false := (staged_err hok).trans hs
    exact absurd ht (Bool.eq_false_iff.1 hfalse)
  · exact ⟨e, staged_error_cause he, rfl⟩

/-- A CMD write after which STATUS.ERR is newly 1 took the error entry for the word that was written. -/
theorem errorEntry_of_commandWrite {c : Word} {s t : State} (hs : s.err = false) (h : commandWrite c s = .next t)
    (ht : t.err = true) : ∃ e : CmdError, e.cause ≠ .none ∧ t = s.errorEntry e c := by
  rcases commandWrite_cases h with ⟨_, rfl⟩ | ⟨_, i, hdec, hexec⟩ | ⟨_, _, rfl⟩
  · exact absurd ht (Bool.eq_false_iff.1 hs)
  · exact encode_of_decode hdec ▸ errorEntry_of_exec hs hexec ht
  · exact ⟨⟨.illegalCmd, c⟩, Cause.noConfusion, rfl⟩

/-! ## The obligations -/

/-- Settles O7: only the CMD write meets the ERR gate; a read or a write of another address never looks at ERR. -/
theorem errGateIgnoresCommands : Obligations.ErrGateIgnoresCommands := by
  refine ⟨fun s c rest h he => ?_, fun s addr rest h _ ha => step_read h ha,
    fun s addr v rest h _ ha hc => step_write h ha hc⟩
  rw [step_command h]
  exact commandWrite_of_err (s := { s with accesses := rest, answer := .done }) c he

/-- Settles O15: the STATUS write performs the return from an error when its bit 0 is 1, and the state after it lets the
next CMD write through the ERR gate. -/
theorem statusWriteReturnsFromError : Obligations.StatusWriteReturnsFromError := by
  refine ⟨fun s v rest h => step_status_write h, fun s v c i rest h hv hd => ?_⟩
  exact ⟨_, step_status_return h hv, rfl, step_command_of_decode rfl rfl hd⟩

/-- Settles O20: a command that completes keeps ERR = 0, so one that raises it took the error entry; ERR_CMD is the
word of the decoded instruction, which is the word the host wrote. -/
theorem errorEntryIsPrecise : Obligations.ErrorEntryIsPrecise := by
  refine ⟨fun i s t hs h ht => ?_, fun s t c rest hacc hs h ht => ?_⟩
  · obtain ⟨e, hcause, rfl⟩ := errorEntry_of_exec hs h ht
    exact ⟨e.cause, e.info, hcause, rfl⟩
  · rw [step_command hacc] at h
    obtain ⟨e, hcause, rfl⟩ := errorEntry_of_commandWrite (s := { s with accesses := rest, answer := .done }) hs h ht
    exact ⟨e.cause, e.info, hcause, rfl⟩

end Sys2Proof.Machine

/-! SUPPORT. The state after reset (70_reset_and_hazards.md R220, R221): power-up and the reset input give the same kind of
state, whose registers read the values of the reset table. -/

namespace Sys2Proof.Machine

/-! ## The states right after reset (70_reset_and_hazards.md R220) -/

/-- The only step at a reset access is the reset; PBUF_BYTES and the accesses to come outlive it (log entry 15). -/
theorem eq_resetWith_of_step_reset {s t : State} {rest : List HostAccess} (h : s.accesses = .reset :: rest)
    (ht : step s = .next t) : t = State.resetWith s.pbufBytes (s.resets + 1) rest := by
  rw [step_reset h] at ht
  cases ht
  rfl

/-- Power-up and the reset input differ only in PBUF_BYTES and in the model's own fields. -/
theorem exists_eq_resetWith {t : State}
    (h : t = State.reset ∨ ∃ (s : State) (rest : List HostAccess), s.accesses = .reset :: rest ∧ step s = .next t) :
    ∃ n k l, t = State.resetWith n k l := by
  rcases h with rfl | ⟨s, rest, hacc, hstep⟩
  · exact ⟨65536, 0, [], rfl⟩
  · exact ⟨_, _, _, eq_resetWith_of_step_reset hacc hstep⟩

/-! ## The indexed registers and PLEN after reset (70_reset_and_hazards.md R221) -/

/-- PLEN follows WPTR (10_state.md R44). -/
theorem plen_of_wptr_eq_zero {s : State} (h : s.wptr = 0x00000000#32) : s.plen = 0x00000000#32 := by
  rw [State.plen, h]
  decide

section ResetWith

variable (n k : Nat) (l : List HostAccess)

@[simp] theorem inp_get_resetWith (i : RegIdx) : (State.resetWith n k l).inp.get i = 0x00000000#32 := by
  cases i <;> rfl

@[simp] theorem out_get_resetWith (i : RegIdx) : (State.resetWith n k l).out.get i = 0x00000000#32 := by
  cases i <;> rfl

@[simp] theorem code_resetWith (j : CodeIdx) : (State.resetWith n k l).code j = 0x00000000#32 := by
  cases j <;> rfl

end ResetWith

/-! ## The obligation -/

/-- Settles O17: every state right after reset is a `State.resetWith`; PLEN follows WPTR = 0, STATUS and irq follow ERR = 0
and the two cleared ready bits, and every other register is a field of it. -/
theorem resetValues : Obligations.ResetValues := by
  refine ⟨fun s rest h => ⟨_, step_reset h, rfl, rfl⟩, fun t ht => ?_⟩
  obtain ⟨n, k, l, rfl⟩ := exists_eq_resetWith ht
  refine ⟨fun r => ?_, rfl, rfl, rfl⟩
  cases r with
  | inp i => exact inp_get_resetWith n k l i
  | out i => exact out_get_resetWith n k l i
  | code j => exact code_resetWith n k l j
  | plen => exact plen_of_wptr_eq_zero rfl
  | _ => rfl

end Sys2Proof.Machine

/-! SUPPORT. The decoder on the word of an instruction (30_encoding.md R80 to R83, R86). -/

namespace Sys2Proof.Machine

/-! ## The fields of a word that holds an operand in its place (30_encoding.md R80, R81) -/

theorem channelNum_injective : Function.Injective channelNum :=
  Function.LeftInverse.injective (g := channelOfNum) fun x => by cases x <;> rfl

theorem regNum_injective : Function.Injective regNum :=
  Function.LeftInverse.injective (g := regOfNum) fun x => by cases x <;> rfl

theorem codeNum_injective : Function.Injective codeNum :=
  Function.LeftInverse.injective (g := codeOfNum) fun x => by cases x <;> rfl

theorem bool_toNat_injective : Function.Injective Bool.toNat :=
  Function.LeftInverse.injective (g := fun n => decide (n = 1)) fun x => by cases x <;> rfl

theorem channelNum_lt (ch : Channel) : channelNum ch < 2 := by cases ch <;> decide

theorem regNum_lt (r : RegIdx) : regNum r < 4 := by cases r <;> decide

theorem codeNum_lt (j : CodeIdx) : codeNum j < 2 := by cases j <;> decide

theorem chField_eq_of {c : Word} {ch : Channel} (h : c.toNat / 2 ^ 8 % 2 ^ 1 = channelNum ch) : chField c = ch :=
  channelNum_injective ((channelNum_chField c).trans h)

theorem srcField_eq_of {c : Word} {r : RegIdx} (h : c.toNat / 2 ^ 9 % 2 ^ 2 = regNum r) : srcField c = r :=
  regNum_injective ((regNum_srcField c).trans h)

theorem dstField_eq_of {c : Word} {r : RegIdx} (h : c.toNat / 2 ^ 11 % 2 ^ 2 = regNum r) : dstField c = r :=
  regNum_injective ((regNum_dstField c).trans h)

theorem cselField_eq_of {c : Word} {j : CodeIdx} (h : c.toNat / 2 ^ 13 % 2 ^ 1 = codeNum j) : cselField c = j :=
  codeNum_injective ((codeNum_cselField c).trans h)

theorem widthField_eq_of {c : Word} {w : Nat} (h : c.toNat / 2 ^ 16 % 2 ^ 5 + 1 = w) : widthField c = w :=
  (congrArg (· + 1) (field_eq c 16 5)).trans h

theorem getLsbD_eq_of {c : Word} {i : Nat} {b : Bool} (h : c.toNat / 2 ^ i % 2 = b.toNat) : c.getLsbD i = b := by
  rw [← Nat.toNat_testBit] at h
  exact bool_toNat_injective h

/-! ## The operand fields and the opcode lie side by side (30_encoding.md R86) -/

theorem widthOk_iff (w : Nat) : widthOk w = true ↔ 1 ≤ w ∧ w ≤ 32 := by
  simp only [widthOk, Bool.and_eq_true, decide_eq_true_eq]

theorem opcodeOf_add_operandBits_lt {i : Instr} (h : i.wellFormed = true) : opcodeOf i + operandBits i < 2 ^ 32 := by
  cases i with
  | config ch => have := channelNum_lt ch; simp only [opcodeOf, operandBits]; omega
  | enc ch r j | dec ch r j =>
    have := channelNum_lt ch
    have := regNum_lt r
    have := codeNum_lt j
    simp only [opcodeOf, operandBits]
    omega
  | pack j w | unpack j w =>
    have := codeNum_lt j
    have := (widthOk_iff w).1 h
    simp only [opcodeOf, operandBits]
    omega
  | cdf ch r | level ch r =>
    have := channelNum_lt ch
    have := regNum_lt r
    simp only [opcodeOf, operandBits]
    omega
  | rstptr pw pr =>
    have := Bool.toNat_lt pw
    have := Bool.toNat_lt pr
    simp only [opcodeOf, operandBits]
    omega
  | _ => decide

theorem encode_toNat {i : Instr} (h : i.wellFormed = true) : (encode i).toNat = opcodeOf i + operandBits i := by
  rw [encode, BitVec.toNat_ofNat, Nat.mod_eq_of_lt (opcodeOf_add_operandBits_lt h)]

/-- The fields of an instruction's word are its operands. -/
theorem instrOf_encode {i : Instr} (h : i.wellFormed = true) : instrOf (encode i) (opcodeOf i) = some i := by
  have hword := encode_toNat h
  cases i with
  | config ch =>
    have := channelNum_lt ch
    simp only [opcodeOf, operandBits] at hword
    change some (Instr.config _) = _
    rw [chField_eq_of (ch := ch) (by omega)]
  | enc ch src j =>
    have := channelNum_lt ch
    have := regNum_lt src
    have := codeNum_lt j
    simp only [opcodeOf, operandBits] at hword
    change some (Instr.enc _ _ _) = _
    rw [chField_eq_of (ch := ch) (by omega), srcField_eq_of (r := src) (by omega), cselField_eq_of (j := j) (by omega)]
  | dec ch dst j =>
    have := channelNum_lt ch
    have := regNum_lt dst
    have := codeNum_lt j
    simp only [opcodeOf, operandBits] at hword
    change some (Instr.dec _ _ _) = _
    rw [chField_eq_of (ch := ch) (by omega), dstField_eq_of (r := dst) (by omega), cselField_eq_of (j := j) (by omega)]
  | pack j w =>
    have := codeNum_lt j
    have := (widthOk_iff w).1 h
    simp only [opcodeOf, operandBits] at hword
    change some (Instr.pack _ _) = _
    rw [cselField_eq_of (j := j) (by omega), widthField_eq_of (w := w) (by omega)]
  | unpack j w =>
    have := codeNum_lt j
    have := (widthOk_iff w).1 h
    simp only [opcodeOf, operandBits] at hword
    change some (Instr.unpack _ _) = _
    rw [cselField_eq_of (j := j) (by omega), widthField_eq_of (w := w) (by omega)]
  | cdf ch src =>
    have := channelNum_lt ch
    have := regNum_lt src
    simp only [opcodeOf, operandBits] at hword
    change some (Instr.cdf _ _) = _
    rw [chField_eq_of (ch := ch) (by omega), srcField_eq_of (r := src) (by omega)]
  | level ch dst =>
    have := channelNum_lt ch
    have := regNum_lt dst
    simp only [opcodeOf, operandBits] at hword
    change some (Instr.level _ _) = _
    rw [chField_eq_of (ch := ch) (by omega), dstField_eq_of (r := dst) (by omega)]
  | rstptr pw pr =>
    have := Bool.toNat_lt pw
    have := Bool.toNat_lt pr
    simp only [opcodeOf, operandBits] at hword
    change some (Instr.rstptr _ _) = _
    rw [getLsbD_eq_of (b := pw) (by omega), getLsbD_eq_of (b := pr) (by omega)]
  | _ => rfl

/-- The word of every well-formed instruction lies in its row of the opcode map (30_encoding.md R82). -/
theorem encode_in_row : ∀ i : Instr, Laws.EncodesInRow.Statement i
  | .nop => Laws.EncodesInRow.nop
  | .config ch => Laws.EncodesInRow.config ch
  | .enc ch src j => Laws.EncodesInRow.enc ch src j
  | .dec ch dst j => Laws.EncodesInRow.dec ch dst j
  | .pack j w => Laws.EncodesInRow.pack j w
  | .unpack j w => Laws.EncodesInRow.unpack j w
  | .encv => Laws.EncodesInRow.encv
  | .decv => Laws.EncodesInRow.decv
  | .encw => Laws.EncodesInRow.encw
  | .decw => Laws.EncodesInRow.decw
  | .cdf ch src => Laws.EncodesInRow.cdf ch src
  | .level ch dst => Laws.EncodesInRow.level ch dst
  | .rstptr pw pr => Laws.EncodesInRow.rstptr pw pr

/-! ## What the decoder gives is well-formed -/

theorem widthOk_widthField (c : Word) : widthOk (widthField c) = true := by
  have hlt : widthField c - 1 < 2 ^ 5 := field_lt c 16 5
  exact (widthOk_iff _).2 ⟨Nat.le_add_left 1 _, by omega⟩

/-- The five-bit width field holds 1 to 32, and every other operand type is bounded by itself. -/
theorem wellFormed_of_instrOf {c : Word} {op : Nat} {i : Instr} (h : instrOf c op = some i) : i.wellFormed = true := by
  obtain rfl := opcodeOf_instrOf h
  cases i with
  | pack j w | unpack j w => cases h; exact widthOk_widthField c
  | _ => rfl

/-! ## The obligations -/

/-- Settles O1: the word of an instruction lies in the row of its opcode, and its fields are the operands. -/
theorem decodeOfEncode : Obligations.DecodeOfEncode := by
  intro i hwf
  obtain ⟨mask, hmask, hrow⟩ := encode_in_row i hwf
  rw [decode_eq_ok, opField_of_row hmask hrow]
  exact ⟨mask, hmask, instrOf_encode hwf, hrow⟩

/-- Settles O2: a legal word is its opcode and its fields side by side, the row fixing every other bit to 0. -/
theorem encodeOfDecode : Obligations.EncodeOfDecode := by
  intro c i h
  obtain ⟨_, _, hi, _⟩ := (decode_eq_ok c i).1 h
  exact ⟨encode_of_decode h, wellFormed_of_instrOf hi⟩

end Sys2Proof.Machine

/-! SUPPORT. Steps of the host bus: a CMD write of a legal word, reads, the register page, and that every step ends in a
state (10_state.md section 3, 20_memory.md R70, 70_reset_and_hazards.md R230). -/

namespace Sys2Proof.Machine

/-! ## A read (20_memory.md R65, R70) -/

/-- What the bus answers to a read. -/
def State.readAnswer (s : State) (addr : BusAddr) : BusAnswer :=
  if misaligned addr then .busFault addr else .data (s.readTarget (targetOf s.pbufBytes addr))

/-- A read changes the pending accesses and the answer only. -/
theorem step_read_answer {s : State} {addr : BusAddr} {rest : List HostAccess} (h : s.accesses = .read addr :: rest) :
    step s = .next { s with accesses := rest, answer := s.readAnswer addr } := by
  unfold State.readAnswer
  cases ha : misaligned addr with
  | true => exact step_misaligned_read h ha
  | false => exact step_read h ha

/-- The answer to a read depends on neither the pending accesses nor the last answer. -/
theorem readAnswer_congr (s : State) (l : List HostAccess) (a : BusAnswer) (addr : BusAddr) :
    { s with accesses := l, answer := a }.readAnswer addr = s.readAnswer addr := by
  unfold State.readAnswer
  rw [readTarget_congr]

/-! ## The registers of the page (10_state.md section 3) -/

theorem targetOf_registerAddr (n : Nat) (r : HostReg) : targetOf n (registerAddr r) = .reg r := by
  rw [registerAddr_eq, targetOf_regAddr]

theorem misaligned_registerAddr (r : HostReg) : misaligned (registerAddr r) = false := by
  rw [registerAddr_eq, misaligned_regAddr]

theorem step_read_register {s : State} {r : HostReg} {rest : List HostAccess}
    (h : s.accesses = .read (registerAddr r) :: rest) :
    step s = .next { s with accesses := rest, answer := .data (s.readReg r) } :=
  step_read_target h (misaligned_registerAddr r) (targetOf_registerAddr _ r)

theorem step_write_register {s : State} {r : HostReg} {v : Word} {rest : List HostAccess} (hcmd : r ≠ .cmd)
    (h : s.accesses = .write (registerAddr r) v :: rest) :
    step s = .next ({ s with accesses := rest, answer := .done }.writeReg v r) :=
  step_write_target h (misaligned_registerAddr r) (targetOf_registerAddr _ r) fun he => hcmd (Target.reg.inj he)

/-- What a read of any register answers depends on neither the pending accesses nor the last answer. -/
theorem readReg_congr (s : State) (l : List HostAccess) (a : BusAnswer) (r : HostReg) :
    { s with accesses := l, answer := a }.readReg r = s.readReg r := readTarget_congr s l a (.reg r)

/-- A host write of a register stores into that register only; PLEN follows WPTR (10_state.md R44, R47). -/
theorem readReg_writeReg_other {s : State} (v : Word) {r r' : HostReg} (hstatus : r ≠ .status) (hne : r' ≠ r)
    (hplen : ¬(r = .wptr ∧ r' = .plen)) : (s.writeReg v r).readReg r' = s.readReg r' := by
  cases r with
  | status => exact absurd rfl hstatus
  | inp i =>
    cases r' with
    | inp i' => exact quad_get_set_other s.inp v fun hi => hne (congrArg HostReg.inp hi)
    | code j => cases j <;> rfl
    | _ => rfl
  | code j =>
    cases r' with
    | code j' => exact setCode_code_other s v fun hj => hne (congrArg HostReg.code hj)
    | _ => cases j <;> rfl
  | wptr =>
    cases r' with
    | wptr => exact absurd rfl hne
    | plen => exact absurd ⟨rfl, rfl⟩ hplen
    | code j => cases j <;> rfl
    | _ => rfl
  | ctrl | vcfg | vparam | wcfg | wparam | vfactor | wfactor | ditherState | prob | rptr =>
    cases r' with
    | code j => cases j <;> rfl
    | _ => first | rfl | exact absurd rfl hne
  | _ => rfl

/-- A clamped pointer (10_state.md R38, R39). -/
theorem clampPointer_eq (s : State) (v : Word) :
    s.clampPointer v = if v.toNat ≤ 8 * s.pbufBytes then v else BitVec.ofNat 32 (8 * s.pbufBytes) := by
  unfold State.clampPointer State.pbufBits
  split_ifs with h
  · rw [min_eq_left h, BitVec.ofNat_toNat, BitVec.setWidth_eq]
  · rw [min_eq_right (by omega)]

/-- A host write changes nothing of a channel but its request and its factor. -/
theorem writeReg_chan (s : State) (v : Word) (r : HostReg) (ch : Channel) :
    ((s.writeReg v r).chan ch).active = (s.chan ch).active ∧ ((s.writeReg v r).chan ch).cfgok = (s.chan ch).cfgok ∧
      ((s.writeReg v r).chan ch).table = (s.chan ch).table := by
  cases r with
  | status =>
    change ((s.writeStatus v).chan ch).active = _ ∧ ((s.writeStatus v).chan ch).cfgok = _ ∧
      ((s.writeStatus v).chan ch).table = _
    unfold State.writeStatus
    split <;> cases ch <;> exact ⟨rfl, rfl, rfl⟩
  | code j => simp [State.writeReg]
  | _ => cases ch <;> exact ⟨rfl, rfl, rfl⟩

/-- A host write of a register touches neither PBUF nor what the model keeps beside the block's state. -/
theorem writeReg_frame (s : State) (v : Word) (r : HostReg) :
    (s.writeReg v r).pbuf = s.pbuf ∧ (s.writeReg v r).pbufBytes = s.pbufBytes ∧ (s.writeReg v r).resets = s.resets ∧
      (s.writeReg v r).accesses = s.accesses ∧ (s.writeReg v r).answer = s.answer := by
  cases r with
  | status =>
    change (s.writeStatus v).pbuf = _ ∧ (s.writeStatus v).pbufBytes = _ ∧ (s.writeStatus v).resets = _ ∧
      (s.writeStatus v).accesses = _ ∧ (s.writeStatus v).answer = _
    unfold State.writeStatus
    split <;> exact ⟨rfl, rfl, rfl, rfl, rfl⟩
  | code j => simp [State.writeReg]
  | _ => exact ⟨rfl, rfl, rfl, rfl, rfl⟩

/-! ## Every step ends in a state (70_reset_and_hazards.md R230) -/

theorem exec_next (i : Instr) (s : State) : ∃ t, exec i s = .next t := by
  rw [exec_eq_complete]
  exact complete_next i s _

theorem commandWrite_next (c : Word) (s : State) : ∃ t, commandWrite c s = .next t := by
  unfold commandWrite
  split_ifs
  · exact ⟨s, rfl⟩
  · cases decode c with
    | ok i => exact exec_next i s
    | error _ => exact ⟨_, rfl⟩

theorem step_next (s : State) : ∃ t, step s = .next t := by
  rcases step_cases s with ⟨_, h⟩ | ⟨_, _, h⟩ | ⟨_, _, _, h⟩ | ⟨_, _, _, _, _, h⟩ | ⟨_, c, _, h⟩ | ⟨_, _, h⟩
  case inr.inr.inr.inr.inl => exact h ▸ commandWrite_next c _
  all_goals exact ⟨_, h⟩

/-! ## The obligations -/

/-- Settles O6: the ERR gate is open, so the decoded instruction runs. -/
theorem stepRunsDecodedCommand : Obligations.StepRunsDecodedCommand :=
  fun _ _ _ _ hacc herr hdec => step_command_of_decode hacc herr hdec

/-- Settles O9: the first read changes only what the second read's answer does not depend on. -/
theorem readsHaveNoSideEffect : Obligations.ReadsHaveNoSideEffect := by
  intro s addr rest h
  have hsame := readAnswer_congr s (.read addr :: rest) (s.readAnswer addr) addr
  refine ⟨s.readAnswer addr, step_read_answer h, (step_read_answer rfl).trans ?_⟩
  rw [hsame]

/-- Settles O13: each register's address names it; the write stores its value in the register, and no other register
reads from where it stores, PLEN excepted. -/
theorem registerWriteStoresByAccessClass : Obligations.RegisterWriteStoresByAccessClass := by
  refine ⟨fun s r rest h => ?read, fun s r v rest hcmd hstatus h => ?write⟩
  case read =>
    rw [step_read_register h]
    cases r with
    | errCause => cases hc : s.errCause <;> simp only [State.readReg, hc] <;> rfl
    | _ => rfl
  case write =>
    obtain ⟨hpbuf, hbytes, hresets, hacc, hanswer⟩ :=
      writeReg_frame { s with accesses := rest, answer := .done } v r
    refine ⟨_, step_write_register hcmd h, ?stored, fun r' hne hplen => ?other, ?length,
      writeReg_chan { s with accesses := rest, answer := .done } v r, hpbuf, hbytes, hresets, hacc, hanswer⟩
    case stored =>
      cases r with
      | cmd => exact absurd rfl hcmd
      | status => exact absurd rfl hstatus
      | inp i => exact quad_get_set_same _ _ _
      | code j => exact setCode_code_same _ _ _
      | wptr | rptr => exact clampPointer_eq _ _
      | _ => rfl
    case other => exact (readReg_writeReg_other v hstatus hne hplen).trans (readReg_congr _ _ _ _)
    case length =>
      rintro rfl
      rfl

/-- Settles O21: a command's result is staged or the error entry, both of which are states. -/
theorem blockNeverStops : Obligations.BlockNeverStops := ⟨exec_next, step_next, fun _ => step_idle⟩

end Sys2Proof.Machine

/-! SUPPORT. What each command writes and leaves (10_state.md R48). -/

namespace Sys2Proof.Machine

/-! ## What a command that completes writes (10_state.md R48) -/

/-- `s` with the registers that command `i` may write, and no others, taken from `t`. -/
def State.writtenBy (s t : State) : Instr → State
  | .nop => s
  | .config ch => s.setChan ch { s.chan ch with
      active := (t.chan ch).active, cfgok := (t.chan ch).cfgok, table := (t.chan ch).table }
  | .enc _ _ j => { s with dither := t.dither }.setCode j (t.code j)
  | .dec _ d _ | .level _ d => s.setOut d (t.out.get d)
  | .pack _ _ => { s with pbuf := t.pbuf, wptr := t.wptr }
  | .unpack j _ => { s.setCode j (t.code j) with rptr := t.rptr }
  | .encv => { s with code0 := t.code0, code1 := t.code1, dither := t.dither, pbuf := t.pbuf, wptr := t.wptr }
  | .decv => { s with
      code0 := t.code0, code1 := t.code1, out := { s.out with q0 := t.out.q0, q1 := t.out.q1 }, rptr := t.rptr }
  | .encw => { s with code0 := t.code0, dither := t.dither, pbuf := t.pbuf, wptr := t.wptr }
  | .decw => { s with code0 := t.code0, out := s.out.fill s.chanW.active.npol (t.out.get .r0), rptr := t.rptr }
  | .cdf _ _ => { s with prob := t.prob }
  | .rstptr pw pr => { s with wptr := if pw then t.wptr else s.wptr, rptr := if pr then t.rptr else s.rptr }

theorem fill_get_fill (q : Quad) (n : Nat) (v : Word) : q.fill n ((q.fill n v).get .r0) = q.fill n v := by
  rcases Nat.eq_zero_or_pos n with rfl | hn
  · rfl
  · rw [quad_get_fill, if_pos (show regNum .r0 < n from hn)]

/-- A command that completes writes its registers and nothing else. -/
theorem staged_eq_writtenBy {i : Instr} {s t : State} (h : staged i s = .ok t) : t = s.writtenBy t i := by
  cases i with
  | nop => cases h; rfl
  | config ch =>
    obtain ⟨a, _, rfl⟩ := (stageConfig_eq_ok _ _ _).1 h
    cases ch <;> rfl
  | enc ch src j =>
    obtain ⟨_, _, q, _, rfl⟩ := (stageEnc_eq_ok _ _ _ _ _).1 h
    cases j <;> rfl
  | dec ch d j =>
    obtain ⟨_, _, v, _, rfl⟩ := (stageDec_eq_ok _ _ _ _ _).1 h
    rw [State.writtenBy, setOut_out, quad_get_set_same]
  | pack j w =>
    obtain ⟨_, _, rfl⟩ := (stagePack_eq_ok _ _ _ _).1 h
    rfl
  | unpack j w =>
    obtain ⟨_, rfl⟩ := (stageUnpack_eq_ok _ _ _ _).1 h
    cases j <;> rfl
  | encv =>
    obtain ⟨_, _, _, q0, q1, _, _, rfl⟩ := (stageEncv_eq_ok _ _).1 h
    rfl
  | decv =>
    obtain ⟨_, _, c0, c1, v0, v1, _, _, _, _, rfl⟩ := (stageDecv_eq_ok _ _).1 h
    rfl
  | encw =>
    obtain ⟨_, _, _, q, _, rfl⟩ := (stageEncw_eq_ok _ _).1 h
    rfl
  | decw =>
    obtain ⟨_, _, c, v, _, _, rfl⟩ := (stageDecw_eq_ok _ _).1 h
    rw [State.writtenBy, advanceRptr_out, fill_get_fill]
    rfl
  | cdf ch src =>
    obtain ⟨_, _, rfl⟩ := (stageCdf_eq_ok _ _ _ _).1 h
    rfl
  | level ch d =>
    obtain ⟨_, rfl⟩ := (stageLevel_eq_ok _ _ _ _).1 h
    rw [State.writtenBy, setOut_out, quad_get_set_same]
  | rstptr pw pr =>
    cases h
    cases pw <;> cases pr <;> rfl

section WrittenBy

variable (s t : State) (i : Instr)

/-- No command writes these. -/
theorem writtenBy_frame : (s.writtenBy t i).ctrl = s.ctrl ∧ (s.writtenBy t i).inp = s.inp ∧
    (s.writtenBy t i).pbufBytes = s.pbufBytes ∧ (s.writtenBy t i).accesses = s.accesses ∧
    (s.writtenBy t i).answer = s.answer ∧ (s.writtenBy t i).resets = s.resets := by
  cases i <;> simp [State.writtenBy]

/-- A command that completes does not write the error record. -/
theorem writtenBy_errorRecord : (s.writtenBy t i).err = s.err ∧ (s.writtenBy t i).errCause = s.errCause ∧
    (s.writtenBy t i).errInfo = s.errInfo ∧ (s.writtenBy t i).errCmd = s.errCmd := by
  cases i <;> simp [State.writtenBy]

/-- No command writes a request or a factor. -/
theorem writtenBy_request (ch : Channel) : ((s.writtenBy t i).chan ch).cfg = (s.chan ch).cfg ∧
    ((s.writtenBy t i).chan ch).param = (s.chan ch).param ∧
    ((s.writtenBy t i).chan ch).factor = (s.chan ch).factor := by
  cases i with
  | config ch' => cases ch <;> cases ch' <;> exact ⟨rfl, rfl, rfl⟩
  | enc _ _ j | unpack j _ => cases ch <;> cases j <;> exact ⟨rfl, rfl, rfl⟩
  | _ => cases ch <;> exact ⟨rfl, rfl, rfl⟩

variable {i}

theorem writtenBy_chan {ch : Channel} (h : i ≠ .config ch) : (s.writtenBy t i).chan ch = s.chan ch := by
  cases i with
  | config ch' => exact setChan_chan_other s _ fun he => h (congrArg Instr.config he.symm)
  | enc _ _ j | unpack j _ => cases ch <;> cases j <;> rfl
  | _ => cases ch <;> rfl

theorem writtenBy_dither (h : quantizes i = false) : (s.writtenBy t i).dither = s.dither := by
  cases i with
  | enc _ _ _ | encv | encw => cases h
  | config ch => exact setChan_dither _ _ _
  | unpack j _ => exact setCode_dither _ _ _
  | _ => rfl

theorem writtenBy_prob (h : ∀ ch src, i ≠ .cdf ch src) : (s.writtenBy t i).prob = s.prob := by
  cases i with
  | cdf ch src => exact absurd rfl (h ch src)
  | config ch => exact setChan_prob _ _ _
  | enc _ _ j | unpack j _ => exact setCode_prob _ _ _
  | _ => rfl

theorem writtenBy_code {j : CodeIdx} (h : writesCode j i = false) : (s.writtenBy t i).code j = s.code j := by
  cases i with
  | enc _ _ k =>
    rw [writesCode, beq_eq_false_iff_ne] at h
    exact (setCode_code_other _ _ h.symm).trans (by cases j <;> rfl)
  | unpack k _ =>
    rw [writesCode, beq_eq_false_iff_ne] at h
    exact (setCode_code_other s (t.code k) h.symm) ▸ by cases j <;> rfl
  | encv | decv => cases h
  | encw | decw =>
    cases j with
    | c0 => cases h
    | c1 => rfl
  | config ch => cases ch <;> cases j <;> rfl
  | _ => cases j <;> rfl

theorem writtenBy_out {k : RegIdx} (h : writesOut s.chanW.active.npol k i = false) :
    (s.writtenBy t i).out.get k = s.out.get k := by
  cases i with
  | dec _ d _ | level _ d =>
    rw [writesOut, beq_eq_false_iff_ne] at h
    exact quad_get_set_other _ _ h.symm
  | decv =>
    cases k with
    | r0 | r1 => cases h
    | r2 | r3 => rfl
  | decw =>
    rw [writesOut, decide_eq_false_iff_not] at h
    exact (quad_get_fill _ _ _ _).trans (if_neg h)
  | config ch => cases ch <;> rfl
  | enc _ _ j | unpack j _ => cases j <;> rfl
  | _ => rfl

theorem writtenBy_pbuf (h : appends i = false) : (s.writtenBy t i).pbuf = s.pbuf := by
  cases i with
  | pack _ _ | encv | encw => cases h
  | config ch => exact setChan_pbuf _ _ _
  | enc _ _ j | unpack j _ => exact setCode_pbuf _ _ _
  | _ => rfl

theorem writtenBy_wptr (h : appends i = false) (hr : ∀ pr, i ≠ .rstptr true pr) : (s.writtenBy t i).wptr = s.wptr := by
  cases i with
  | pack _ _ | encv | encw => cases h
  | config ch => exact setChan_wptr _ _ _
  | enc _ _ j | unpack j _ => exact setCode_wptr _ _ _
  | rstptr pw pr =>
    cases pw with
    | true => exact absurd rfl (hr pr)
    | false => rfl
  | _ => rfl

theorem writtenBy_rptr (h : takes i = false) (hr : ∀ pw, i ≠ .rstptr pw true) : (s.writtenBy t i).rptr = s.rptr := by
  cases i with
  | unpack _ _ | decv | decw => cases h
  | config ch => exact setChan_rptr _ _ _
  | enc _ _ j => exact setCode_rptr _ _ _
  | rstptr pw pr =>
    cases pr with
    | true => exact absurd rfl (hr pw)
    | false => rfl
  | _ => rfl

end WrittenBy

/-! ## The obligation -/

/-- Settles O22: a command that completes writes its registers only, one that fails the error record only. -/
theorem commandsWriteOnlyTheirState : Obligations.CommandsWriteOnlyTheirState := by
  intro i s t h
  rcases (exec_eq_next i s t).1 h with hok | ⟨e, _, rfl⟩
  · have ht := staged_eq_writtenBy hok
    obtain ⟨hctrl, hinp, hbytes, hacc, hanswer, hresets⟩ := writtenBy_frame s t i
    rw [← ht] at hctrl hinp hbytes hacc hanswer hresets
    refine ⟨hctrl, hinp, hbytes, hacc, hanswer, hresets, fun ch => ?_, fun ch hch => ?_, fun hq => ?_, fun hc => ?_,
      fun j hj => ?_, fun k hk => ?_, fun ha j => pbufByte_congr ?_ hresets j, fun ha hr => ?_, fun ht' hr => ?_,
      .inr ?_⟩ <;> rw [ht]
    · exact writtenBy_request s t i ch
    · exact writtenBy_chan s t hch
    · exact writtenBy_dither s t hq
    · exact writtenBy_prob s t hc
    · exact writtenBy_code s t hj
    · exact writtenBy_out s t hk
    · exact writtenBy_pbuf s t ha
    · exact writtenBy_wptr s t ha hr
    · exact writtenBy_rptr s t ht' hr
    · exact writtenBy_errorRecord s t i
  · refine ⟨rfl, rfl, rfl, rfl, rfl, rfl, fun ch => ?_, fun ch _ => ?_, fun _ => rfl, fun _ => rfl, fun j _ => ?_,
      fun _ _ => rfl, fun _ _ => rfl, fun _ _ => rfl, fun _ _ => rfl, .inl rfl⟩
    · cases ch <;> exact ⟨rfl, rfl, rfl⟩
    · cases ch <;> rfl
    · cases j <;> rfl

end Sys2Proof.Machine

/-! SUPPORT. The invariant of the block's states, at reset and over every operation of the state. -/

namespace Sys2Proof.Machine

/-! ## The invariant, operation by operation -/

section Inv

variable {s : State}

theorem State.Inv.setCode (h : s.Inv) (j : CodeIdx) (x : Word) : (s.setCode j x).Inv := by
  cases j <;> exact { h with }

theorem State.Inv.setOut (h : s.Inv) (d : RegIdx) (x : Word) : (s.setOut d x).Inv := { h with }

theorem State.Inv.setDither (h : s.Inv) {x : Word} (hx : x ≠ 0x00000000#32) : { s with dither := x }.Inv :=
  { h with dither := hx }

theorem State.Inv.packBits (h : s.Inv) (c : Word) {w : Nat} (hroom : s.wptr.toNat + w ≤ s.pbufBits) :
    (s.packBits c w).Inv := by
  obtain ⟨hwf, hwithin⟩ := packBits_pbuf_ok s c w h.pbufWf h.pbufWithin hroom
  exact { h with
    wptr := (packBits_wptr_toNat h.pbufBytes hroom).trans_le hroom
    pbufWf := hwf
    pbufWithin := hwithin }

theorem State.Inv.advanceRptr (h : s.Inv) {w : Nat} (hdata : s.rptr.toNat + w ≤ s.wptr.toNat) :
    (s.advanceRptr w).Inv :=
  { h with rptr := (advanceRptr_rptr_toNat hdata).trans_le (hdata.trans h.wptr) }

theorem State.Inv.errorEntry (h : s.Inv) {e : CmdError} (he : e.cause ≠ .none) (c : Word) : (s.errorEntry e c).Inv :=
  { h with cause := iff_of_false he Bool.noConfusion }

theorem State.Inv.clearError (h : s.Inv) : s.clearError.Inv := { h with cause := iff_of_true rfl rfl }

theorem State.Inv.chan (h : s.Inv) (ch : Channel) : ChannelOk ch (s.chan ch) := by
  cases ch
  · exact h.chanV
  · exact h.chanW

theorem State.Inv.setChan (h : s.Inv) {ch : Channel} {c : ChannelState} (hc : ChannelOk ch c) : (s.setChan ch c).Inv := by
  cases ch
  · exact { h with chanV := hc }
  · exact { h with chanW := hc }

/-- The three fields of the model's own are outside the invariant. -/
theorem State.Inv.setBus (h : s.Inv) (l : List HostAccess) (a : BusAnswer) :
    { s with accesses := l, answer := a }.Inv := { h with }

/-- What `validate` accepts is a configuration that a ready channel may hold. -/
theorem activeOk_of_validate {ch : Channel} {cfg param : Word} {a : ActiveConfig}
    (h : validate ch cfg param = .ok a) : ActiveOk ch a := by
  obtain ⟨hb2, hb16, hn1, hn4, k, _, hparam, rfl⟩ := (validate_eq_ok _ _ _ _).1 h
  exact {
    bitsMin := hb2
    bitsMax := hb16
    param := hparam
    npolMin := hn1
    npolMax := hn4
    npolV := fun hv => hv ▸ rfl }

theorem State.Inv.latch (h : s.Inv) {ch : Channel} {a : ActiveConfig} (ha : ActiveOk ch a) : (latch s ch a).Inv :=
  h.setChan { active := fun _ => ha, table := fun _ => rfl, cfgReserved := (h.chan ch).cfgReserved }

theorem quantize_seed_ne_zero {seed : Word} (h : seed ≠ 0x00000000#32) (a : ActiveConfig) (en : Bool) (x f : Word) :
    (quantize a en seed x f).seed ≠ 0x00000000#32 := by
  rw [quantize_seed]
  exact iterate_drawNext_ne_zero h _

/-- Every command that completes keeps the invariant. -/
theorem State.Inv.staged (hs : s.Inv) {i : Instr} {t : State} (h : staged i s = .ok t) : t.Inv := by
  cases i with
  | nop => cases h; exact hs
  | config ch =>
    obtain ⟨a, hv, rfl⟩ := (stageConfig_eq_ok _ _ _).1 h
    exact hs.latch (activeOk_of_validate hv)
  | enc ch src j =>
    obtain ⟨_, _, q, rfl, rfl⟩ := (stageEnc_eq_ok _ _ _ _ _).1 h
    exact (hs.setDither (quantize_seed_ne_zero hs.dither _ _ _ _)).setCode _ _
  | dec ch d j =>
    obtain ⟨_, _, v, _, rfl⟩ := (stageDec_eq_ok _ _ _ _ _).1 h
    exact hs.setOut d v
  | pack j w =>
    obtain ⟨_, hroom, rfl⟩ := (stagePack_eq_ok _ _ _ _).1 h
    exact hs.packBits _ hroom
  | unpack j w =>
    obtain ⟨hdata, rfl⟩ := (stageUnpack_eq_ok _ _ _ _).1 h
    exact (hs.setCode j _).advanceRptr (by rwa [setCode_rptr, setCode_wptr])
  | encv =>
    obtain ⟨_, hroom, _, q0, q1, hq0, hq1, rfl⟩ := (stageEncv_eq_ok _ _).1 h
    have hseed0 : q0.seed ≠ 0x00000000#32 := hq0 ▸ quantize_seed_ne_zero hs.dither _ _ _ _
    have hseed1 : q1.seed ≠ 0x00000000#32 := hq1 ▸ quantize_seed_ne_zero hseed0 _ _ _ _
    have hcodes := ((hs.setDither hseed1).setCode .c0 (BitVec.ofNat 32 q0.code)).setCode .c1 (BitVec.ofNat 32 q1.code)
    rw [Nat.two_mul, ← Nat.add_assoc] at hroom
    have hroom0 := (Nat.le_add_right _ _).trans hroom
    exact (hcodes.packBits _ hroom0).packBits _ (by rwa [packBits_wptr_toNat hcodes.pbufBytes hroom0])
  | decv =>
    obtain ⟨_, hdata, c0, c1, v0, v1, _, _, _, _, rfl⟩ := (stageDecv_eq_ok _ _).1 h
    exact State.Inv.advanceRptr (s := { s with
      code0 := BitVec.ofNat 32 c0
      code1 := BitVec.ofNat 32 c1
      out := { s.out with q0 := v0, q1 := v1 } }) { hs with } hdata
  | encw =>
    obtain ⟨_, hroom, _, q, rfl, rfl⟩ := (stageEncw_eq_ok _ _).1 h
    exact ((hs.setDither (quantize_seed_ne_zero hs.dither _ _ _ _)).setCode .c0 _).packBits _ hroom
  | decw =>
    obtain ⟨_, hdata, c, v, _, _, rfl⟩ := (stageDecw_eq_ok _ _).1 h
    exact State.Inv.advanceRptr (s := { s with
      code0 := BitVec.ofNat 32 c
      out := s.out.fill s.chanW.active.npol v }) { hs with } hdata
  | cdf ch src =>
    obtain ⟨_, _, rfl⟩ := (stageCdf_eq_ok _ _ _ _).1 h
    exact { hs with }
  | level ch d =>
    obtain ⟨_, rfl⟩ := (stageLevel_eq_ok _ _ _ _).1 h
    exact hs.setOut d _
  | rstptr pw pr =>
    cases h
    exact { hs with
      wptr := by
        cases pw with
        | true => exact Nat.zero_le _
        | false => exact hs.wptr
      rptr := by
        cases pr with
        | true => exact Nat.zero_le _
        | false => exact hs.rptr }

theorem State.Inv.exec (hs : s.Inv) {i : Instr} {t : State} (h : exec i s = .next t) : t.Inv := by
  rcases (exec_eq_next i s t).1 h with hok | ⟨e, he, rfl⟩
  · exact hs.staged hok
  · exact hs.errorEntry (staged_error_cause he) _

theorem State.Inv.commandWrite (hs : s.Inv) {c : Word} {t : State} (h : commandWrite c s = .next t) : t.Inv := by
  rcases commandWrite_cases h with ⟨_, rfl⟩ | ⟨_, i, _, hexec⟩ | ⟨_, _, rfl⟩
  · exact hs
  · exact hs.exec hexec
  · exact hs.errorEntry Cause.noConfusion c

/-! ## The invariant over a host write -/

theorem ChannelOk.setCfg {ch : Channel} {c : ChannelState} (h : ChannelOk ch c) (v : Word) :
    ChannelOk ch { c with cfg := v &&& cfgMask ch } :=
  { active := h.active, table := h.table, cfgReserved := by rw [BitVec.and_assoc, BitVec.and_self] }

theorem clampPointer_le (hs : s.Inv) (v : Word) : (s.clampPointer v).toNat ≤ s.pbufBits := by
  have := pbufBits_le hs.pbufBytes
  rw [State.clampPointer, BitVec.toNat_ofNat, Nat.mod_eq_of_lt (by omega)]
  exact min_le_right _ _

theorem State.Inv.writeReg (hs : s.Inv) (v : Word) (r : HostReg) : (s.writeReg v r).Inv := by
  cases r with
  | ctrl => exact { hs with ctrlReserved := by rw [State.writeReg, BitVec.and_assoc, BitVec.and_self] }
  | status =>
    change (s.writeStatus v).Inv
    unfold State.writeStatus
    split_ifs
    · exact hs.clearError
    · exact hs
  | vcfg => exact hs.setChan (ch := .v) (hs.chanV.setCfg v)
  | wcfg => exact hs.setChan (ch := .w) (hs.chanW.setCfg v)
  | vparam | vfactor => exact hs.setChan (ch := .v) { hs.chanV with }
  | wparam | wfactor => exact hs.setChan (ch := .w) { hs.chanW with }
  | ditherState =>
    refine hs.setDither ?_
    split_ifs with hv
    · decide
    · exact hv
  | code j => exact hs.setCode j v
  | wptr => exact { hs with wptr := clampPointer_le hs v }
  | rptr => exact { hs with rptr := clampPointer_le hs v }
  | _ => exact { hs with }

theorem State.Inv.setPbufWord (hs : s.Inv) {k : Nat} (v : Word) (hk : 4 * k + 4 ≤ s.pbufBytes) :
    (s.setPbufWord k v).Inv := by
  obtain ⟨hwf, hwithin⟩ := setPbufWord_pbuf_ok s k v hs.pbufWf hs.pbufWithin hk
  exact { hs with pbufWf := hwf, pbufWithin := hwithin }

/-- A write keeps the invariant at every address: one that names a window word names one within PBUF. -/
theorem State.Inv.writeTarget (hs : s.Inv) (v : Word) (addr : BusAddr) :
    (s.writeTarget v (targetOf s.pbufBytes addr)).Inv := by
  cases htgt : targetOf s.pbufBytes addr with
  | reg r => exact hs.writeReg v r
  | pbuf k =>
    have hk := pbuf_of_targetOf htgt
    exact hs.setPbufWord v (by omega)
  | table _ _ => exact hs
  | unmapped => exact hs

end Inv

/-! ## The invariant at reset and over a step -/

theorem channelOk_reset (ch : Channel) : ChannelOk ch ChannelState.reset where
  active h := absurd h Bool.false_ne_true
  table h := absurd h Bool.false_ne_true
  cfgReserved := by cases ch <;> rfl

theorem inv_resetWith {n : Nat} (hn : Config.pbufBytesOk n = true) (k : Nat) (l : List HostAccess) :
    (State.resetWith n k l).Inv where
  pbufBytes := hn
  ctrlReserved := (by decide : 0x00000001#32 &&& ctrlMask = 0x00000001#32)
  cause := iff_of_true rfl rfl
  chanV := channelOk_reset .v
  chanW := channelOk_reset .w
  dither := (by decide : (0x00000001#32 : Word) ≠ 0x00000000#32)
  wptr := Nat.zero_le _
  rptr := Nat.zero_le _
  pbufWf := rfl
  pbufWithin := rfl

theorem State.Inv.step {s t : State} (hs : s.Inv) (h : step s = .next t) : t.Inv := by
  rcases step_cases s with ⟨_, hstep⟩ | ⟨rest, _, hstep⟩ | ⟨rest, _, _, hstep⟩ | ⟨rest, addr, v, _, _, hstep⟩ |
    ⟨rest, c, _, hstep⟩ | ⟨rest, _, hstep⟩ <;> rw [hstep] at h
  case inr.inr.inr.inr.inl => exact (hs.setBus rest .done).commandWrite h
  all_goals cases h
  · exact hs
  · exact hs.setBus rest _
  · exact hs.setBus rest _
  · exact (hs.setBus rest .done).writeTarget v addr
  · exact inv_resetWith hs.pbufBytes _ rest

/-! ## The obligations -/

/-- Settles O19: each operation of the state keeps the invariant, and a step is made of them. -/
theorem stepKeepsInv : Obligations.StepKeepsInv := fun _ _ hs h => hs.step h

/-- Settles O18: no channel is ready, the pointers are 0 and nothing is written. -/
theorem invAtReset : Obligations.InvAtReset := ⟨fun _ k l hn => inv_resetWith hn k l, inv_resetWith rfl 0 []⟩

end Sys2Proof.Machine

/-! SUPPORT. Where each command completes and with what: PACK and UNPACK, CONFIG, CDF and LEVEL, and the quantizing and
decoding commands (10_state.md R48, 40_distribution.md, 41_quantizer.md, 42_weight.md, 43_bitpack.md). -/

namespace Sys2Proof.Machine

/-! ## The stream after an append (43_bitpack.md R170, R171) -/

/-- Bytes that an append does not reach. -/
theorem pbufByte_packBits_other {s : State} {c : Word} {w j : Nat}
    (hj : j < s.wptr.toNat / 8 ∨ (s.wptr.toNat + w + 7) / 8 ≤ j) : (s.packBits c w).pbufByte j = s.pbufByte j := by
  rw [pbufByte_packBits, if_neg]
  unfold bytesFor
  omega

/-- Bit `i` of the code word of a code. -/
theorem getLsbD_ofNat_code (c : Nat) {i : Nat} (hi : i < 32) : (BitVec.ofNat 32 c).getLsbD i = c.testBit i := by
  rw [BitVec.getLsbD_ofNat, decide_eq_true hi, Bool.true_and]

/-- Every stream bit after the append of one code of at most 32 bits. -/
theorem pbufBit_packBits_code (s : State) (c : Nat) {b : Nat} (hb : b ≤ 32) (k : Nat) :
    (s.packBits (BitVec.ofNat 32 c) b).pbufBit k =
      if k < s.wptr.toNat then s.pbufBit k
      else if k < s.wptr.toNat + b then c.testBit (k - s.wptr.toNat)
      else if k < 8 * ((s.wptr.toNat + b + 7) / 8) then false
      else s.pbufBit k := by
  rw [pbufBit_packBits]
  by_cases hold : k < s.wptr.toNat
  · rw [if_pos hold, if_pos hold]
  rw [if_neg hold, if_neg hold]
  by_cases hnew : k < s.wptr.toNat + b
  · rw [if_pos hnew, if_pos hnew, getLsbD_ofNat_code c (by omega)]
  · rw [if_neg hnew, if_neg hnew]
    rfl

section TwoCodes

variable {s : State} (c0 c1 : Nat) {b : Nat} (hpbuf : Config.pbufBytesOk s.pbufBytes = true)
  (hroom : s.wptr.toNat + 2 * b ≤ s.pbufBits)
include hpbuf hroom

theorem packBits_first_wptr : (s.packBits (BitVec.ofNat 32 c0) b).wptr.toNat = s.wptr.toNat + b :=
  packBits_wptr_toNat hpbuf (by omega)

theorem packBits_two_wptr :
    ((s.packBits (BitVec.ofNat 32 c0) b).packBits (BitVec.ofNat 32 c1) b).wptr.toNat = s.wptr.toNat + 2 * b := by
  have hfirst := packBits_first_wptr c0 hpbuf hroom
  rw [Nat.two_mul, ← Nat.add_assoc, ← hfirst] at hroom ⊢
  exact packBits_wptr_toNat hpbuf hroom

/-- Every stream bit after the append of two codes one after the other. -/
theorem pbufBit_packBits_two (hb : b ≤ 32) (k : Nat) :
    ((s.packBits (BitVec.ofNat 32 c0) b).packBits (BitVec.ofNat 32 c1) b).pbufBit k =
      if k < s.wptr.toNat then s.pbufBit k
      else if k < s.wptr.toNat + b then c0.testBit (k - s.wptr.toNat)
      else if k < s.wptr.toNat + 2 * b then c1.testBit (k - s.wptr.toNat - b)
      else if k < 8 * ((s.wptr.toNat + 2 * b + 7) / 8) then false
      else s.pbufBit k := by
  rw [pbufBit_packBits_code _ c1 hb, packBits_first_wptr c0 hpbuf hroom, pbufBit_packBits_code s c0 hb,
    Nat.add_assoc s.wptr.toNat b b, ← Nat.two_mul, Nat.sub_sub]
  by_cases hold : k < s.wptr.toNat
  · rw [if_pos hold, if_pos (by omega), if_pos hold]
  rw [if_neg hold, if_neg hold]
  by_cases hfirst : k < s.wptr.toNat + b
  · rw [if_pos hfirst, if_pos hfirst, if_pos hfirst]
  rw [if_neg hfirst, if_neg hfirst, if_neg hfirst]
  by_cases hsecond : k < s.wptr.toNat + 2 * b
  · rw [if_pos hsecond, if_pos hsecond]
  rw [if_neg hsecond, if_neg hsecond]
  by_cases hpad : k < 8 * ((s.wptr.toNat + 2 * b + 7) / 8)
  · rw [if_pos hpad, if_pos hpad]
  · rw [if_neg hpad, if_neg hpad, if_neg (by omega)]

theorem pbufByte_packBits_two_other {j : Nat} (hj : j < s.wptr.toNat / 8 ∨ (s.wptr.toNat + 2 * b + 7) / 8 ≤ j) :
    ((s.packBits (BitVec.ofNat 32 c0) b).packBits (BitVec.ofNat 32 c1) b).pbufByte j = s.pbufByte j := by
  rw [pbufByte_packBits_other (by rw [packBits_first_wptr c0 hpbuf hroom]; omega), pbufByte_packBits_other (by omega)]

end TwoCodes

/-! ## QUANT as the rule writes it (41_quantizer.md R132, R134) -/

theorem quantIndex_eq (b : Nat) (p d : Int) :
    quantIndex b p d = (min (max ((p + d) / 2 ^ (32 - b)) 0) (2 ^ b - 2)).toNat := by
  unfold quantIndex
  push_cast
  rfl

theorem ditherOf_eq (b : Nat) (r : Word) : ditherOf b r = ((r.toNat / 2 ^ b : Nat) - 2 ^ (31 - b) : Int) := by
  unfold ditherOf
  push_cast
  rfl

/-! ## Where the commands complete -/

theorem exec_cdf_of_number {s : State} {ch : Channel} {src : RegIdx} (hready : (s.chan ch).cfgok = true)
    (hnan : isNaN (s.inp.get src) = false) : exec (.cdf ch src) s =
      .next { s with prob := cdfq (s.chan ch).active.dist (s.chan ch).active.param (s.inp.get src) } :=
  complete_of_ok ((stageCdf_eq_ok ch src s _).2 ⟨hready, hnan, rfl⟩)

theorem exec_level_of_ready {s : State} {ch : Channel} (d : RegIdx) (hready : (s.chan ch).cfgok = true) :
    exec (.level ch d) s =
      .next (s.setOut d (s.tabEntry ch (s.prob.toNat / 2 ^ (32 - (s.chan ch).active.bits)))) :=
  complete_of_ok ((stageLevel_eq_ok ch d s _).2 ⟨hready, rfl⟩)

/-- The bin of a probability code is one of the `2^b`. -/
theorem bin_lt {b : Nat} (hb : b ≤ 32) (p : Word) : p.toNat / 2 ^ (32 - b) < 2 ^ b := by
  rw [Nat.div_lt_iff_lt_mul (by positivity), ← pow_add, Nat.add_sub_cancel' hb]
  exact p.isLt

/-! ## CONFIG (40_distribution.md R100 to R103) -/

theorem paramOk_of_test {k : DistKind} {p : Word} (h : k = .truncatedGaussian ∨ k = .studentsT →
    isNaN p = false ∧ isInf p = false ∧ isZero p = false ∧ neg p = false) : paramOk k p = true := by
  have hpos (h : isNaN p = false ∧ isInf p = false ∧ isZero p = false ∧ neg p = false) : positiveFinite p = true := by
    obtain ⟨hnan, hinf, hzero, hneg⟩ := h
    simp only [positiveFinite, hnan, hinf, hzero, hneg, Bool.not_false, Bool.and_self]
  cases k with
  | uniform | gaussian => rfl
  | truncatedGaussian => exact hpos (h (.inl rfl))
  | studentsT => exact hpos (h (.inr rfl))

/-- The probability of a bin midpoint is strictly between 0 and 1, so its Uniform quantile is between −1 and 1. -/
theorem bounds_of_isCdf_uniform {p z : ℝ} {b i : Nat} (hi : i < 2 ^ b)
    (h : IsCdf .uniform p z ((2 * (i : ℝ) + 1) / 2 ^ (b + 1))) : -1 < z ∧ z < 1 := by
  obtain ⟨hpos, hlt⟩ := midpoint_pos_lt hi
  rcases h with ⟨_, h0⟩ | ⟨hlow, hhigh, _⟩ | ⟨_, h1⟩
  · exact absurd h0 hpos.ne'
  · exact ⟨hlow, hhigh⟩
  · exact absurd h1 hlt.ne

/-- (T1) of every kind: an entry whose quantile is beyond the binary32 range saturates (40_distribution.md R107). -/
theorem invt_saturates {k : DistKind} {p : Word} (hp : paramOk k p = true) {b i : Nat} (hb2 : 2 ≤ b) (hb16 : b ≤ 16)
    (hi : i < 2 ^ b) :
    (QuantileAbove k p b i → invt k p b i = maxFinite) ∧ (QuantileBelow k p b i → invt k p b i = minFinite) := by
  by_cases hk : k = .uniform
  · subst hk
    have hmax : (1 : ℝ) ≤ realValue maxFinite := by rw [realValue_maxFinite]; norm_num
    constructor
    · rintro ⟨z, hz, hcdf⟩
      have := bounds_of_isCdf_uniform hi hcdf
      linarith
    · rintro ⟨z, hz, hcdf⟩
      rw [realValue_minFinite_neg] at hz
      have := bounds_of_isCdf_uniform hi hcdf
      linarith
  · rw [invt_open hk]
    exact (dist_lawful hk hp).entriesSaturate b i hb2 hb16 hi

theorem realValue_maxFinite_real : (realValue maxFinite : ℝ) = (2 ^ 24 - 1) * 2 ^ 104 := by
  rw [realValue_maxFinite]
  norm_num

/-- The entries of a channel right after an accepted CONFIG. -/
theorem tabEntry_latch (s : State) (ch : Channel) (a : ActiveConfig) (i : Nat) :
    (latch s ch a).tabEntry ch i = if i < 2 ^ a.bits then invt a.dist a.param a.bits i else 0x00000000#32 :=
  tabEntry_of_table (by rw [latch, setChan_chan_same]) i

/-! ## The obligations -/

/-- Settles O24: PACK completes with PackBits. -/
theorem packAppendsCode : Obligations.PackAppendsCode := by
  intro s j w _ _ hcode hroom hpbuf
  exact ⟨_, exec_pack_of_fits hcode hroom, rfl, packBits_wptr_toNat hpbuf hroom, pbufBit_packBits s _ w,
    fun _ hm => pbufByte_packBits_other hm⟩

/-- Settles O25: UNPACK completes with StreamBits at RPTR, whose bits are the stream's. -/
theorem unpackReadsCode : Obligations.UnpackReadsCode := by
  intro s j w _ _ hdata
  refine ⟨_, exec_unpack_of_data j hdata, ?_, ?_, fun i hi => ?_⟩
  · cases j <;> rfl
  · rw [advanceRptr_rptr_toNat (by rwa [setCode_rptr, setCode_wptr]), setCode_rptr]
  · have hcode : ((s.setCode j (BitVec.ofNat 32 (s.streamBits s.rptr.toNat w))).advanceRptr w).code j =
        BitVec.ofNat 32 (s.streamBits s.rptr.toNat w) := setCode_code_same s j _
    rw [hcode, getLsbD_ofNat_code _ hi, testBit_streamBits]

/-- Settles O26: the request passes the tests, so CONFIG latches it; the saturation is (T1) of the table's functions. -/
theorem configLatchesAcceptedRequest : Obligations.ConfigLatchesAcceptedRequest := by
  intro s ch b n k p hb hb2 hb16 hk hp hparam hn hn1 hn4
  rw [← cfgBits_eq] at hb
  rw [← cfgDist_eq] at hk
  rw [← cfgNpol_eq] at hn
  have hnpol : n = requestedNpol ch (s.chan ch).cfg := by
    cases ch with
    | v => exact hn
    | w => exact hn
  have hparam' : paramOk k p = true := paramOk_of_test hparam
  have hvalid : validate ch (s.chan ch).cfg (s.chan ch).param = .ok ⟨b, k, p, n⟩ := by
    rw [validate_eq_ok, ← hb, ← hp, ← hnpol]
    exact ⟨hb2, hb16, hn1, hn4, k, hk, hparam', rfl⟩
  have hentry := tabEntry_latch s ch ⟨b, k, p, n⟩
  have hin {i : Nat} (hi : i < 2 ^ b) : (latch s ch ⟨b, k, p, n⟩).tabEntry ch i = invt k p b i :=
    (hentry i).trans (if_pos hi)
  refine ⟨_, exec_config_of_accepted hvalid, ?_, hentry, fun hkind i q hi => ?_, fun i z hi hcdf => ⟨?_, ?_⟩⟩
  · cases ch <;> rfl
  · have hunused : kindHasParam k = false := by rcases hkind with rfl | rfl <;> rfl
    rw [hin hi, invt_paramUnused hunused p q]
  · intro hz
    rw [hin hi]
    exact (invt_saturates hparam' hb2 hb16 hi).1 ⟨z, by rwa [realValue_maxFinite_real], hcdf⟩
  · intro hz
    rw [hin hi]
    exact (invt_saturates hparam' hb2 hb16 hi).2 ⟨z, by rwa [realValue_minFinite_neg, realValue_maxFinite_real], hcdf⟩

/-- Settles O27: QUANT, case by case. -/
theorem encWritesQuantizedCode : Obligations.EncWritesQuantizedCode := by
  rintro s ch src j b x f p hready rfl _ _ rfl rfl rfl
  refine ⟨fun hnan => ?_, fun hnan hfactor hdither => ?_, fun hnan hfactor hdither => ?_⟩
  · exact exec_enc_of_quantize j hready (fun h => absurd h (by simp [hnan])) (quantize_nan _ _ _ _ _ hnan)
  · rw [exec_enc_of_quantize j hready (fun _ => hfactor) (hdither ▸ quantize_plain _ _ _ _ hnan), quantIndex_eq,
      Int.add_zero]
    rfl
  · rw [exec_enc_of_quantize j hready (fun _ => hfactor) (hdither ▸ quantize_dithered _ _ _ _ hnan), quantIndex_eq,
      ditherOf_eq]
    rfl

/-- Settles O28: DEC completes with what DEQ gives. -/
theorem decWritesDecodedValue : Obligations.DecWritesDecodedValue := by
  intro s ch d j v hready hlt hdec
  exact exec_dec_of_dequantize d hready rfl (Nat.le_sub_one_of_lt hlt) ((decodes_iff _ _ _ _ _).1 hdec)

/-- Settles O29: CDF completes for a number, and the kinds without a parameter do not use it. -/
theorem cdfWritesProbability : Obligations.CdfWritesProbability := by
  intro s ch src hready hnan
  refine ⟨exec_cdf_of_number hready hnan, fun hkind q => ?_⟩
  have hunused : kindHasParam (s.chan ch).active.dist = false := by rcases hkind with h | h <;> rw [h] <;> rfl
  rw [exec_cdf_of_number hready hnan, cdfq_paramUnused hunused (s.chan ch).active.param q]

/-- Settles O30: LEVEL completes, and a probability code has `32 − b` bits below its bin. -/
theorem levelReadsBin : Obligations.LevelReadsBin := by
  rintro s ch d b hready rfl _ hb16
  exact ⟨exec_level_of_ready d hready, bin_lt (by omega) _⟩

/-- Settles O31: ENCV completes with two PackBits, real code first. -/
theorem encvQuantizesAndAppends : Obligations.EncvQuantizesAndAppends := by
  rintro s b f q0 q1 hready rfl _ hb16 hroom hpbuf rfl hfactor hq0 hq1
  have hvalid (h : isNaN s.inp.q0 = false ∨ isNaN s.inp.q1 = false) : validFactor s.chanV.factor = true := by
    rcases hfactor with ⟨h0, h1⟩ | hf
    · simp [h0, h1] at h
    · exact hf
  have hstaged := (stageEncv_eq_ok s _).2 ⟨hready, hroom, hvalid, q0, q1, hq0, hq1, rfl⟩
  exact ⟨_, complete_of_ok hstaged, rfl,
    packBits_two_wptr (s := { s with dither := _, code0 := _, code1 := _ }) q0.code q1.code hpbuf hroom,
    pbufBit_packBits_two (s := { s with dither := _, code0 := _, code1 := _ }) q0.code q1.code hpbuf hroom (by omega),
    fun _ hm => pbufByte_packBits_two_other (s := { s with dither := _, code0 := _, code1 := _ }) q0.code q1.code
      hpbuf hroom hm⟩

/-- Settles O32: DECV completes with what DEQ gives for each code. -/
theorem decvDecodesPair : Obligations.DecvDecodesPair := by
  rintro s b c0 c1 v0 v1 hready rfl _ _ hdata hc0 hc1 hv0 hv1
  exact complete_of_ok ((stageDecv_eq_ok s _).2 ⟨hready, hdata, c0, c1, v0, v1, hc0, hc1, (decodes_iff _ _ _ _ _).1 hv0,
    (decodes_iff _ _ _ _ _).1 hv1, rfl⟩)

/-- Settles O33: ENCW completes with one PackBits of the code of the minimum. -/
theorem encwQuantizesMinimum : Obligations.EncwQuantizesMinimum := by
  rintro s b f x q hready rfl _ hb16 hroom hpbuf rfl hx hn1 hn4 hfactor hq
  have hmin : s.inp.wmin s.chanW.active.npol = x := by
    rw [hx]
    generalize s.chanW.active.npol = n at hn1 hn4 ⊢
    interval_cases n <;> rfl
  have hvalid (h : isNaN x = false) : validFactor s.chanW.factor = true :=
    hfactor.resolve_left (by simp [h])
  have hstaged := (stageEncw_eq_ok s _).2 ⟨hready, hroom, hmin.symm ▸ hvalid, q, hmin.symm ▸ hq, rfl⟩
  exact ⟨_, complete_of_ok hstaged, rfl, packBits_wptr_toNat (s := { s with dither := _, code0 := _ }) hpbuf hroom,
    pbufBit_packBits_code { s with dither := _, code0 := _ } q.code (by omega), fun _ hm => pbufByte_packBits_other hm⟩

/-- Settles O34: DECW completes with the outputs filled with what DEQ gives. -/
theorem decwReplicatesValue : Obligations.DecwReplicatesValue := by
  rintro s b c v hready rfl _ _ hdata hc hv
  exact ⟨_, complete_of_ok ((stageDecw_eq_ok s _).2 ⟨hready, hdata, c, v, hc, (decodes_iff _ _ _ _ _).1 hv, rfl⟩), rfl,
    fun k => quad_get_fill _ _ _ k⟩

end Sys2Proof.Machine

/-! SUPPORT. Which error each command raises, one inversion lemma per command (60_exceptions.md R191, R197). -/

namespace Sys2Proof.Machine

/-! ## A command that fails -/

theorem exec_of_staged_error {i : Instr} {s : State} {c : Cause} {w : Word} (h : staged i s = .error ⟨c, w⟩) :
    exec i s = .next (s.failed i c w) := by
  rw [exec_eq_complete]
  exact complete_of_error h

/-! ## What each command can raise, in order -/

theorem staged_error_iff (a e : CmdError) : (Except.error a : Except CmdError State) = .error e ↔ e = a := by
  rw [Except.error.injEq, eq_comm]

theorem stageEnc_eq_error (ch : Channel) (src : RegIdx) (j : CodeIdx) (s : State) (e : CmdError) :
    stageEnc ch src j s = .error e ↔
      ((s.chan ch).cfgok = false ∧ e = ⟨.notConfigured, channelWord ch⟩) ∨
        ((s.chan ch).cfgok = true ∧ isNaN (s.inp.get src) = false ∧ validFactor (s.chan ch).factor = false ∧
          e = ⟨.factor, (s.chan ch).factor⟩) := by
  unfold stageEnc
  rw [whenConfigured_eq_error, whenFactor_eq_error]
  simp only [Bool.not_eq_true', reduceCtorEq, and_false, or_false]

theorem stageDec_eq_error (ch : Channel) (d : RegIdx) (j : CodeIdx) (s : State) (e : CmdError) :
    stageDec ch d j s = .error e ↔
      ((s.chan ch).cfgok = false ∧ e = ⟨.notConfigured, channelWord ch⟩) ∨
        ((s.chan ch).cfgok = true ∧
          ((sentinel (s.chan ch).active < (s.code j).toNat ∧ e = ⟨.rangeCode, s.code j⟩) ∨
            ((s.code j).toNat ≤ sentinel (s.chan ch).active ∧
              dequantize s ch (s.code j).toNat (s.chan ch).factor = .error e))) := by
  unfold stageDec
  rw [whenConfigured_eq_error]
  by_cases h : sentinel (s.chan ch).active < (s.code j).toNat
  · rw [if_pos h, staged_error_iff]
    simp [h, Nat.not_le_of_lt h]
  · rw [if_neg h, withValue_eq_error]
    simp [h, Nat.le_of_not_lt h]

theorem stageCdf_eq_error (ch : Channel) (src : RegIdx) (s : State) (e : CmdError) : stageCdf ch src s = .error e ↔
    ((s.chan ch).cfgok = false ∧ e = ⟨.notConfigured, channelWord ch⟩) ∨
      ((s.chan ch).cfgok = true ∧ isNaN (s.inp.get src) = true ∧ e = ⟨.cdfNan, s.inp.get src⟩) := by
  unfold stageCdf
  rw [whenConfigured_eq_error]
  cases isNaN (s.inp.get src) with
  | true => rw [if_pos rfl, staged_error_iff, eq_self, true_and]
  | false => simp

theorem stageLevel_eq_error (ch : Channel) (d : RegIdx) (s : State) (e : CmdError) : stageLevel ch d s = .error e ↔
    (s.chan ch).cfgok = false ∧ e = ⟨.notConfigured, channelWord ch⟩ := by
  unfold stageLevel
  rw [whenConfigured_eq_error]
  simp only [reduceCtorEq, and_false, or_false]

theorem stageEncv_eq_error (s : State) (e : CmdError) : stageEncv s = .error e ↔
    (s.chanV.cfgok = false ∧ e = ⟨.notConfigured, channelWord .v⟩) ∨
      (s.chanV.cfgok = true ∧
        ((s.pbufBits < s.wptr.toNat + 2 * s.chanV.active.bits ∧ e = ⟨.pbufOverflow, s.wptr⟩) ∨
          (s.wptr.toNat + 2 * s.chanV.active.bits ≤ s.pbufBits ∧ (isNaN s.inp.q0 = false ∨ isNaN s.inp.q1 = false) ∧
            validFactor s.chanV.factor = false ∧ e = ⟨.factor, s.chanV.factor⟩))) := by
  unfold stageEncv
  rw [whenConfigured_eq_error, whenRoom_eq_error, whenFactor_eq_error]
  simp only [chan_v, Bool.or_eq_true, Bool.not_eq_true', reduceCtorEq, and_false, or_false]

theorem stageDecv_eq_error (s : State) (e : CmdError) : stageDecv s = .error e ↔
    (s.chanV.cfgok = false ∧ e = ⟨.notConfigured, channelWord .v⟩) ∨
      (s.chanV.cfgok = true ∧
        ((s.wptr.toNat < s.rptr.toNat + 2 * s.chanV.active.bits ∧ e = ⟨.pbufUnderrun, s.rptr⟩) ∨
          (s.rptr.toNat + 2 * s.chanV.active.bits ≤ s.wptr.toNat ∧
            (dequantize s .v (s.streamBits s.rptr.toNat s.chanV.active.bits) s.chanV.factor = .error e ∨
              ∃ v0, dequantize s .v (s.streamBits s.rptr.toNat s.chanV.active.bits) s.chanV.factor = .ok v0 ∧
                dequantize s .v (s.streamBits (s.rptr.toNat + s.chanV.active.bits) s.chanV.active.bits)
                  s.chanV.factor = .error e)))) := by
  unfold stageDecv
  rw [whenConfigured_eq_error, whenData_eq_error]
  simp only [chan_v, withValue_eq_error, reduceCtorEq, and_false, exists_false, or_false]

theorem stageDecw_eq_error (s : State) (e : CmdError) : stageDecw s = .error e ↔
    (s.chanW.cfgok = false ∧ e = ⟨.notConfigured, channelWord .w⟩) ∨
      (s.chanW.cfgok = true ∧
        ((s.wptr.toNat < s.rptr.toNat + s.chanW.active.bits ∧ e = ⟨.pbufUnderrun, s.rptr⟩) ∨
          (s.rptr.toNat + s.chanW.active.bits ≤ s.wptr.toNat ∧
            dequantize s .w (s.streamBits s.rptr.toNat s.chanW.active.bits) s.chanW.factor = .error e))) := by
  unfold stageDecw
  rw [whenConfigured_eq_error, whenData_eq_error]
  simp only [chan_w, withValue_eq_error, reduceCtorEq, and_false, exists_false, or_false]

theorem stagePack_eq_error (j : CodeIdx) (w : Nat) (s : State) (e : CmdError) : stagePack j w s = .error e ↔
    ((w < 32 ∧ 2 ^ w ≤ (s.code j).toNat) ∧ e = ⟨.packCode, s.code j⟩) ∨
      (¬(w < 32 ∧ 2 ^ w ≤ (s.code j).toNat) ∧ s.pbufBits < s.wptr.toNat + w ∧ e = ⟨.pbufOverflow, s.wptr⟩) := by
  unfold stagePack
  by_cases h : w < 32 ∧ 2 ^ w ≤ (s.code j).toNat
  · rw [if_pos (by simpa using h), staged_error_iff]
    simp [h]
  · rw [if_neg (by simpa using h), whenRoom_eq_error]
    simp only [h, false_and, not_false_eq_true, true_and, false_or, reduceCtorEq, and_false, or_false]

theorem stageUnpack_eq_error (j : CodeIdx) (w : Nat) (s : State) (e : CmdError) : stageUnpack j w s = .error e ↔
    s.wptr.toNat < s.rptr.toNat + w ∧ e = ⟨.pbufUnderrun, s.rptr⟩ := by
  unfold stageUnpack
  rw [whenData_eq_error]
  simp only [reduceCtorEq, and_false, or_false]

/-! ## What DEQ raises, with the sentinel as the rule writes it (41_quantizer.md R136) -/

theorem ne_sentinel_of {a : ActiveConfig} {c : Nat} (h : c + 1 ≠ 2 ^ a.bits) : c ≠ sentinel a := by
  have : 0 < 2 ^ a.bits := by positivity
  unfold sentinel
  omega

section Dequantize

variable {s : State} {ch : Channel} {c : Nat} {f : Word}

theorem dequantize_of_invalid (hc : c + 1 ≠ 2 ^ (s.chan ch).active.bits) (hf : validFactor f = false) :
    dequantize s ch c f = .error ⟨.factor, f⟩ :=
  (dequantize_eq_error _ _ _ _ _).2 ⟨ne_sentinel_of hc, .inl ⟨hf, rfl⟩⟩

theorem dequantize_of_overflow (hc : c + 1 ≠ 2 ^ (s.chan ch).active.bits) (hf : validFactor f = true)
    (hinf : isInf (fmul32 (s.tabEntry ch c) (effFactor f)) = true) :
    dequantize s ch c f = .error ⟨.decOverflow, BitVec.ofNat 32 c⟩ :=
  (dequantize_eq_error _ _ _ _ _).2 ⟨ne_sentinel_of hc, .inr ⟨hf, hinf, rfl⟩⟩

theorem dequantize_of_sentinel (hc : c + 1 = 2 ^ (s.chan ch).active.bits) : dequantize s ch c f = .ok qnan :=
  (decodes_iff _ _ _ _ _).1 (.inl ⟨hc, rfl⟩)

end Dequantize

/-! ## The obligations -/

/-- Settles O36: the two errors of ENC. -/
theorem encErrors : Obligations.EncErrors := by
  intro s ch src j
  rw [← channelWord_eq]
  have herr := stageEnc_eq_error ch src j s
  refine ⟨fun hready => ?_, fun hready hnan hfactor => ?_⟩ <;> refine exec_of_staged_error ((herr _).2 ?_)
  · exact .inl ⟨hready, rfl⟩
  · exact .inr ⟨hready, hnan, hfactor, rfl⟩

/-- Settles O38: the error of LEVEL, and the two of CDF. -/
theorem cdfAndLevelErrors : Obligations.CdfAndLevelErrors := by
  intro s ch r
  rw [← channelWord_eq]
  have hcdf := stageCdf_eq_error ch r s
  refine ⟨fun hready => ⟨?_, ?_⟩, fun hready hnan => ?_⟩
  · exact exec_of_staged_error ((hcdf _).2 (.inl ⟨hready, rfl⟩))
  · exact exec_of_staged_error ((stageLevel_eq_error ch r s _).2 ⟨hready, rfl⟩)
  · exact exec_of_staged_error ((hcdf _).2 (.inr ⟨hready, hnan, rfl⟩))

/-- Settles O37: a code of the bit depth is at most the sentinel, and below it DEQ checks factor and product. -/
theorem decErrors : Obligations.DecErrors := by
  rintro s ch d j n c f rfl rfl rfl
  rw [← channelWord_eq]
  have hpos : 0 < 2 ^ (s.chan ch).active.bits := by positivity
  have herr := stageDec_eq_error ch d j s
  have hrange (h : (s.code j).toNat + 1 < 2 ^ (s.chan ch).active.bits) :
      (s.code j).toNat ≤ sentinel (s.chan ch).active := by
    unfold sentinel
    omega
  refine ⟨fun hready => ?_, fun hready hc => ?_, fun hready hc hf => ?_, fun hready hc hf hinf => ?_⟩ <;>
    refine exec_of_staged_error ((herr _).2 ?_)
  · exact .inl ⟨hready, rfl⟩
  · refine .inr ⟨hready, .inl ⟨?_, rfl⟩⟩
    unfold sentinel
    omega
  · exact .inr ⟨hready, .inr ⟨hrange hc, dequantize_of_invalid hc.ne hf⟩⟩
  · have hdeq := dequantize_of_overflow hc.ne hf hinf
    rw [BitVec.ofNat_toNat, BitVec.setWidth_eq] at hdeq
    exact .inr ⟨hready, .inr ⟨hrange hc, hdeq⟩⟩

/-- Settles O39: the three errors of ENCV. -/
theorem encvErrors : Obligations.EncvErrors := by
  rintro s b f rfl rfl
  have herr := stageEncv_eq_error s
  refine ⟨fun hready => ?_, fun hready hfull => ?_, fun hready hroom hnan hf => ?_⟩ <;>
    refine exec_of_staged_error ((herr _).2 ?_)
  · exact .inl ⟨hready, rfl⟩
  · exact .inr ⟨hready, .inl ⟨hfull, rfl⟩⟩
  · exact .inr ⟨hready, .inr ⟨hroom, hnan, hf, rfl⟩⟩

/-- Settles O40: DEQ of the imaginary code is reached where the real code decodes, the sentinel always doing so. -/
theorem decvErrors : Obligations.DecvErrors := by
  rintro s b c0 c1 f rfl rfl rfl rfl
  have herr := stageDecv_eq_error s
  refine ⟨fun hready => ?_, fun hready hshort => ?_, fun hready hdata hcode hf => ?_, fun hready hdata hc0 hf hinf => ?_,
    fun v0 hready hdata hv0 hc1 hf hinf => ?_⟩ <;> refine exec_of_staged_error ((herr _).2 ?_)
  · exact .inl ⟨hready, rfl⟩
  · exact .inr ⟨hready, .inl ⟨hshort, rfl⟩⟩
  · refine .inr ⟨hready, .inr ⟨hdata, ?_⟩⟩
    by_cases hc0 : s.streamBits s.rptr.toNat s.chanV.active.bits + 1 = 2 ^ s.chanV.active.bits
    · exact .inr ⟨qnan, dequantize_of_sentinel hc0,
        dequantize_of_invalid (ch := .v) (hcode.resolve_left fun h => h hc0) hf⟩
    · exact .inl (dequantize_of_invalid (ch := .v) hc0 hf)
  · exact .inr ⟨hready, .inr ⟨hdata, .inl (dequantize_of_overflow hc0 hf hinf)⟩⟩
  · have hreal := (decodes_iff _ _ _ _ _).1 hv0
    exact .inr ⟨hready, .inr ⟨hdata, .inr ⟨v0, hreal, dequantize_of_overflow hc1 hf hinf⟩⟩⟩

/-- Settles O41: the three errors of ENCW. -/
theorem encwErrors : Obligations.EncwErrors := by
  rintro s b f rfl rfl
  have herr := stageEncw_eq_error s
  refine ⟨fun hready => ?_, fun hready hfull => ?_, fun hready hroom hnan hf => ?_⟩ <;>
    refine exec_of_staged_error ((herr _).2 ?_)
  · exact .inl ⟨hready, rfl⟩
  · exact .inr ⟨hready, .inl ⟨hfull, rfl⟩⟩
  · exact .inr ⟨hready, .inr ⟨hroom, hnan, hf, rfl⟩⟩

/-- Settles O42: the checks of DECW, then those of DEQ. -/
theorem decwErrors : Obligations.DecwErrors := by
  rintro s b c f rfl rfl rfl
  have herr := stageDecw_eq_error s
  refine ⟨fun hready => ?_, fun hready hshort => ?_, fun hready hdata hc hf => ?_, fun hready hdata hc hf hinf => ?_⟩ <;>
    refine exec_of_staged_error ((herr _).2 ?_)
  · exact .inl ⟨hready, rfl⟩
  · exact .inr ⟨hready, .inl ⟨hshort, rfl⟩⟩
  · exact .inr ⟨hready, .inr ⟨hdata, dequantize_of_invalid hc hf⟩⟩
  · exact .inr ⟨hready, .inr ⟨hdata, dequantize_of_overflow hc hf hinf⟩⟩

/-- Settles O43: the two errors of PACK, and the one of UNPACK. -/
theorem packAndUnpackErrors : Obligations.PackAndUnpackErrors := by
  intro s j w _ _
  have hpack := stagePack_eq_error j w s
  refine ⟨fun hw hcode => ?_, fun hcode hfull => ?_, fun hshort => ?_⟩
  · exact exec_of_staged_error ((hpack _).2 (.inl ⟨⟨hw, hcode⟩, rfl⟩))
  · exact exec_of_staged_error ((hpack _).2 (.inr ⟨fun h => absurd hcode (not_lt.2 h.2), hfull, rfl⟩))
  · exact exec_of_staged_error ((stageUnpack_eq_error j w s _).2 ⟨hshort, rfl⟩)

end Sys2Proof.Machine

/-! SUPPORT. The draws and the mean of the dithered codes (41_quantizer.md R131, R139, R145), the effective factor (R133), and
the minimum of weights (42_weight.md R160). -/

namespace Sys2Proof.Machine

/-! ## The sign of a value (41_quantizer.md R133) -/

theorem realValue_zero : realValue 0x00000000#32 = 0 := by
  have h : scaled 0x00000000#32 = 0 := by decide
  rw [realValue, h, Int.cast_zero, zero_div]

theorem realValue_one32 : realValue one32 = 1 := by
  rw [realValue, scaled_one32]
  norm_num

theorem realValue_minusOne : realValue 0xBF800000#32 = -1 := by
  rw [realValue, scaled_minusOne]
  norm_num

theorem realValue_lt_iff (v w : Word) : realValue v < realValue w ↔ realRank v < realRank w := by
  rw [← not_le, ← not_le, realValue_le_iff]

theorem realRank_nonneg_iff (v : Word) : 0 ≤ realRank v ↔ isZero v = true ∨ neg v = false := by
  rw [isZero_iff, realRank]
  cases neg v with
  | true =>
    rw [if_pos rfl]
    simp only [Bool.true_eq_false, or_false]
    omega
  | false => simp

theorem realRank_pos_iff (v : Word) : 0 < realRank v ↔ isZero v = false ∧ neg v = false := by
  rw [← Bool.not_eq_true, isZero_iff, realRank]
  cases neg v with
  | true => simp
  | false =>
    simp only [Bool.false_eq_true, if_false, and_true]
    omega

theorem realValue_nonneg_iff (v : Word) : 0 ≤ realValue v ↔ isZero v = true ∨ neg v = false := by
  rw [← realRank_nonneg_iff, ← realValue_zero, realValue_le_iff]
  rfl

theorem realValue_pos_iff (v : Word) : 0 < realValue v ↔ isZero v = false ∧ neg v = false := by
  rw [← realRank_pos_iff, ← realValue_zero, realValue_lt_iff]
  rfl

theorem validFactor_iff (f : Word) : validFactor f = true ↔ isFinite f = true ∧ (isZero f = true ∨ neg f = false) := by
  rw [isFinite_iff_not_isNaN_isInf]
  simp only [validFactor, Bool.and_eq_true, Bool.not_eq_true', Bool.or_eq_true]

theorem effFactor_of_zero {f : Word} (h : isZero f = true) : effFactor f = one32 := if_pos h

theorem effFactor_of_ne_zero {f : Word} (h : isZero f = false) : effFactor f = f := if_neg (by simp [h])

/-! ## The mean over the dithers (41_quantizer.md R139) -/

/-- The bin width `M` is twice the bound of the dither. -/
theorem binWidth_eq_two_mul {b : Nat} (hb : b ≤ 31) : 2 ^ (32 - b) = 2 * 2 ^ (31 - b) := by
  rw [← pow_succ']
  congr 1
  omega

/-- Over `M` consecutive numbers the quotients by `M` add up to the first number. -/
theorem sum_range_add_div {M : Nat} (hM : 0 < M) (q : Nat) : ∑ u ∈ Finset.range M, (q + u) / M = q := by
  induction q with
  | zero => exact Finset.sum_eq_zero fun u hu => by rw [Nat.zero_add, Nat.div_eq_of_lt (Finset.mem_range.1 hu)]
  | succ q ih =>
    have hshift := Finset.sum_range_succ' (fun u => (q + u) / M) M
    simp only [Finset.sum_range_succ, ih, Nat.add_div_right q hM, Nat.add_zero] at hshift
    have hterm : ∑ u ∈ Finset.range M, (q + 1 + u) / M = ∑ u ∈ Finset.range M, (q + (u + 1)) / M :=
      Finset.sum_congr rfl fun u _ => by rw [Nat.add_right_comm, Nat.add_assoc]
    omega

/-- Off the clamped ends QUANT is the bin of the dithered probability code. -/
theorem quantIndex_of_unclamped {b n : Nat} {p d : Int} (hsum : p + d = n)
    (hn : n < (2 ^ b - 1) * 2 ^ (32 - b)) : quantIndex b p d = n / 2 ^ (32 - b) := by
  have hlt : n / 2 ^ (32 - b) < 2 ^ b - 1 := by rwa [Nat.div_lt_iff_lt_mul (by positivity)]
  rw [quantIndex, hsum, ← Int.natCast_div]
  generalize n / 2 ^ (32 - b) = q at hlt ⊢
  generalize 2 ^ b = N at hlt ⊢
  omega

/-! ## The minimum of weights (42_weight.md R160) -/

theorem isNaN_fmin32 (a b : Word) : isNaN (fmin32 a b) = true ↔ isNaN a = true ∨ isNaN b = true := by
  simp only [← weightKey_eq_bot_iff, weightKey_fmin32, min_eq_bot]

theorem isNaN_foldl_fmin32 (l : List Word) (a : Word) :
    isNaN (l.foldl fmin32 a) = true ↔ ∃ x ∈ a :: l, isNaN x = true := by
  induction l generalizing a with
  | nil => simp
  | cons b l ih => simp [ih, isNaN_fmin32, or_assoc]

theorem exists_get_of_mem_weights {q : Quad} {n : Nat} {x : Word} (h : x ∈ q.weights n) :
    ∃ k, regNum k < n ∧ q.get k = x := by
  rw [Quad.weights, List.mem_take_iff_getElem] at h
  obtain ⟨i, hi, rfl⟩ := h
  have hlt : i < n ∧ i < 4 := lt_min_iff.1 hi
  refine ⟨regOfNum i, ?_, ?_⟩
  · rw [regNum_regOfNum hlt.2]
    exact hlt.1
  · obtain ⟨-, h4⟩ := hlt
    interval_cases i <;> rfl

theorem isNaN_wmin_iff (q : Quad) {n : Nat} (hn : 1 ≤ n) :
    isNaN (q.wmin n) = true ↔ ∃ k : RegIdx, regNum k < n ∧ isNaN (q.get k) = true := by
  constructor
  · intro h
    obtain ⟨m, rfl⟩ : ∃ m, n = m + 1 := ⟨n - 1, by omega⟩
    obtain ⟨x, hx, hnan⟩ := (isNaN_foldl_fmin32 _ _).1 h
    obtain ⟨k, hk, rfl⟩ := exists_get_of_mem_weights (n := m + 1) hx
    exact ⟨k, hk, hnan⟩
  · rintro ⟨k, hk, hnan⟩
    exact isNaN_wmin_of_isNaN hk hnan

theorem fmin32_of_isNaN {a b : Word} (h : isNaN a = true ∨ isNaN b = true) : fmin32 a b = qnan :=
  if_pos ((Bool.or_eq_true _ _).mpr h)

theorem fmin32_of_isZero {a b : Word} (ha : isZero a = true) (hb : isZero b = true) :
    fmin32 a b = if neg a = true ∨ neg b = true then 0x80000000#32 else 0x00000000#32 := by
  have hnum {v : Word} (h : isZero v = true) : isNaN v = false := by
    rw [← Bool.not_eq_true, isNaN_iff, (isZero_iff v).1 h]
    decide
  rw [fmin32, hnum ha, hnum hb, ha, hb]
  simp

/-- The order of the numbers with −0 below +0 refines the real order. -/
theorem realRank_le_of_patternRank_le {a b : Word} (h : patternRank a ≤ patternRank b) : realRank a ≤ realRank b := by
  rw [patternRank, patternRank] at h
  rw [realRank, realRank]
  split_ifs at h ⊢ <;> omega

/-- The minimum of two numbers is one of them, and the least in the real order. -/
theorem fmin32_of_numbers {a b : Word} (ha : isNaN a = false) (hb : isNaN b = false) :
    (fmin32 a b = a ∨ fmin32 a b = b) ∧ realRank (fmin32 a b) = min (realRank a) (realRank b) := by
  have hnum : isNaN (fmin32 a b) = false := by
    rw [← Bool.not_eq_true, isNaN_fmin32, ha, hb]
    simp
  have hkey := weightKey_fmin32 a b
  rw [weightKey_of_number hnum, weightKey_of_number ha, weightKey_of_number hb, ← WithBot.coe_min, WithBot.coe_inj] at hkey
  rcases le_total (patternRank a) (patternRank b) with hle | hle
  · rw [min_eq_left hle] at hkey
    rw [patternRank_injective hkey, min_eq_left (realRank_le_of_patternRank_le hle)]
    exact ⟨.inl rfl, rfl⟩
  · rw [min_eq_right hle] at hkey
    rw [patternRank_injective hkey, min_eq_right (realRank_le_of_patternRank_le hle)]
    exact ⟨.inr rfl, rfl⟩

/-! ## The obligations -/

/-- Settles O44: a draw is a composition of three injective maps, and 0 is its own draw. -/
theorem drawNeverReachesZero : Obligations.DrawNeverReachesZero :=
  ⟨fun _ _ h => drawNext_injective h, fun n _ h => iterate_drawNext_ne_zero h n, by decide, by decide, by decide,
    by decide, by decide, by decide, by decide⟩

/-- Settles O49: a command that raises an error keeps DITHER_STATE, one that completes has made its draws. -/
theorem drawsAreAccounted : Obligations.DrawsAreAccounted := by
  intro i s t hs h
  constructor
  · intro ht
    obtain ⟨e, _, rfl⟩ := errorEntry_of_exec hs h ht
    rfl
  · intro ht
    exact staged_dither (staged_ok_of_exec h ht)

/-- Settles O46: on finite patterns the sign decides, −0 being 0. -/
theorem factorIsValidOrReplaced : Obligations.FactorIsValidOrReplaced := by
  intro f
  refine ⟨?_, fun hzero => ?_, effFactor_of_ne_zero, fun hvalid => ?_⟩
  · rw [validFactor_iff, realValue_nonneg_iff]
  · rw [effFactor_of_zero hzero, realValue_one32]
  · obtain ⟨hfin, hsign⟩ := (validFactor_iff f).1 hvalid
    cases hzero : isZero f with
    | true =>
      rw [effFactor_of_zero hzero, realValue_one32]
      exact ⟨by decide, one_pos⟩
    | false =>
      rw [effFactor_of_ne_zero hzero, realValue_pos_iff]
      exact ⟨hfin, hzero, hsign.resolve_left (by simp [hzero])⟩

/-- Settles O47: off the clamped ends the codes are the quotients of `M` consecutive numbers by `M`. -/
theorem ditheredCodeIsUnbiased : Obligations.DitheredCodeIsUnbiased := by
  intro b p hb2 hb16 hlow hhigh
  have hM := binWidth_eq_two_mul (b := b) (by omega)
  have hN : 2 ^ 2 ≤ 2 ^ b := Nat.pow_le_pow_right (by decide) hb2
  obtain ⟨q, rfl⟩ := Nat.exists_eq_add_of_le' hlow
  have hlast : q + 2 ^ (32 - b) ≤ (2 ^ b - 1) * 2 ^ (32 - b) := by
    zify [show 1 ≤ 2 ^ b by omega, show 3 ≤ 2 * 2 ^ b by omega] at hhigh hM ⊢
    rw [hM] at hhigh ⊢
    linarith
  have hcode (u : Nat) (hu : u ∈ Finset.range (2 ^ (32 - b))) :
      quantIndex b (q + 2 ^ (31 - b) : Nat) ((u : Int) - 2 ^ (31 - b)) = (q + u) / 2 ^ (32 - b) := by
    have hlt := Finset.mem_range.1 hu
    exact quantIndex_of_unclamped (by push_cast; ring) (by omega)
  have hsum := sum_range_add_div (M := 2 ^ (32 - b)) (by positivity) q
  calc ∑ u ∈ Finset.range (2 ^ (32 - b)),
        (2 * (quantIndex b (q + 2 ^ (31 - b) : Nat) ((u : Int) - 2 ^ (31 - b)) : Int) + 1)
      = ∑ u ∈ Finset.range (2 ^ (32 - b)), (2 * ((q + u) / 2 ^ (32 - b) : Nat) + 1 : Int) :=
        Finset.sum_congr rfl fun u hu => by rw [hcode u hu]
    _ = 2 * q + 2 ^ (32 - b) := by
        rw [Finset.sum_add_distrib, ← Finset.mul_sum, ← Nat.cast_sum, hsum]
        simp
    _ = 2 * ((q + 2 ^ (31 - b) : Nat) : Int) := by
        zify at hM
        push_cast
        rw [hM]
        ring

/-- Settles O56: `fmin32` is the minimum in an order that refines the real one and puts NaN lowest. -/
theorem minimumOfWeights : Obligations.MinimumOfWeights :=
  ⟨fun _ _ => ⟨fmin32_of_isNaN, fmin32_of_numbers, fmin32_of_isZero⟩, fun _ => rfl,
    fun q _ hn _ => isNaN_wmin_iff q hn⟩

end Sys2Proof.Machine

/-! SUPPORT. The named properties of Uniform, and CDF followed by LEVEL (40_distribution.md R106, R107, R113). -/

namespace Sys2Proof.Machine

/-! ## Uniform against the real distribution (40_distribution.md R104 to R107) -/

theorem realRank_le_minusOne_iff (x : Word) : realRank x ≤ realRank 0xBF800000#32 ↔ (realValue x : ℝ) ≤ -1 := by
  rw [← realValue_le_iff, realValue_minusOne]
  exact_mod_cast Iff.rfl

theorem realRank_one_le_iff (x : Word) : realRank one32 ≤ realRank x ↔ (1 : ℝ) ≤ realValue x := by
  rw [← realValue_le_iff, realValue_one32]
  exact_mod_cast Iff.rfl

/-- Between −1 and 1 the code is the floor of the exact probability code. -/
theorem uniformCdf_eq_floor {x : Word} (hlow : (-1 : ℝ) < realValue x) (hhigh : (realValue x : ℝ) < 1) :
    ((uniformCdf x).toNat : Int) = ⌊(realValue x + 1) / 2 * 2 ^ 32⌋ := by
  rw [floor_uniform_code]
  refine uniformCdf_between (not_le.1 fun h => ?_) (not_le.1 fun h => ?_)
  · exact absurd ((realRank_le_minusOne_iff x).1 h) (not_le.2 hlow)
  · exact absurd ((realRank_one_le_iff x).1 h) (not_le.2 hhigh)

/-- CDFQ of Uniform is the ideal code (40_distribution.md R106 Q4). -/
theorem uniformCdf_ideal {p y : ℝ} {x : Word} {code : Int} (hcdf : IsCdf .uniform p (realValue x) y)
    (hcode : IsIdealCode y code) : ((uniformCdf x).toNat : Int) = code := by
  rw [hcode]
  rcases hcdf with ⟨hx, rfl⟩ | ⟨hlow, hhigh, rfl⟩ | ⟨hx, rfl⟩
  · rw [uniformCdf_of_le_minusOne ((realRank_le_minusOne_iff x).2 hx)]
    norm_num
  · have hlt := (uniformCdf x).isLt
    have hfloor : ⌊((realValue x : ℝ) + 1) / 2 * 2 ^ 32⌋ = ((uniformCdf x).toNat : Int) := by
      rw [uniformCdf_eq_floor hlow hhigh, ← Rat.floor_cast (α := ℝ)]
      push_cast
      rfl
    rw [hfloor]
    omega
  · rw [uniformCdf_of_one_le ((realRank_one_le_iff x).2 hx)]
    norm_num

/-- The Uniform quantile of a bin midpoint is the entry's value. -/
theorem eq_realValue_of_isCdf_uniform {p z : ℝ} {b i : Nat} (hb16 : b ≤ 16) (hi : i < 2 ^ b)
    (h : IsCdf .uniform p z ((2 * (i : ℝ) + 1) / 2 ^ (b + 1))) : z = (realValue (uniformInv b i) : ℝ) := by
  obtain ⟨hpos, hlt⟩ := midpoint_pos_lt hi
  rcases h with ⟨_, h0⟩ | ⟨_, _, hmid⟩ | ⟨_, h1⟩
  · exact absurd h0 hpos.ne'
  · rw [(uniformInv_exact hb16 hi).2]
    push_cast
    rw [pow_succ, ← div_div, div_left_inj' two_ne_zero] at hmid
    linarith
  · exact absurd h1 hlt.ne

theorem realValue_uniformInv_bounds {b i : Nat} (hb16 : b ≤ 16) (hi : i < 2 ^ b) :
    (-1 : ℝ) < realValue (uniformInv b i) ∧ (realValue (uniformInv b i) : ℝ) < 1 := by
  have hlt : (2 * (i : ℝ) + 1) / 2 ^ b < 2 := by
    rw [div_lt_iff₀ (by positivity)]
    exact_mod_cast (by omega : 2 * i + 1 < 2 * 2 ^ b)
  have hpos : 0 < (2 * (i : ℝ) + 1) / 2 ^ b := by positivity
  rw [(uniformInv_exact hb16 hi).2]
  push_cast
  constructor <;> linarith

/-- (Q5) of Uniform: an entry lies in its own bin. -/
theorem uniformCdf_uniformInv_bin {b i : Nat} (hb16 : b ≤ 16) (hi : i < 2 ^ b) :
    (uniformCdf (uniformInv b i)).toNat / 2 ^ (32 - b) = i := by
  obtain ⟨hlow, hhigh⟩ := realValue_uniformInv_bounds hb16 hi
  have hcode : (uniformCdf (uniformInv b i)).toNat = (2 * i + 1) * 2 ^ (31 - b) := by
    have hpow : (2 : ℚ) ^ 32 = 2 ^ b * (2 * 2 ^ (31 - b)) := by
      rw [← pow_succ', ← pow_add]
      congr 1
      omega
    have hval : (realValue (uniformInv b i) + 1) / 2 * 2 ^ 32 = (((2 * i + 1) * 2 ^ (31 - b) : Int) : ℚ) := by
      rw [(uniformInv_exact hb16 hi).2, hpow]
      push_cast
      field_simp
      ring
    have hfloor := uniformCdf_eq_floor hlow hhigh
    rw [hval, Int.floor_intCast] at hfloor
    exact_mod_cast hfloor
  rw [hcode, binWidth_eq_two_mul (by omega), Nat.mul_div_mul_right _ _ (by positivity)]
  omega

/-- Of a table entry below the top one, CDFQ lies in a bin below the top one with the same entry
(40_distribution.md R106 Q5, R113). -/
theorem invt_bin {k : DistKind} {p : Word} (hp : paramOk k p = true) {b i : Nat} (hb2 : 2 ≤ b) (hb16 : b ≤ 16)
    (hi : i + 2 ≤ 2 ^ b) : (cdfq k p (invt k p b i)).toNat / 2 ^ (32 - b) + 2 ≤ 2 ^ b ∧
      invt k p b ((cdfq k p (invt k p b i)).toNat / 2 ^ (32 - b)) = invt k p b i := by
  by_cases hk : k = .uniform
  · subst hk
    rw [cdfq_uniform, invt_uniform, uniformCdf_uniformInv_bin hb16 (by omega)]
    exact ⟨hi, rfl⟩
  · simp only [cdfq_open hk, invt_open hk]
    obtain ⟨-, hbin⟩ := (dist_lawful hk hp).binConsistent b i hb2 hb16 hi
    exact hbin

/-! ## CDF, then LEVEL (40_distribution.md R113) -/

/-- LEVEL right after CDF reads the bin of the probability code. -/
theorem exec_cdf_level {s : State} {ch : Channel} {src : RegIdx} (d : RegIdx) (hready : (s.chan ch).cfgok = true)
    (hnan : isNaN (s.inp.get src) = false) :
    ∃ t u, exec (.cdf ch src) s = .next t ∧ exec (.level ch d) t = .next u ∧
      u.out.get d = s.tabEntry ch ((cdfq (s.chan ch).active.dist (s.chan ch).active.param (s.inp.get src)).toNat /
        2 ^ (32 - (s.chan ch).active.bits)) := by
  refine ⟨_, _, exec_cdf_of_number hready hnan, exec_level_of_ready d ?_, (quad_get_set_same _ _ _).trans ?_⟩
  · cases ch <;> exact hready
  · cases ch <;> rfl

/-! ## The obligations -/

/-- Settles O53: Uniform is exact, so it has every property with no tolerance. -/
theorem uniformIsLawful : Obligations.UniformIsLawful := by
  intro p
  exact {
    monotone := fun x y _ _ h => uniformCdf_mono h
    ends := by
      have hlow : uniformCdf 0xFF800000#32 = 0x00000000#32 := uniformCdf_of_le_minusOne (by decide)
      have hhigh : uniformCdf 0x7F800000#32 = 0xFFFFFFFF#32 := uniformCdf_of_one_le (by decide)
      exact ⟨hlow, hhigh, nofun⟩
    cdfAccurate := fun x y code _ hcdf _ _ hcode => by
      change |((uniformCdf x).toNat : Int) - code| ≤ (0 : Nat)
      rw [uniformCdf_ideal hcdf hcode, sub_self, abs_zero, Nat.cast_zero]
    binConsistent := fun b i _ hb16 hi => by
      have hbin : (uniformCdf (uniformInv b i)).toNat / 2 ^ (32 - b) = i := uniformCdf_uniformInv_bin hb16 (by omega)
      have hnext : (uniformCdf (uniformInv b i)).toNat / 2 ^ (32 - b) + 2 ≤ 2 ^ b := by rwa [hbin]
      exact ⟨fun _ => hbin, hnext, congrArg (uniformInv b) hbin⟩
    entriesFinite := fun b i hb2 hb16 hi => isFinite_invt (k := .uniform) (p := p) rfl hb2 hb16 hi
    entriesSaturate := fun b i hb2 hb16 hi => invt_saturates (k := .uniform) rfl hb2 hb16 hi
    entriesSorted := fun b i hb2 hb16 hi => realRank_invt_le_succ (k := .uniform) (p := p) rfl hb2 hb16 hi
    invAccurate := fun b i z w hb2 hb16 hi hcdf ⟨_, hnearest⟩ => by
      change |realValue (uniformInv b i) - realValue w| ≤ 0
      obtain ⟨hle, -⟩ := hnearest (uniformInv b i) (uniformInv_exact hb16 hi).1
      rw [eq_realValue_of_isCdf_uniform hb16 hi hcdf, sub_self, abs_zero, abs_nonpos_iff, sub_eq_zero] at hle
      rw [abs_nonpos_iff, sub_eq_zero]
      exact_mod_cast hle.symm
    paramUnused := fun _ q => ⟨fun _ => rfl, fun _ _ => rfl⟩ }

/-- Settles O55: LEVEL reads the bin of CDFQ, and an entry below the top one lies in a bin with the same entry. -/
theorem cdfThenLevelFindsBin : Obligations.CdfThenLevelFindsBin := by
  intro s ch src d hch hready hnan
  obtain ⟨hb2, hb16, hparam, -, -, -⟩ := hch.active hready
  obtain ⟨t, u, ht, hu, hout⟩ := exec_cdf_level d hready hnan
  refine ⟨t, u, ht, hu, hout, fun i hi hsrc => ?_⟩
  have hentry {k : Nat} (hk : k + 2 ≤ 2 ^ (s.chan ch).active.bits) : s.tabEntry ch k = _ :=
    (tabEntry_of_table (hch.table hready) k).trans (if_pos (by omega))
  obtain ⟨hbin, hsame⟩ := invt_bin hparam hb2 hb16 hi
  rw [hout, hsrc, hentry hi, hentry hbin, hsame]

end Sys2Proof.Machine

/-! SUPPORT. Rounding to nearest, ties to even, of the binary32 product and quotient (00_scope.md R15). Magnitudes are
counted in units of `2^−149`; a pattern that keeps its 24 bits at position `k` is a multiple of `2^k`. -/

namespace Sys2Proof.Machine

/-! ## The nearest integer -/

/-- No integer is nearer than the rounded one, and one as near makes it even. -/
theorem roundHalfEven_nearest {n d : Nat} (hd : 0 < d) (j : Int) :
    |(roundHalfEven n d : ℚ) - n / d| ≤ |(j : ℚ) - n / d| ∧
      (|(roundHalfEven n d : ℚ) - n / d| = |(j : ℚ) - n / d| → (j : ℚ) ≠ roundHalfEven n d →
        roundHalfEven n d % 2 = 0) := by
  obtain ⟨hhalf, heven⟩ := roundHalfEven_spec n d hd
  by_cases hj : j = roundHalfEven n d
  · subst hj
    exact ⟨le_of_eq (by push_cast; rfl), fun _ hne => absurd (by push_cast; rfl) hne⟩
  · have hgap : (1 : ℚ) ≤ |(j : ℚ) - roundHalfEven n d| := by
      exact_mod_cast Int.one_le_abs (sub_ne_zero.2 hj)
    have htri := abs_sub_le (j : ℚ) (n / d) (roundHalfEven n d)
    rw [abs_sub_comm (n / d : ℚ)] at htri
    exact ⟨by linarith, fun heq _ => heven (by linarith)⟩

/-! ## The nearest magnitude -/

/-- A magnitude is a multiple of `2^k`, or it keeps its bits below `k` and is less than `2^23` such units. -/
theorem magVal_multiple_or_lt (m k : Nat) :
    (∃ j : Nat, magVal m = j * 2 ^ k) ∨ (k ≠ 0 ∧ magVal m < 2 ^ 23 * 2 ^ k) := by
  obtain ⟨k', h, rfl, hh, hk'⟩ := exists_drop m
  rw [magVal_drop k' h hh.le hk']
  rcases le_or_gt k k' with hle | hlt
  · exact .inl ⟨h * 2 ^ (k' - k), by rw [mul_assoc, ← pow_add, Nat.sub_add_cancel hle]⟩
  · refine .inr ⟨by omega, ?_⟩
    calc h * 2 ^ k' < 2 ^ 24 * 2 ^ k' := Nat.mul_lt_mul_of_pos_right hh (by positivity)
      _ = 2 ^ 23 * 2 ^ (k' + 1) := by rw [pow_succ' 2 k', ← mul_assoc, ← pow_succ]
      _ ≤ 2 ^ 23 * 2 ^ k := Nat.mul_le_mul_left _ (Nat.pow_le_pow_right (by norm_num) hlt)

theorem div_eq_units_mul {n d : Nat} (hd : 0 < d) (k : Nat) : (n : ℚ) / d = n / (d * 2 ^ k : Nat) * 2 ^ k := by
  have hdq : (d : ℚ) ≠ 0 := by exact_mod_cast hd.ne'
  push_cast
  field_simp

/-- No multiple of `2^k` is nearer than the rounded one, and one as near makes its number of units even. -/
theorem roundHalfEven_mul_nearest {n d : Nat} (hd : 0 < d) (k : Nat) (j : Int) :
    |(roundHalfEven n (d * 2 ^ k) : ℚ) * 2 ^ k - n / d| ≤ |(j : ℚ) * 2 ^ k - n / d| ∧
      (|(roundHalfEven n (d * 2 ^ k) : ℚ) * 2 ^ k - n / d| = |(j : ℚ) * 2 ^ k - n / d| →
        (j : ℚ) * 2 ^ k ≠ roundHalfEven n (d * 2 ^ k) * 2 ^ k → roundHalfEven n (d * 2 ^ k) % 2 = 0) := by
  have hunit : (0 : ℚ) < 2 ^ k := by positivity
  have hscale (y : ℚ) : |y * 2 ^ k - (n : ℚ) / d| = |y - n / (d * 2 ^ k : Nat)| * 2 ^ k := by
    rw [div_eq_units_mul hd k, ← sub_mul, abs_mul, abs_of_pos hunit]
  rw [hscale, hscale, mul_le_mul_iff_of_pos_right hunit, mul_left_inj' hunit.ne', Ne, mul_left_inj' hunit.ne']
  exact roundHalfEven_nearest (by positivity) j

/-- Among the signed magnitudes none is nearer to `n / d` than the rounded one, and one as near makes its pattern even. -/
theorem roundMag_nearest {n d : Nat} (hd : 0 < d) (hfin : roundMag n d < infMag) (m : Nat) {c : ℚ}
    (hc : c = magVal m ∨ c = -(magVal m : ℚ)) :
    |(magVal (roundMag n d) : ℚ) - n / d| ≤ |c - n / d| ∧
      (|(magVal (roundMag n d) : ℚ) - n / d| = |c - n / d| → c ≠ magVal (roundMag n d) → roundMag n d % 2 = 0) := by
  obtain ⟨k, h, hround, hh, h24, hkept, -, hlarge⟩ := roundMag_spec n d hd
  have hpat : roundMag n d = k * 2 ^ 23 + h := by omega
  have heven : roundMag n d % 2 = h % 2 := by omega
  have hval : (magVal (roundMag n d) : ℚ) = h * 2 ^ k := by
    rw [hpat, magVal_drop k h h24 hkept]
    push_cast
    rfl
  have hmultiple := roundHalfEven_mul_nearest (n := n) hd k
  rw [← hh] at hmultiple
  rw [heven, hval]
  rcases magVal_multiple_or_lt m k with ⟨j, hj⟩ | ⟨hk0, hsmall⟩
  · obtain ⟨j', hj'⟩ : ∃ j' : Int, c = j' * 2 ^ k := by
      rcases hc with rfl | rfl
      · exact ⟨j, by rw [hj]; push_cast; rfl⟩
      · exact ⟨-j, by rw [hj]; push_cast; ring⟩
    rw [hj']
    exact hmultiple j'
  · have hedge : (2 ^ 23 : ℚ) * 2 ^ k ≤ n / d := by
      rw [le_div_iff₀ (by exact_mod_cast hd)]
      have := hlarge.resolve_left hk0
      exact_mod_cast (by linarith : 2 ^ 23 * 2 ^ k * d ≤ n)
    have hbelow : c < 2 ^ 23 * 2 ^ k := by
      have hsmallq : (magVal m : ℚ) < 2 ^ 23 * 2 ^ k := by exact_mod_cast hsmall
      have hpos : (0 : ℚ) ≤ magVal m := by positivity
      rcases hc with rfl | rfl <;> linarith
    obtain ⟨hle, -⟩ := hmultiple (2 ^ 23)
    rw [Int.cast_pow, Int.cast_ofNat, abs_of_nonpos (by linarith : (2 ^ 23 : ℚ) * 2 ^ k - n / d ≤ 0)] at hle
    rw [abs_of_neg (by linarith : c - (n : ℚ) / d < 0)]
    exact ⟨by linarith, fun heq => absurd heq (by linarith)⟩

/-- Rounding goes above an odd number exactly from the middle to its successor on, a tie there going to the successor. -/
theorem odd_lt_roundHalfEven_iff {n d N : Nat} (hd : 0 < d) (hodd : N % 2 = 1) :
    N < roundHalfEven n d ↔ (N : ℚ) + 1 / 2 ≤ n / d := by
  obtain ⟨hhalf, heven⟩ := roundHalfEven_spec n d hd
  obtain ⟨hlow, hhigh⟩ := abs_le.1 hhalf
  constructor
  · intro hlt
    have : (N : ℚ) + 1 ≤ roundHalfEven n d := by exact_mod_cast hlt
    linarith
  · intro hle
    by_contra hnot
    have hround : (roundHalfEven n d : ℚ) ≤ N := by exact_mod_cast not_lt.1 hnot
    have hsame : roundHalfEven n d = N := by exact_mod_cast (by linarith : (roundHalfEven n d : ℚ) = N)
    have htie : |(roundHalfEven n d : ℚ) - n / d| = 1 / 2 := by
      rw [abs_of_nonpos (by linarith)]
      linarith
    have := heven htie
    omega

/-- Rounding overflows exactly from half a unit below `2^24` units of `2^253` on. -/
theorem roundMag_eq_infMag_iff {n d : Nat} (hd : 0 < d) :
    roundMag n d = infMag ↔ (2 ^ 24 - 1 / 2 : ℚ) * 2 ^ 253 ≤ n / d := by
  obtain ⟨k, h, hround, hh, h24, hkept, hsmall, hlarge⟩ := roundMag_spec n d hd
  have hdq : (0 : ℚ) < d := by exact_mod_cast hd
  have hcases : roundMag n d = infMag ↔ 254 ≤ k ∨ (k = 253 ∧ 2 ^ 24 - 1 < h) := by
    rw [hround]
    unfold infMag
    omega
  have hupper : (n : ℚ) / d < 2 ^ 24 * 2 ^ k := by
    rw [div_lt_iff₀ hdq]
    exact_mod_cast (by linarith : n < 2 ^ 24 * 2 ^ k * d)
  rw [hcases]
  rcases lt_trichotomy k 253 with hk | rfl | hk
  · have hpow : (2 : ℚ) * 2 ^ k ≤ 2 ^ 253 := by
      rw [← pow_succ']
      exact pow_le_pow_right₀ (by norm_num) hk
    exact iff_of_false (by omega) (by linarith)
  · have hedge : ((2 ^ 24 - 1 : Nat) : ℚ) + 1 / 2 = 2 ^ 24 - 1 / 2 := by norm_num
    rw [div_eq_units_mul hd 253, mul_le_mul_iff_of_pos_right (by positivity), ← hedge, hh,
      ← odd_lt_roundHalfEven_iff (by positivity) (by decide)]
    simp
  · have hpow : (2 : ℚ) * 2 ^ 253 ≤ 2 ^ k := by
      rw [← pow_succ']
      exact pow_le_pow_right₀ (by norm_num) hk
    have hedge : (2 ^ 23 : ℚ) * 2 ^ k ≤ n / d := by
      rw [le_div_iff₀ hdq]
      have := hlarge.resolve_left (by omega)
      exact_mod_cast (by linarith : 2 ^ 23 * 2 ^ k * d ≤ n)
    exact iff_of_true (.inl hk) (by linarith)

/-! ## The nearest signed value -/

/-- The sign of a pattern as a number. -/
def signUnit (s : Bool) : ℚ := if s then -1 else 1

theorem signUnit_mul_self (s : Bool) : signUnit s * signUnit s = 1 := by cases s <;> norm_num [signUnit]

theorem abs_signUnit (s : Bool) : |signUnit s| = 1 := by cases s <;> norm_num [signUnit]

theorem signUnit_xor (s t : Bool) : signUnit (Bool.xor s t) = signUnit s * signUnit t := by
  cases s <;> cases t <;> norm_num [signUnit]

theorem realValue_eq_signUnit_mul (v : Word) : realValue v = signUnit (neg v) * (scaledMag v / 2 ^ 149) := by
  rw [scaledMag_eq]
  cases h : neg v with
  | true => rw [realValue_of_neg h, signUnit, if_pos rfl, neg_one_mul]
  | false => rw [realValue_of_not_neg h, signUnit, if_neg Bool.false_ne_true, one_mul]

/-- The value of a pattern under a sign, as a signed magnitude. -/
theorem signUnit_mul_realValue (s : Bool) (v : Word) : signUnit s * realValue v * 2 ^ 149 = magVal (magnitude v) ∨
    signUnit s * realValue v * 2 ^ 149 = -(magVal (magnitude v) : ℚ) := by
  rw [realValue_eq_signUnit_mul, scaledMag_eq, ← mul_assoc, ← signUnit_xor, mul_assoc,
    div_mul_cancel₀ _ (by positivity : (2 ^ 149 : ℚ) ≠ 0)]
  cases Bool.xor s (neg v) with
  | true => exact .inr (neg_one_mul _)
  | false => exact .inl (one_mul _)

section Signed

variable {n d : Nat} (hd : 0 < d) (s : Bool)

theorem roundMag_lt_two_pow : roundMag n d < 2 ^ 31 := (roundMag_le n d).trans_lt (by decide)

theorem magnitude_signed : magnitude (withSign s (roundMag n d)) = roundMag n d :=
  magnitude_withSign s _ roundMag_lt_two_pow

theorem neg_signed : neg (withSign s (roundMag n d)) = s := neg_withSign s _ roundMag_lt_two_pow

theorem isNaN_signed : isNaN (withSign s (roundMag n d)) = false := by
  rw [← Bool.not_eq_true, isNaN_iff, magnitude_signed]
  exact not_lt.2 (roundMag_le n d)

/-- The distance from a signed exact value is the distance of the magnitudes from its magnitude. -/
theorem abs_sub_signed (y x : ℚ) :
    |y - signUnit s * (x / 2 ^ 149)| = |signUnit s * y * 2 ^ 149 - x| / 2 ^ 149 := by
  have hunit := signUnit_mul_self s
  have hfactor : y - signUnit s * (x / 2 ^ 149) = signUnit s * ((signUnit s * y * 2 ^ 149 - x) / 2 ^ 149) := by
    rw [sub_div, mul_div_cancel_right₀ _ (by positivity : (2 ^ 149 : ℚ) ≠ 0), mul_sub, ← mul_assoc, hunit, one_mul]
  rw [hfactor, abs_mul, abs_signUnit, one_mul, abs_div, abs_of_pos (by positivity : (0 : ℚ) < 2 ^ 149)]

theorem signUnit_mul_realValue_signed :
    signUnit s * realValue (withSign s (roundMag n d)) * 2 ^ 149 = magVal (roundMag n d) := by
  rw [realValue_eq_signUnit_mul, scaledMag_eq, magnitude_signed, neg_signed, ← mul_assoc, signUnit_mul_self, one_mul,
    div_mul_cancel₀ _ (by positivity)]

include hd

/-- A finite rounding is the nearest finite value, ties to even. -/
theorem isNearestFinite_signed (hfin : isFinite (withSign s (roundMag n d)) = true) :
    IsNearestFinite ((signUnit s * (n / d / 2 ^ 149) : ℚ) : ℝ) (withSign s (roundMag n d)) := by
  have hlt : roundMag n d < infMag := by rwa [isFinite_iff, magnitude_signed] at hfin
  refine ⟨hfin, fun v _ => ?_⟩
  obtain ⟨hle, htie⟩ := roundMag_nearest hd hlt (magnitude v) (signUnit_mul_realValue s v)
  have hpos : (0 : ℚ) < 2 ^ 149 := by positivity
  have hdist (w : Word) : |(realValue w : ℝ) - ((signUnit s * (n / d / 2 ^ 149) : ℚ) : ℝ)| =
      ((|signUnit s * realValue w * 2 ^ 149 - n / d| / 2 ^ 149 : ℚ) : ℝ) := by
    rw [← abs_sub_signed s (realValue w) (n / d)]
    push_cast
    rfl
  rw [hdist, hdist, signUnit_mul_realValue_signed, Rat.cast_le, Rat.cast_inj, div_le_div_iff_of_pos_right hpos,
    div_left_inj' hpos.ne']
  refine ⟨hle, fun heq hne => ?_⟩
  have heven := htie heq fun hsame => hne ?_
  · rw [frac_eq_magnitude, magnitude_signed]
    omega
  · have hunit : signUnit s ≠ 0 := fun h0 => by simpa [h0] using signUnit_mul_self s
    rw [← signUnit_mul_realValue_signed s, mul_left_inj' hpos.ne'] at hsame
    exact (mul_left_cancel₀ hunit hsame).symm

/-- A rounding is infinite exactly from the overflow threshold on. -/
theorem isInf_signed_iff : isInf (withSign s (roundMag n d)) = true ↔
    (2 ^ 128 - 2 ^ 103 : ℚ) ≤ |signUnit s * (n / d / 2 ^ 149)| := by
  have hnonneg : (0 : ℚ) ≤ n / d / 2 ^ 149 := by positivity
  rw [isInf_iff, magnitude_signed, roundMag_eq_infMag_iff hd, abs_mul, abs_signUnit, one_mul, abs_of_nonneg hnonneg,
    le_div_iff₀ (by positivity : (0 : ℚ) < 2 ^ 149)]
  norm_num only

end Signed

/-! ## The two operations on finite operands -/

theorem fmul32_of_finite {a b : Word} (ha : isFinite a = true) (hb : isFinite b = true) : fmul32 a b =
    withSign (Bool.xor (neg a) (neg b)) (roundMag (scaledMag a * scaledMag b) (2 ^ 149)) := by
  obtain ⟨hanan, hainf⟩ := (isFinite_iff_not_isNaN_isInf a).1 ha
  obtain ⟨hbnan, hbinf⟩ := (isFinite_iff_not_isNaN_isInf b).1 hb
  simp [fmul32, hanan, hainf, hbnan, hbinf]

theorem fdiv32_of_finite {a b : Word} (ha : isFinite a = true) (hb : isFinite b = true) (hzero : isZero b = false) :
    fdiv32 a b = withSign (Bool.xor (neg a) (neg b)) (roundMag (scaledMag a * 2 ^ 149) (scaledMag b)) := by
  obtain ⟨hanan, hainf⟩ := (isFinite_iff_not_isNaN_isInf a).1 ha
  obtain ⟨hbnan, hbinf⟩ := (isFinite_iff_not_isNaN_isInf b).1 hb
  simp [fdiv32, hanan, hainf, hbnan, hbinf, hzero]

theorem realValue_mul (a b : Word) : realValue a * realValue b = signUnit (Bool.xor (neg a) (neg b)) *
    (((scaledMag a * scaledMag b : Nat) : ℚ) / (2 ^ 149 : Nat) / 2 ^ 149) := by
  rw [realValue_eq_signUnit_mul a, realValue_eq_signUnit_mul b, signUnit_xor]
  push_cast
  ring

theorem realValue_div (a b : Word) : realValue a / realValue b = signUnit (Bool.xor (neg a) (neg b)) *
    (((scaledMag a * 2 ^ 149 : Nat) : ℚ) / scaledMag b / 2 ^ 149) := by
  have hinv : (signUnit (neg b))⁻¹ = signUnit (neg b) := inv_eq_of_mul_eq_one_left (signUnit_mul_self _)
  have hpow : (2 : ℚ) ^ 149 ≠ 0 := by positivity
  rw [realValue_eq_signUnit_mul a, realValue_eq_signUnit_mul b, signUnit_xor, mul_div_mul_comm, div_eq_mul_inv, hinv,
    div_div_div_cancel_right₀ hpow]
  rw [Nat.cast_mul, Nat.cast_pow, Nat.cast_ofNat, div_right_comm, mul_div_cancel_right₀ _ hpow]

theorem scaledMag_pos {v : Word} (h : isZero v = false) : 0 < scaledMag v := by
  have hmag : magnitude v ≠ 0 := by
    rw [Ne, ← isZero_iff, h]
    exact Bool.false_ne_true
  rw [scaledMag_eq, ← magVal_zero]
  exact magVal_strictMono (Nat.pos_of_ne_zero hmag)

theorem xor_eq_true_iff_ne (s t : Bool) : Bool.xor s t = true ↔ s ≠ t := by cases s <;> cases t <;> decide

/-! ## The obligations -/

/-- Settles O59: the product is one rounding of the exact product. -/
theorem productIsNearestEven : Obligations.ProductIsNearestEven := by
  intro a b ha hb
  rw [fmul32_of_finite ha hb, realValue_mul, neg_signed]
  exact ⟨isNaN_signed _, isNearestFinite_signed (by positivity) _, isInf_signed_iff (by positivity) _,
    xor_eq_true_iff_ne _ _⟩

/-- Settles O60: the quotient is one rounding of the exact quotient. -/
theorem quotientIsNearestEven : Obligations.QuotientIsNearestEven := by
  intro a b ha hb hzero
  rw [fdiv32_of_finite ha hb hzero, realValue_div, neg_signed]
  exact ⟨isNaN_signed _, isNearestFinite_signed (scaledMag_pos hzero) _, isInf_signed_iff (scaledMag_pos hzero) _,
    xor_eq_true_iff_ne _ _⟩

end Sys2Proof.Machine
